-- ==== Sys2Proof/Word.lean ====
section
/-! DEFINITION. The word types of RDE (spec/00_scope.md R4, R5): 16-bit unsigned lanes and 64-bit words. -/

namespace Sys2Proof

/-- One lane of a bank: a 16-bit unsigned, wrapping number (R4 `LANE_W`, R5). -/
abbrev Lane := BitVec 16

/-- One element of `OUT`, one CSR as the host reads it, one command word (R25, R29, R60). -/
abbrev Word64 := BitVec 64

end Sys2Proof
end

