-- ==== Sys2Proof/Syntax.lean ====
section
/-! DEFINITION. The 21 commands of RDE (spec/30_encoding.md R61, R66) and the bank operands (R62). -/

namespace Sys2Proof

/-- The eight lane banks a command can name (R62, R40). -/
inductive Bank where
  | r
  | primes
  | inv
  | limit
  | m2r
  | kv
  | tmp
  | tmp2
deriving DecidableEq, Repr

/-- One constructor per row of the opcode table, with the fields its format uses (R61, R64).
`d`, `a`, `b` are banks; `idx` is the group index of a `G` format and the block index of a `B` format. -/
inductive Instr where
  /-- GMUL `d, a, b @g` (R81). -/
  | gmul (d a b : Bank) (idx : BitVec 8)
  /-- GSHL1ADD `d, a, b @g` (R82). -/
  | gshl1add (d a b : Bank) (idx : BitVec 8)
  /-- GMIN `d, a, b @g` (R83). -/
  | gmin (d a b : Bank) (idx : BitVec 8)
  /-- GOR `d, a, b @g` (R84). -/
  | gor (d a b : Bank) (idx : BitVec 8)
  /-- GADDS `d @g, #k` (R85). -/
  | gadds (d : Bank) (idx : BitVec 8) (k : Lane)
  /-- GADDV `d, a @g` (R86). -/
  | gaddv (d a : Bank) (idx : BitVec 8)
  /-- GLEMASK `d, a @g` (R87). -/
  | glemask (d a : Bank) (idx : BitVec 8)
  /-- GFOLD `d, a @g` (R88). -/
  | gfold (d a : Bank) (idx : BitVec 8)
  /-- BZTEST `d @b` (R102). -/
  | bztest (d : Bank) (idx : BitVec 8)
  /-- BADVS `@b, #k` (R103). -/
  | badvs (idx : BitVec 8) (k : Lane)
  /-- BADVV `@b` (R104). -/
  | badvv (idx : BitVec 8)
  /-- BNFP `@b` (R105). -/
  | bnfp (idx : BitVec 8)
  /-- BNFT `@b` (R106). -/
  | bnft (idx : BitVec 8)
  /-- BNFS `@b` (R107). -/
  | bnfs (idx : BitVec 8)
  /-- ADV `#k` (R122). -/
  | adv (k : Lane)
  /-- TSTP (R124). -/
  | tstp
  /-- TSTT (R125). -/
  | tstt
  /-- TSTS (R126). -/
  | tsts
  /-- INIT `#mode, #mod6` (R127). -/
  | init (mode : BitVec 16) (mod6 : BitVec 3)
  /-- WIPE (R128). -/
  | wipe
  /-- DRIVE `#count` (R140). -/
  | drive (count : BitVec 32)
deriving DecidableEq, Repr

end Sys2Proof
end

