-- ==== Sys2Proof/WellFormed.lean ====
section
/-! DEFINITION. Which commands are legal (spec/30_encoding.md R65, checks 4 to 6). Checks 1 to 3 of R65
(opcode, reserved fields, bank codes) leave no trace in `Instr`: a term cannot break them. -/

namespace Sys2Proof

/-- Banks that may be a destination: `R`, `KV`, `TMP`, `TMP2` (R62). -/
def Bank.writable : Bank → Bool
  | .r | .kv | .tmp | .tmp2 => true
  | .primes | .inv | .limit | .m2r => false

/-- The scratch banks `TMP`, `TMP2` (codes 6 and 7), one block long (R63). -/
def Bank.scratch : Bank → Bool
  | .tmp | .tmp2 => true
  | .r | .primes | .inv | .limit | .m2r | .kv => false

/-- R65 check 5: a group index above 215 is legal only when every used bank is scratch. -/
def groupIndexOk (banks : List Bank) (idx : BitVec 8) : Bool :=
  banks.all Bank.scratch || decide (idx.toNat ≤ 215)

/-- R65 check 6 for `B0` and `BI`: the block index is at most 53. -/
def blockIndexOk (idx : BitVec 8) : Bool :=
  decide (idx.toNat ≤ 53)

/-- R65 checks 4, 5 and 6 for a command of any format. -/
def Instr.wellFormed : Instr → Bool
  | .gmul d a b g | .gshl1add d a b g | .gmin d a b g | .gor d a b g =>
    d.writable && groupIndexOk [d, a, b] g
  | .gaddv d a g | .glemask d a g | .gfold d a g => d.writable && groupIndexOk [d, a] g
  | .gadds d g _ => d.writable && groupIndexOk [d] g
  | .bztest d b => d.scratch || blockIndexOk b
  | .badvs b _ => blockIndexOk b
  | .badvv b | .bnfp b | .bnft b | .bnfs b => blockIndexOk b
  | .adv _ => true
  | .tstp => true
  | .tstt => true
  | .tsts => true
  | .init _ _ => true
  | .wipe => true
  | .drive _ => true

end Sys2Proof
end

