-- ==== Sys2Proof/Decode.lean ====
section
/-! DEFINITION. The command word of RDE: its fields (spec/30_encoding.md R60), the decoder with the legality
checks of R65 in their order, and the encoder (R69), written from the same tables. A command word is one 64-bit
number: RDE has no bytes and no second word (R46, R60). -/

namespace Sys2Proof

/-! ### Fields of the word (R60) -/

def opField (w : Word64) : BitVec 8 := w.extractLsb' 56 8
def dField (w : Word64) : BitVec 4 := w.extractLsb' 52 4
def aField (w : Word64) : BitVec 4 := w.extractLsb' 48 4
def bField (w : Word64) : BitVec 4 := w.extractLsb' 44 4
def zField (w : Word64) : BitVec 4 := w.extractLsb' 40 4
def idxField (w : Word64) : BitVec 8 := w.extractLsb' 32 8
def immField (w : Word64) : BitVec 32 := w.extractLsb' 0 32

/-- `op << 56 | d << 52 | a << 48 | b << 44 | z << 40 | idx << 32 | imm` (R60, R69). -/
def packWord (op : BitVec 8) (d a b z : BitVec 4) (idx : BitVec 8) (imm : BitVec 32) : Word64 :=
  op ++ d ++ a ++ b ++ z ++ idx ++ imm

/-- The bank a code names (R62); codes 8 to 15 name none. -/
def bankOfCode (c : BitVec 4) : Option Bank :=
  if c = 0#4 then some .r
  else if c = 1#4 then some .primes
  else if c = 2#4 then some .inv
  else if c = 3#4 then some .limit
  else if c = 4#4 then some .m2r
  else if c = 5#4 then some .kv
  else if c = 6#4 then some .tmp
  else if c = 7#4 then some .tmp2
  else none

/-- The code of a bank (R62). -/
def codeOfBank : Bank → BitVec 4
  | .r => 0
  | .primes => 1
  | .inv => 2
  | .limit => 3
  | .m2r => 4
  | .kv => 5
  | .tmp => 6
  | .tmp2 => 7

/-! ### Decoding -/

/-- Why a word is illegal: the first check of R65 that fails. The host sees only `IllegalCommand` (R175). -/
inductive DecodeError where
  /-- R65 check 1: `op` is not one of the 21 opcodes. -/
  | unknownOpcode
  /-- R65 check 2: `z`, an unused field or an unused bit of `imm` is non-zero. -/
  | reservedField
  /-- R65 check 3: a used bank field holds a code above 7. -/
  | bankCode
  /-- R65 check 4: `d` names a bank that may not be a destination. -/
  | readOnlyDestination
  /-- R65 check 5: group index above 215 with a bank of codes 0 to 5. -/
  | groupIndex
  /-- R65 check 6: block index above 53. -/
  | blockIndex
deriving DecidableEq, Repr

/-- R65 checks 4 and 5, for the formats `G3`, `G2`, `GI`. -/
def checkGroup (d : Bank) (banks : List Bank) (idx : BitVec 8) (i : Instr) : Except DecodeError Instr :=
  if d.writable = false then .error .readOnlyDestination
  else if groupIndexOk banks idx = false then .error .groupIndex
  else .ok i

/-- R65 check 6, for the formats `B0`, `BI`. -/
def checkBlock (idx : BitVec 8) (i : Instr) : Except DecodeError Instr :=
  if blockIndexOk idx = false then .error .blockIndex else .ok i

/-- Format `G3`: `op d a b idx` (R61). -/
def decodeG3 (mk : Bank → Bank → Bank → BitVec 8 → Instr) (w : Word64) : Except DecodeError Instr :=
  if zField w ≠ 0 ∨ immField w ≠ 0 then .error .reservedField
  else
    match bankOfCode (dField w), bankOfCode (aField w), bankOfCode (bField w) with
    | some d, some a, some b => checkGroup d [d, a, b] (idxField w) (mk d a b (idxField w))
    | _, _, _ => .error .bankCode

/-- Format `G2`: `op d a idx` (R61). -/
def decodeG2 (mk : Bank → Bank → BitVec 8 → Instr) (w : Word64) : Except DecodeError Instr :=
  if zField w ≠ 0 ∨ bField w ≠ 0 ∨ immField w ≠ 0 then .error .reservedField
  else
    match bankOfCode (dField w), bankOfCode (aField w) with
    | some d, some a => checkGroup d [d, a] (idxField w) (mk d a (idxField w))
    | _, _ => .error .bankCode

/-- Format `GI`: `op d idx imm[15:0]` (R61, R64). -/
def decodeGI (mk : Bank → BitVec 8 → Lane → Instr) (w : Word64) : Except DecodeError Instr :=
  if zField w ≠ 0 ∨ aField w ≠ 0 ∨ bField w ≠ 0 ∨ (immField w).extractLsb' 16 16 ≠ 0 then .error .reservedField
  else
    match bankOfCode (dField w) with
    | some d => checkGroup d [d] (idxField w) (mk d (idxField w) ((immField w).extractLsb' 0 16))
    | none => .error .bankCode

/-- Format `B1`: `op d idx`; any bank 0 to 7 may be tested, and `idx` is free for a scratch bank (R65, R102). -/
def decodeB1 (mk : Bank → BitVec 8 → Instr) (w : Word64) : Except DecodeError Instr :=
  if zField w ≠ 0 ∨ aField w ≠ 0 ∨ bField w ≠ 0 ∨ immField w ≠ 0 then .error .reservedField
  else
    match bankOfCode (dField w) with
    | some d => if d.scratch then .ok (mk d (idxField w)) else checkBlock (idxField w) (mk d (idxField w))
    | none => .error .bankCode

/-- Format `B0`: `op idx` (R61). -/
def decodeB0 (mk : BitVec 8 → Instr) (w : Word64) : Except DecodeError Instr :=
  if zField w ≠ 0 ∨ dField w ≠ 0 ∨ aField w ≠ 0 ∨ bField w ≠ 0 ∨ immField w ≠ 0 then .error .reservedField
  else checkBlock (idxField w) (mk (idxField w))

/-- Format `BI`: `op idx imm[15:0]` (R61, R64). -/
def decodeBI (mk : BitVec 8 → Lane → Instr) (w : Word64) : Except DecodeError Instr :=
  if zField w ≠ 0 ∨ dField w ≠ 0 ∨ aField w ≠ 0 ∨ bField w ≠ 0 ∨ (immField w).extractLsb' 16 16 ≠ 0 then
    .error .reservedField
  else checkBlock (idxField w) (mk (idxField w) ((immField w).extractLsb' 0 16))

/-- Formats `S0` and `SI`: `op` and, for `SI`, the low `n` bits of `imm`, whose other bits are 0 (R61, R64). -/
def decodeS (n : Nat) (i : Instr) (w : Word64) : Except DecodeError Instr :=
  if zField w ≠ 0 ∨ dField w ≠ 0 ∨ aField w ≠ 0 ∨ bField w ≠ 0 ∨ idxField w ≠ 0 ∨ 2 ^ n ≤ (immField w).toNat then
    .error .reservedField
  else .ok i

/-- The command a word encodes, or why it is illegal: `op` first (R66), then the checks of R65 in order. -/
def decode (w : Word64) : Except DecodeError Instr :=
  match (opField w).toNat with
  | 0x01 => decodeG3 .gmul w
  | 0x02 => decodeG3 .gshl1add w
  | 0x03 => decodeG3 .gmin w
  | 0x04 => decodeG3 .gor w
  | 0x05 => decodeGI .gadds w
  | 0x06 => decodeG2 .gaddv w
  | 0x07 => decodeG2 .glemask w
  | 0x08 => decodeG2 .gfold w
  | 0x10 => decodeB1 .bztest w
  | 0x11 => decodeBI .badvs w
  | 0x12 => decodeB0 .badvv w
  | 0x13 => decodeB0 .bnfp w
  | 0x14 => decodeB0 .bnft w
  | 0x15 => decodeB0 .bnfs w
  | 0x20 => decodeS 16 (.adv ((immField w).extractLsb' 0 16)) w
  | 0x21 => decodeS 0 .tstp w
  | 0x22 => decodeS 0 .tstt w
  | 0x23 => decodeS 0 .tsts w
  | 0x30 => decodeS 19 (.init ((immField w).extractLsb' 0 16) ((immField w).extractLsb' 16 3)) w
  | 0x31 => decodeS 0 .wipe w
  | 0x40 => decodeS 32 (.drive (immField w)) w
  | _ => .error .unknownOpcode

/-- The instruction the decoder reads from a table row's bits: `w` is the 64-bit command word, its bits from
`nbits` up being 0. -/
def decodeTableWord (nbits w : Nat) : Option Instr :=
  match decode (BitVec.ofNat 64 (w % 2 ^ nbits)) with
  | .ok i => some i
  | .error _ => none

/-! ### Encoding -/

/-- The opcode of R66. -/
def opcodeOf : Instr → BitVec 8
  | .gmul _ _ _ _ => 0x01
  | .gshl1add _ _ _ _ => 0x02
  | .gmin _ _ _ _ => 0x03
  | .gor _ _ _ _ => 0x04
  | .gadds _ _ _ => 0x05
  | .gaddv _ _ _ => 0x06
  | .glemask _ _ _ => 0x07
  | .gfold _ _ _ => 0x08
  | .bztest _ _ => 0x10
  | .badvs _ _ => 0x11
  | .badvv _ => 0x12
  | .bnfp _ => 0x13
  | .bnft _ => 0x14
  | .bnfs _ => 0x15
  | .adv _ => 0x20
  | .tstp => 0x21
  | .tstt => 0x22
  | .tsts => 0x23
  | .init _ _ => 0x30
  | .wipe => 0x31
  | .drive _ => 0x40

/-- A 16-bit immediate in `imm` (R64): `imm[31:16] = 0`. -/
def imm16 (k : BitVec 16) : BitVec 32 := 0#16 ++ k

/-- The command word of an instruction (R60, R61, R64, R69). -/
def encode (i : Instr) : Word64 :=
  match i with
  | .gmul d a b g | .gshl1add d a b g | .gmin d a b g | .gor d a b g =>
    packWord (opcodeOf i) (codeOfBank d) (codeOfBank a) (codeOfBank b) 0 g 0
  | .gaddv d a g | .glemask d a g | .gfold d a g => packWord (opcodeOf i) (codeOfBank d) (codeOfBank a) 0 0 g 0
  | .gadds d g k => packWord (opcodeOf i) (codeOfBank d) 0 0 0 g (imm16 k)
  | .bztest d b => packWord (opcodeOf i) (codeOfBank d) 0 0 0 b 0
  | .badvs b k => packWord (opcodeOf i) 0 0 0 0 b (imm16 k)
  | .badvv b | .bnfp b | .bnft b | .bnfs b => packWord (opcodeOf i) 0 0 0 0 b 0
  | .adv k => packWord (opcodeOf i) 0 0 0 0 0 (imm16 k)
  | .tstp => packWord (opcodeOf i) 0 0 0 0 0 0
  | .tstt => packWord (opcodeOf i) 0 0 0 0 0 0
  | .tsts => packWord (opcodeOf i) 0 0 0 0 0 0
  | .init mode mod6 => packWord (opcodeOf i) 0 0 0 0 0 (0#13 ++ mod6 ++ mode)
  | .wipe => packWord (opcodeOf i) 0 0 0 0 0 0
  | .drive count => packWord (opcodeOf i) 0 0 0 0 0 count

end Sys2Proof
end

