-- ==== Sys2Proof/Config.lean ====
section
/-! DEFINITION. What the spec leaves open for an implementation: the capacity of the output buffer and the
unspecified values. None has a body, so no proof can rest on what it is. -/

namespace Sys2Proof.Config

/-- `OUT_CAP` less one (R4: `OUT_CAP` is OPEN, at least 1). -/
opaque outCapPred : Nat

/-- `OUT_CAP`, the capacity of the output buffer in 64-bit words (R4, R29; log 4). -/
def outCap : Nat := outCapPred + 1

/-- The unspecified value of lane `i` of the bank with code `bank`, at draw number `draw`: lanes after reset
(R191) and lanes an aborted command was writing (R174). DESIGN CHOICE: a free value (log 1, log 3). Safe. -/
opaque unspecLane (draw bank i : Nat) : BitVec 16

/-- The unspecified value of `OUT[i]` at draw number `draw` (R191, R174; log 1, log 3). Safe. -/
opaque unspecWord (draw i : Nat) : BitVec 64

/-- `LSB` after an aborted ADV or DRIVE (R174; log 3). Safe. -/
opaque unspecLsb (draw : Nat) : BitVec 64

/-- `OFFSET` after an aborted ADV or DRIVE (R174; log 3). Safe. -/
opaque unspecOffset (draw : Nat) : BitVec 64

/-- `MOD6` after an aborted ADV or DRIVE (R174): any of the values 0 to 5 that R23 allows it (log 3). Safe. -/
opaque unspecMod6 (draw : Nat) : Fin 6

/-- `RESULT` after an aborted DRIVE (R174; log 3). Safe. -/
opaque unspecResult (draw : Nat) : BitVec 64

/-- `OUTCNT` after an aborted DRIVE (R174; log 3). Safe. -/
opaque unspecOutcnt (draw : Nat) : BitVec 32

/-- How many passes of a driver's loop the model follows between two survivors before it stops with the fault
`driveUnfinished`. The number is above `PRIMES[0] * ... * PRIMES[N-1]` times 2^15 in every tier (each of the at
most 3456 primes is below 2^15), so by R152 it is never used up. DEDUCED (log 7). Safe. -/
@[irreducible] def searchBound : Nat := 2 ^ (15 * 3456 + 16)

end Sys2Proof.Config
end

