-- ==== Sys2Proof/Machine/State.lean ====
section
/-! DEFINITION. The state of RDE as plain data (spec/10_state.md), its reset contents (70_reset_and_hazards.md
R191), and the reasons a step can stop. The four tables are read-only constants (Machine/Tables.lean). -/

namespace Sys2Proof.Machine

/-- Why a step stops. No trap of RDE is here: completion codes are next states (60_exceptions.md R170). -/
inductive Fault where
  /-- Raised by DRIVE when `Config.searchBound` passes of the driver's loop found no survivor. R152 says
  survivors always recur, within far fewer passes. Safe: the model stops where RDE goes on (log 7). -/
  | driveUnfinished
deriving DecidableEq, Repr

/-- Why a step is refused. -/
inductive Refusal where
  /-- Raised by an arm of `exec` whose instruction has no meaning yet; every arm has one. Safe. -/
  | notModelled (mnemonic : String)
deriving DecidableEq, Repr

/-- One action of the host, taken between commands (20_memory.md R41, R42, R47; 70_reset_and_hazards.md R190).
`addr` is the 20-bit element address: the space id in bits 19:16, the element index in bits 15:0. -/
inductive HostAccess where
  /-- `MemRead`: the element, zero-extended, goes to `State.hostRead`. -/
  | read (addr : BitVec 20)
  /-- `MemWrite`; a write to `CSR[0]` (`CMD`) executes a command (R60). -/
  | write (addr : BitVec 20) (data : Word64)
  /-- The reset event of the platform (R190). -/
  | reset
deriving DecidableEq, Repr

/-- The writable spaces of RDE (R40), each an array of whole elements listed by element index (log 9). -/
structure Memory where
  /-- `R`, the residue vector (R16). -/
  r : List Lane
  /-- `KV`, the vector-increment bank (R18). -/
  kv : List Lane
  /-- `TMP` (R19). -/
  tmp : List Lane
  /-- `TMP2` (R19). -/
  tmp2 : List Lane
  /-- `OUT`, the output buffer; its length is `OUT_CAP` (R29, R4; log 4). -/
  out : List Word64
deriving DecidableEq, Repr

/-- Every space has its number of elements (R4, R40), `OUT_CAP` being at least 1: with one entry for each
element, in index order, equal memories are equal data. -/
abbrev Memory.wf (m : Memory) : Prop :=
  m.r.length = 3456 ∧ m.kv.length = 3456 ∧ m.tmp.length = 64 ∧ m.tmp2.length = 64 ∧ 1 ≤ m.out.length

/-- The whole state. -/
structure State where
  /-- The lane banks and the output buffer. -/
  mem : Memory
  /-- `STATUS`, CSR 1 (R26): `NF` bit 0, `HALT` bit 1, `CC` bits 7:4, the others reserved. -/
  status : BitVec 64
  /-- `RESULT`, CSR 2 (R27). -/
  result : BitVec 64
  /-- `OUTCNT`, CSR 3 (R28). -/
  outcnt : BitVec 32
  /-- `MODE`, CSR 4 (R22). -/
  mode : BitVec 16
  /-- `MOD6`, CSR 5 (R23). -/
  mod6 : BitVec 3
  /-- `MOD6_INCR`, CSR 6 (R24). -/
  mod6Incr : BitVec 3
  /-- `LSB`, CSR 7 (R20). -/
  lsb : BitVec 64
  /-- `OFFSET`, CSR 8 (R21). -/
  offset : BitVec 64
  /-- The model's own: the host's pending actions, oldest first, one taken by each step (log 5). -/
  host : List HostAccess
  /-- The model's own: the value the last host read returned (log 6). -/
  hostRead : Word64
  /-- The model's own: how many draws of unspecified values were made (log 2). -/
  draws : Nat
deriving DecidableEq, Repr

/-- Memory after a reset event (R191): `TMP` and `TMP2` zero, the rest unspecified (log 1). -/
def resetMemory (draw cap : Nat) : Memory where
  r := (List.range 3456).map (Config.unspecLane draw 0)
  kv := (List.range 3456).map (Config.unspecLane draw 5)
  tmp := List.replicate 64 0
  tmp2 := List.replicate 64 0
  out := (List.range cap).map (Config.unspecWord draw)

/-- The state after a reset event (R191), with `cap` words of output buffer: the unspecified contents of `R`, `KV`
and `OUT` are those of draw number `draw` (log 1, log 2); the host's list and its last read value are kept, being
the host's (log 5, log 6). -/
def State.afterReset (draw cap : Nat) (host : List HostAccess) (hostRead : Word64) : State where
  mem := resetMemory draw cap
  status := 0
  result := 0
  outcnt := 0
  mode := 0
  mod6 := 0
  mod6Incr := 0
  lsb := 0
  offset := 0
  host := host
  hostRead := hostRead
  draws := draw + 1

/-- The machine right after its first reset: idle, no host action pending (R190, R191). -/
def State.reset : State := State.afterReset 0 Config.outCap [] 0

end Sys2Proof.Machine
end

