-- ==== Sys2Proof/Machine/Flags.lean ====
section
/-! DEFINITION. The fields of `STATUS` (spec/10_state.md R26) and the completion codes (60_exceptions.md R170).
A setter changes its own field and keeps every other bit. -/

namespace Sys2Proof.Machine

/-- The six kinds of completion (R170). -/
inductive Code where
  | ok
  | invalidInput
  | unsupportedMode
  | bufferFull
  | internalInvariant
  | illegalCommand
deriving DecidableEq, Repr

/-- The number of a kind (R170). -/
def codeBits : Code → BitVec 4
  | .ok => 0
  | .invalidInput => 1
  | .unsupportedMode => 2
  | .bufferFull => 3
  | .internalInvariant => 4
  | .illegalCommand => 5

/-- `STATUS.NF`, bit 0 (R26). -/
def statusNf (st : BitVec 64) : Bool := st.getLsbD 0

/-- `STATUS.HALT`, bit 1 (R26). -/
def statusHalt (st : BitVec 64) : Bool := st.getLsbD 1

/-- `STATUS[3:2]`, reserved (R26). -/
def statusReservedLow (st : BitVec 64) : BitVec 2 := st.extractLsb' 2 2

/-- `STATUS.CC`, bits 7:4 (R26). -/
def statusCc (st : BitVec 64) : BitVec 4 := st.extractLsb' 4 4

/-- `STATUS[63:8]`, reserved (R26). -/
def statusReservedHigh (st : BitVec 64) : BitVec 56 := st.extractLsb' 8 56

/-- A `STATUS` word from its fields (R26). -/
def packStatus (high : BitVec 56) (cc : BitVec 4) (low : BitVec 2) (halt nf : Bool) : BitVec 64 :=
  high ++ cc ++ low ++ BitVec.ofBool halt ++ BitVec.ofBool nf

/-- `STATUS.NF <- b`. -/
def setStatusNf (b : Bool) (st : BitVec 64) : BitVec 64 :=
  packStatus (statusReservedHigh st) (statusCc st) (statusReservedLow st) (statusHalt st) b

/-- `STATUS.HALT <- b`. -/
def setStatusHalt (b : Bool) (st : BitVec 64) : BitVec 64 :=
  packStatus (statusReservedHigh st) (statusCc st) (statusReservedLow st) b (statusNf st)

/-- `STATUS.CC <- c`. -/
def setStatusCc (c : BitVec 4) (st : BitVec 64) : BitVec 64 :=
  packStatus (statusReservedHigh st) c (statusReservedLow st) (statusHalt st) (statusNf st)

end Sys2Proof.Machine
end

