-- ==== Sys2Proof/Machine/Operands.lean ====
section
/-! DEFINITION. Operands of commands: banks, groups and blocks (spec/30_encoding.md R62, R63; 20_memory.md R50),
and the fields of the mode word (10_state.md R22). -/

namespace Sys2Proof.Machine

/-! ### Lists of lanes -/

/-- Elements `base .. base + n - 1` of a list. -/
def slice {α : Type} (base n : Nat) (l : List α) : List α := (l.drop base).take n

/-- `old` with its elements from `base` on replaced by those of `new`; the length is kept. -/
def overlay {α : Type} : Nat → List α → List α → List α
  | _, _, [] => []
  | _, [], old => old
  | 0, n :: new, _ :: old => n :: overlay 0 new old
  | base + 1, new, o :: old => o :: overlay base new old

/-- Lane-wise function of three lists. -/
def map3 {α β γ δ : Type} (f : α → β → γ → δ) : List α → List β → List γ → List δ
  | a :: as, b :: bs, c :: cs => f a b c :: map3 f as bs cs
  | _, _, _ => []

/-! ### Banks (R62) -/

/-- All lanes of a bank, in index order. -/
def bankLanes (b : Bank) (m : Memory) : List Lane :=
  match b with
  | .r => m.r
  | .primes => primesTable
  | .inv => invTable
  | .limit => limitTable
  | .m2r => m2rTable
  | .kv => m.kv
  | .tmp => m.tmp
  | .tmp2 => m.tmp2

/-- Write all lanes of a bank; the tables are read-only, and a write to one is dropped (R10, R42, R50). -/
def setBank (b : Bank) (lanes : List Lane) (m : Memory) : Memory :=
  match b with
  | .r => { m with r := lanes }
  | .primes => m
  | .inv => m
  | .limit => m
  | .m2r => m
  | .kv => { m with kv := lanes }
  | .tmp => { m with tmp := lanes }
  | .tmp2 => { m with tmp2 := lanes }

/-- `bank[i]` (R6). An index the bank does not have reads as 0, as on the host port (R41). -/
def laneAt (b : Bank) (i : Nat) (m : Memory) : Lane := (bankLanes b m).getD i 0

/-! ### Groups and blocks (R63) -/

/-- `GroupBase(bank, g)`. -/
def groupBase (b : Bank) (g : BitVec 8) : Nat :=
  if b.scratch then 16 * (g.toNat % 4) else 16 * g.toNat

/-- `BlockBase(bank, b)`. -/
def blockBase (b : Bank) (idx : BitVec 8) : Nat :=
  if b.scratch then 0 else 64 * idx.toNat

/-- The 16 lanes of a group operand. -/
def readGroup (b : Bank) (g : BitVec 8) (m : Memory) : List Lane := slice (groupBase b g) 16 (bankLanes b m)

/-- Write the 16 lanes of a group operand. -/
def writeGroup (b : Bank) (g : BitVec 8) (lanes : List Lane) (m : Memory) : Memory :=
  setBank b (overlay (groupBase b g) lanes (bankLanes b m)) m

/-- The 64 lanes of a block operand. -/
def readBlock (b : Bank) (idx : BitVec 8) (m : Memory) : List Lane := slice (blockBase b idx) 64 (bankLanes b m)

/-! ### The mode word (R22) -/

/-- The three enabled search types (R4 `TYPE_ENABLE`). -/
inductive Kind where
  | plain
  | twin
  | safe
deriving DecidableEq, Repr

/-- `prime_type`, bits 3:0 of a mode word. -/
def modeType (m : BitVec 16) : BitVec 4 := m.extractLsb' 0 4

/-- `table_tier`, bits 9:8 of a mode word. -/
def modeTier (m : BitVec 16) : BitVec 2 := m.extractLsb' 8 2

/-- `ModeValid(m)`: no flag bit, exactly one enabled type, a tier. -/
def modeValid (m : BitVec 16) : Bool :=
  m.extractLsb' 10 6 == 0 && m.extractLsb' 4 4 == 0 &&
    (modeType m == 1 || modeType m == 2 || modeType m == 4) &&
    (modeTier m == 1 || modeTier m == 2 || modeTier m == 3)

/-- `N` of `Tier(m)`: 576, 1856, 3456 lanes (R4, R22). A tier field of 0 names no tier. -/
def tierLanes (m : BitVec 16) : Nat :=
  if modeTier m = 1 then 576
  else if modeTier m = 2 then 1856
  else if modeTier m = 3 then 3456
  else 0

/-- `NB` of `Tier(m)`: 9, 29, 54 blocks (R4). -/
def tierBlocks (m : BitVec 16) : Nat := tierLanes m / 64

/-- `Type(m)` of a valid mode word: 1 Plain, 2 Twin, 4 Safe (R22). No valid mode reaches the last case. -/
def modeKind (m : BitVec 16) : Kind :=
  if modeType m = 2 then .twin
  else if modeType m = 4 then .safe
  else .plain

end Sys2Proof.Machine
end

