-- ==== Sys2Proof/Machine/Ops.lean ====
section
/-! DEFINITION. The operations the meanings share: the lane datapath (spec/40_group_primitives.md R89), ending a
command with a completion code and the InternalInvariant abort (60_exceptions.md R170 to R177), the block and tier
advance (R103, R104, R121), the testers (R101, R105 to R107, R123) and the scratch wipe (R109). RDE has no trap
handler and nothing to return from (R177, R178): `raise` is the whole of taking a fault, reset the only way back. -/

namespace Sys2Proof.Machine

/-- What a meaning answers. -/
abbrev Answer := Host.Outcome State Fault Refusal

/-! ### The lane datapath (R89): 16-bit, unsigned, wrapping -/

/-- `a * b`, low half (R81). -/
def laneMul (a b : Lane) : Lane := a * b

/-- `(v << 1) + a` (R82). -/
def laneShl1Add (v a : Lane) : Lane := (v <<< 1) + a

/-- Unsigned minimum (R83). -/
def laneMin (a b : Lane) : Lane := if a.toNat ≤ b.toNat then a else b

/-- Bitwise OR (R84). -/
def laneOr (a b : Lane) : Lane := a ||| b

/-- Wrapping sum (R85, R86). -/
def laneAdd (v k : Lane) : Lane := v + k

/-- `0xFFFF` when `v <= lim`, else 0 (R87). -/
def laneLeMask (v lim : Lane) : Lane := if v.toNat ≤ lim.toNat then 0xFFFF else 0

/-- `v + m` when `v >= 0x8000`, else `v` (R88; R4 `FOLD_THRESHOLD`). -/
def laneFold (v m : Lane) : Lane := if 0x8000 ≤ v.toNat then v + m else v

/-- The exact sum of a lane and its increment is 2^16 or more (R103, R174). -/
def laneCarries (v k : Lane) : Bool := decide (2 ^ 16 ≤ v.toNat + k.toNat)

/-! ### Ending a command -/

/-- `STATUS.CC <- c` (R170). -/
def complete (c : Code) (s : State) : State := { s with status := setStatusCc (codeBits c) s.status }

/-- `raise <Kind>` (R170): write the code; InternalInvariant also sets `HALT` (R174). The other effects of a
kind are the raising command's (R171 to R175). -/
def raise (c : Code) (s : State) : State :=
  match c with
  | .internalInvariant =>
    { s with status := setStatusHalt true (setStatusCc (codeBits .internalInvariant) s.status) }
  | .ok => complete .ok s
  | .invalidInput => complete .invalidInput s
  | .unsupportedMode => complete .unsupportedMode s
  | .bufferFull => complete .bufferFull s
  | .illegalCommand => complete .illegalCommand s

/-- `STATUS.NF <- b` (R26). -/
def setNf (b : Bool) (s : State) : State := { s with status := setStatusNf b s.status }

/-! ### Unspecified values (R174) -/

/-- Unspecified lanes `base .. base + n - 1` of a bank at draw number `draw`. -/
def unspecLanes (draw : Nat) (b : Bank) (base n : Nat) : List Lane :=
  (List.range' base n).map (Config.unspecLane draw (codeOfBank b).toNat)

/-- Unspecified `OUT[0 .. n-1]` at draw number `draw`. -/
def unspecWords (draw n : Nat) : List Word64 := (List.range n).map (Config.unspecWord draw)

/-- `R[base .. base + n - 1]` become unspecified. -/
def loseLanes (base n : Nat) (s : State) : State :=
  { s with mem := { s.mem with r := overlay base (unspecLanes s.draws .r base n) s.mem.r } }

/-- `LSB`, `OFFSET`, `MOD6` become unspecified, `MOD6` within 0 to 5 (R23). -/
def loseCounters (s : State) : State :=
  { s with
    lsb := Config.unspecLsb s.draws
    offset := Config.unspecOffset s.draws
    mod6 := BitVec.ofNat 3 (Config.unspecMod6 s.draws).val }

/-- What a DRIVE was writing besides lanes and counters becomes unspecified: `OUT[0 .. count-1]`, `RESULT`,
`OUTCNT`, `TMP`, `TMP2`. -/
def loseOutputs (count : Nat) (s : State) : State :=
  { s with
    mem :=
      { s.mem with
        tmp := unspecLanes s.draws .tmp 0 64
        tmp2 := unspecLanes s.draws .tmp2 0 64
        out := overlay 0 (unspecWords s.draws count) s.mem.out }
    result := Config.unspecResult s.draws
    outcnt := Config.unspecOutcnt s.draws }

/-- One draw of unspecified values has been used up. -/
def nextDraw (s : State) : State := { s with draws := s.draws + 1 }

/-- The abort of BADVS and BADVV on block `b` (R174). -/
def abortBlock (b : Nat) (s : State) : State := raise .internalInvariant (nextDraw (loseLanes (64 * b) 64 s))

/-- The abort of ADV (R174). -/
def abortAdvance (s : State) : State :=
  raise .internalInvariant (nextDraw (loseCounters (loseLanes 0 (tierLanes s.mode) s)))

/-- The abort of DRIVE `#count` (R174). -/
def abortDrive (count : Nat) (s : State) : State :=
  raise .internalInvariant (nextDraw (loseOutputs count (loseCounters (loseLanes 0 (tierLanes s.mode) s))))

/-! ### Advance (R103, R104, R121) -/

/-- Add and fold each lane, or `none` when some lane add carries out of 16 bits (R103). -/
def advanceLanes (rs ks ms : List Lane) : Option (List Lane) :=
  if (List.zipWith laneCarries rs ks).any id then none
  else some (map3 (fun v k m => laneFold (laneAdd v k) m) rs ks ms)

/-- Advance the lanes `R[base .. base + n - 1]` by the increments `ks`. -/
def advanceRange (base n : Nat) (ks : List Lane) (m : Memory) : Option Memory :=
  match advanceLanes (slice base n m.r) ks (slice base n m2rTable) with
  | none => none
  | some lanes => some { m with r := overlay base lanes m.r }

/-- `AdvBlockScalar(b, k)` for the `n` blocks from `b` on, whose lanes are consecutive (R103; R121 and R145 run it
over blocks in a row). -/
def advBlocksScalar (b n k : Nat) (m : Memory) : Option Memory :=
  advanceRange (64 * b) (64 * n) (List.replicate (64 * n) (BitVec.ofNat 16 k)) m

/-- `AdvBlockVector(b)` (R104). -/
def advBlockVector (b : Nat) (m : Memory) : Option Memory :=
  advanceRange (64 * b) 64 (slice (64 * b) 64 m.kv) m

/-- `LSB`, `OFFSET` and `MOD6` move on by `k` (R20, R21, R23, R121). -/
def advanceCounters (k : Nat) (s : State) : State :=
  { s with
    lsb := s.lsb + BitVec.ofNat 64 k
    offset := s.offset + BitVec.ofNat 64 k
    mod6 := BitVec.ofNat 3 ((s.mod6.toNat + k) % 6) }

/-- `Advance(k)` (R121); `none` on a lane overflow. -/
def advance (k : Nat) (s : State) : Option State :=
  match advBlocksScalar 0 (tierBlocks s.mode) k s.mem with
  | none => none
  | some m => some (advanceCounters k { s with mem := m })

/-! ### Tests (R101, R105 to R109, R123) -/

/-- `ZeroTest` of a block's lanes (R101). -/
def zeroTest (lanes : List Lane) : Bool := lanes.all fun v => v == 0

/-- The mask lane `NoFactorPlain`, `NoFactorTwin` and `NoFactorSafe` leave in `TMP`, from the lane of `R`, `INV` and
`LIMIT` (R105, R106, R107). -/
def maskLane (k : Kind) (r inv lim : Lane) : Lane :=
  match k with
  | .plain => laneLeMask (laneMul r inv) lim
  | .twin => laneLeMask (laneMin (laneMul r inv) (laneShl1Add inv (laneMul r inv))) lim
  | .safe => laneLeMask (laneMin (laneMul r inv) (laneShl1Add (laneMul r inv) inv)) lim

/-- `NoFactor(b)` of a kind: the value, with the scratch it uses left out, since every command that calls it zeroes
the scratch afterwards (R105 to R107, R109; log 13). -/
def noFactor (k : Kind) (b : Nat) (m : Memory) : Bool :=
  zeroTest (map3 (maskLane k) (slice (64 * b) 64 m.r) (slice (64 * b) 64 invTable) (slice (64 * b) 64 limitTable))

/-- `NoFactor(b)` for every block `b` of `first .. first + n - 1`. -/
def noFactorBlocks (k : Kind) (first n : Nat) (m : Memory) : Bool :=
  (List.range' first n).all fun b => noFactor k b m

/-- `TestTier(kind)` over the tier's `nb` blocks: block 0 first, then the others (R123). -/
def testTier (k : Kind) (nb : Nat) (m : Memory) : Bool :=
  noFactor k 0 m && noFactorBlocks k 1 (nb - 1) m

/-- `TMP[0..63] <- 0; TMP2[0..63] <- 0` (R109). -/
def clearScratch (m : Memory) : Memory :=
  { m with tmp := List.replicate 64 0, tmp2 := List.replicate 64 0 }

end Sys2Proof.Machine
end

