-- ==== Sys2Proof/Machine/Block.lean ====
section
/-! DEFINITION. The block commands (spec/41_block_primitives.md R100 to R109). None needs a valid `MODE`. -/

namespace Sys2Proof.Machine

/-- BZTEST (R102): `NF` from the block of bank `d`; no lane is written. -/
def execBztest (d : Bank) (b : BitVec 8) (s : State) : Answer :=
  .next (complete .ok (setNf (zeroTest (readBlock d b s.mem)) s))

/-- The end of BADVS and BADVV on block `b`: the advanced lanes, or the abort of R174. -/
def finishBlockAdvance (b : Nat) (advanced : Option Memory) (s : State) : State :=
  match advanced with
  | none => abortBlock b s
  | some m => complete .ok { s with mem := m }

/-- BADVS (R103). -/
def execBadvs (b : BitVec 8) (k : Lane) (s : State) : Answer :=
  .next (finishBlockAdvance b.toNat (advBlocksScalar b.toNat 1 k.toNat s.mem) s)

/-- BADVV (R104). -/
def execBadvv (b : BitVec 8) (s : State) : Answer :=
  .next (finishBlockAdvance b.toNat (advBlockVector b.toNat s.mem) s)

/-- `NF <- nf` and the scratch wiped, code `Ok`: the end of every tester command (R105 to R107, R109, R124). -/
def finishTest (nf : Bool) (s : State) : State :=
  complete .ok (setNf nf { s with mem := clearScratch s.mem })

/-- BNFP (R105). -/
def execBnfp (b : BitVec 8) (s : State) : Answer := .next (finishTest (noFactor .plain b.toNat s.mem) s)

/-- BNFT (R106). -/
def execBnft (b : BitVec 8) (s : State) : Answer := .next (finishTest (noFactor .twin b.toNat s.mem) s)

/-- BNFS (R107). -/
def execBnfs (b : BitVec 8) (s : State) : Answer := .next (finishTest (noFactor .safe b.toNat s.mem) s)

end Sys2Proof.Machine
end

