-- ==== Sys2Proof/Machine/Drive.lean ====
section
/-! DEFINITION. The search drivers and DRIVE (spec/43_drivers.md R140 to R152). One DRIVE is one step (R199). -/

namespace Sys2Proof.Machine

/-- A driver at work: the state it moves, and the hidden state of the command, the output index `j` and the `last`
`LSB` written (10_state.md R31). -/
structure Search where
  st : State
  j : Nat
  last : Word64
deriving DecidableEq, Repr

/-- How a driver's loop ends. -/
inductive SearchEnd where
  /-- The survivors asked for are recorded. -/
  | full (x : Search)
  /-- A lane add overflowed (R174). -/
  | overflow
  /-- `Config.searchBound` passes brought no survivor; R152 says this does not happen (log 7). -/
  | unfinished
deriving DecidableEq, Repr

/-- *record* (R150): `OUT[j] <- LSB; last <- LSB; j <- j + 1`. -/
def record (x : Search) : Search where
  st := { x.st with mem := { x.st.mem with out := x.st.mem.out.set x.j x.st.lsb } }
  j := x.j + 1
  last := x.st.lsb

/-- Record the candidate when the test says so. -/
def recordIf (survives : Bool) (x : Search) : Search := if survives then record x else x

/-- `Advance(k)` of a driver. -/
def advanceSearch (k : Nat) (x : Search) : Option Search :=
  match advance k x.st with
  | none => none
  | some t => some { x with st := t }

/-- The plain driver's entry step (R142). `MOD6` never holds 6 or 7 (R23); 0 stands there (log 15). -/
def plainEntryStep (mod6 : BitVec 3) : Nat :=
  match mod6.toNat with
  | 0 => 1
  | 1 => 0
  | 2 => 3
  | 3 => 2
  | 4 => 1
  | 5 => 0
  | _ => 0

/-- The entry step of the twin and safe drivers, `(11 - MOD6) mod 6` (R144). -/
def pairEntryStep (mod6 : BitVec 3) : Nat := (11 - mod6.toNat) % 6

/-- The entry step of a kind (R142, R144). -/
def entryStep (k : Kind) (mod6 : BitVec 3) : Nat :=
  match k with
  | .plain => plainEntryStep mod6
  | .twin => pairEntryStep mod6
  | .safe => pairEntryStep mod6

/-- One pass of the plain driver's loop (R143): test, record, then 4 from `AT_6K1` or 2 from `AT_6K5`. -/
def plainPass (x : Search) : Option Search :=
  advanceSearch (if x.st.mod6 = 1 then 4 else 2)
    (recordIf (testTier .plain (tierBlocks x.st.mode) x.st.mem) x)

/-- The inner fast skip (R145): block 0 goes on by 6 until it passes or `skip` reaches 2^14. Answers the memory and
`skip`; `none` on a lane overflow. `n` is the number of 6-steps left: 2731 of them bring `skip` to 16386, where the
loop ends by its own condition. -/
def fastSkip (k : Kind) : Nat → Memory → Nat → Option (Memory × Nat)
  | 0, m, skip => some (m, skip)
  | n + 1, m, skip =>
    if noFactor k 0 m || decide (2 ^ 14 ≤ skip) then some (m, skip)
    else
      match advBlocksScalar 0 1 6 m with
      | none => none
      | some m' => fastSkip k n m' (skip + 6)

/-- What follows the fast skip in a pass (R145): the counters and the remaining blocks move by `skip`. -/
def afterSkip (skip : Nat) (m : Memory) (s : State) : Option State :=
  match advBlocksScalar 1 (tierBlocks s.mode - 1) skip m with
  | none => none
  | some m' => some (advanceCounters skip { s with mem := m' })

/-- One pass of the twin or safe driver's outer loop (R145, R146). -/
def pairPass (k : Kind) (x : Search) : Option Search :=
  match fastSkip k 2731 x.st.mem 0 with
  | none => none
  | some (m, skip) =>
    match afterSkip skip m x.st with
    | none => none
    | some t =>
      if 2 ^ 14 ≤ skip then some { x with st := t }
      else
        advanceSearch 6 (recordIf (noFactorBlocks k 1 (tierBlocks t.mode - 1) t.mem) { x with st := t })

/-- One pass of the loop of a kind's driver (R140). -/
def driverPass (k : Kind) (x : Search) : Option Search :=
  match k with
  | .plain => plainPass x
  | .twin => pairPass .twin x
  | .safe => pairPass .safe x

/-- Passes of the loop until one has recorded a survivor. -/
def findNext (pass : Search → Option Search) : Nat → Search → SearchEnd
  | 0, _ => .unfinished
  | n + 1, x =>
    match pass x with
    | none => .overflow
    | some y => if x.j < y.j then .full y else findNext pass n y

/-- `while j < count`: the loop until `n` more survivors are recorded. -/
def findMany (pass : Search → Option Search) : Nat → Search → SearchEnd
  | 0, x => .full x
  | n + 1, x =>
    match findNext pass Config.searchBound x with
    | .full y => findMany pass n y
    | .overflow => .overflow
    | .unfinished => .unfinished

/-- The driver of a kind: the entry step, then the loop (R143, R145, R146). -/
def runDriver (k : Kind) (count : Nat) (s : State) : SearchEnd :=
  match advance (entryStep k s.mod6) s with
  | none => .overflow
  | some t => findMany (driverPass k) count { st := t, j := 0, last := 0 }

/-- A DRIVE that ends before its driver starts: `RESULT <- 0; OUTCNT <- 0` and the code (R141). -/
def driveStops (c : Code) (s : State) : State := raise c { s with result := 0, outcnt := 0 }

/-- The normal end of DRIVE (R141): the scratch wiped, `RESULT`, `OUTCNT`, code `BufferFull`. -/
def driveDone (x : Search) : State :=
  raise .bufferFull
    { x.st with mem := clearScratch x.st.mem, result := x.last, outcnt := BitVec.ofNat 32 x.j }

/-- DRIVE `#count` (R140, R141). -/
def execDrive (count : BitVec 32) (s : State) : Answer :=
  if modeValid s.mode = false then .next (driveStops .unsupportedMode s)
  else if s.mem.out.length < count.toNat then .next (driveStops .invalidInput s)
  else if count = 0 then .next (driveStops .bufferFull s)
  else
    match runDriver (modeKind s.mode) count.toNat s with
    | .full x => .next (driveDone x)
    | .overflow => .next (abortDrive count.toNat s)
    | .unfinished => .fault .driveUnfinished

end Sys2Proof.Machine
end

