-- ==== Sys2Proof/Machine/Group.lean ====
section
/-! DEFINITION. The eight group primitives (spec/40_group_primitives.md R80 to R88). -/

namespace Sys2Proof.Machine

/-- A group primitive with two sources: lane by lane from the values before the command, code `Ok` (R80). -/
def group2 (f : Lane → Lane → Lane) (d a b : Bank) (g : BitVec 8) (s : State) : State :=
  complete .ok { s with mem := writeGroup d g (List.zipWith f (readGroup a g s.mem) (readGroup b g s.mem)) s.mem }

/-- GMUL (R81). -/
def execGmul (d a b : Bank) (g : BitVec 8) (s : State) : Answer := .next (group2 laneMul d a b g s)

/-- GSHL1ADD (R82): `a` is doubled, `b` is added. -/
def execGshl1add (d a b : Bank) (g : BitVec 8) (s : State) : Answer := .next (group2 laneShl1Add d a b g s)

/-- GMIN (R83). -/
def execGmin (d a b : Bank) (g : BitVec 8) (s : State) : Answer := .next (group2 laneMin d a b g s)

/-- GOR (R84). -/
def execGor (d a b : Bank) (g : BitVec 8) (s : State) : Answer := .next (group2 laneOr d a b g s)

/-- GADDS (R85): the same `k` to every lane. -/
def execGadds (d : Bank) (g : BitVec 8) (k : Lane) (s : State) : Answer :=
  .next (complete .ok
    { s with mem := writeGroup d g ((readGroup d g s.mem).map fun v => laneAdd v k) s.mem })

/-- GADDV (R86). -/
def execGaddv (d a : Bank) (g : BitVec 8) (s : State) : Answer := .next (group2 laneAdd d d a g s)

/-- GLEMASK (R87). -/
def execGlemask (d a : Bank) (g : BitVec 8) (s : State) : Answer := .next (group2 laneLeMask d d a g s)

/-- GFOLD (R88). -/
def execGfold (d a : Bank) (g : BitVec 8) (s : State) : Answer := .next (group2 laneFold d d a g s)

end Sys2Proof.Machine
end

