-- ==== Sys2Proof/Machine/Tier.lean ====
section
/-! DEFINITION. The state-level commands ADV, TSTP, TSTT, TSTS, INIT and WIPE (spec/42_state_ops.md R120 to R128). -/

namespace Sys2Proof.Machine

/-- ADV (R122). -/
def execAdv (k : Lane) (s : State) : Answer :=
  .next
    (if modeValid s.mode then
      match advance k.toNat s with
      | none => abortAdvance s
      | some t => complete .ok t
    else raise .unsupportedMode s)

/-- A tier-level test command (R124): refused without a valid mode, else `NF` from `TestTier`. -/
def tierTest (k : Kind) (s : State) : State :=
  if modeValid s.mode then finishTest (testTier k (tierBlocks s.mode) s.mem) s
  else raise .unsupportedMode s

/-- TSTP (R124). -/
def execTstp (s : State) : Answer := .next (tierTest .plain s)

/-- TSTT (R125). -/
def execTstt (s : State) : Answer := .next (tierTest .twin s)

/-- TSTS (R126). -/
def execTsts (s : State) : Answer := .next (tierTest .safe s)

/-- `R[i] >= PRIMES[i]` for some `i` below `n` (R127). -/
def someLaneUnreduced (n : Nat) (m : Memory) : Bool :=
  (List.zipWith (fun r p : Lane => decide (p.toNat ≤ r.toNat)) (slice 0 n m.r) (slice 0 n primesTable)).any id

/-- The values of INIT's `mod6` that an odd number can have modulo 6 (R127). -/
def mod6Odd (mod6 : BitVec 3) : Bool := mod6 == 1 || mod6 == 3 || mod6 == 5

/-- INIT `#mode, #mod6` (R127): UnsupportedMode, then InvalidInput, each with `MODE <- 0`; else the state is built. -/
def execInit (mode : BitVec 16) (mod6 : BitVec 3) (s : State) : Answer :=
  .next
    (if modeValid mode = false then raise .unsupportedMode { s with mode := 0 }
    else if s.lsb.getLsbD 0 = false || mod6Odd mod6 = false || someLaneUnreduced (tierLanes mode) s.mem then
      raise .invalidInput { s with mode := 0 }
    else complete .ok { s with mode := mode, mod6 := mod6, offset := 0 })

/-- Every writable space zero, with `cap` words of output buffer (R128). -/
def wipedMemory (cap : Nat) : Memory where
  r := List.replicate 3456 0
  kv := List.replicate 3456 0
  tmp := List.replicate 64 0
  tmp2 := List.replicate 64 0
  out := List.replicate cap 0

/-- WIPE (R128). -/
def execWipe (s : State) : Answer :=
  .next (complete .ok (setNf false
    { s with
      mem := wipedMemory s.mem.out.length
      lsb := 0
      offset := 0
      mod6 := 0
      mod6Incr := 0
      mode := 0
      result := 0
      outcnt := 0 }))

end Sys2Proof.Machine
end

