-- ==== Sys2Proof/Machine/Dispatch.lean ====
section
/-! DEFINITION. Each command of RDE to its meaning. -/

namespace Sys2Proof.Machine

def exec (i : Instr) (s : State) : Host.Outcome State Fault Refusal :=
  match i with
  | .gmul d a b g => Sys2Proof.Machine.execGmul d a b g s
  | .gshl1add d a b g => Sys2Proof.Machine.execGshl1add d a b g s
  | .gmin d a b g => Sys2Proof.Machine.execGmin d a b g s
  | .gor d a b g => Sys2Proof.Machine.execGor d a b g s
  | .gadds d g k => Sys2Proof.Machine.execGadds d g k s
  | .gaddv d a g => Sys2Proof.Machine.execGaddv d a g s
  | .glemask d a g => Sys2Proof.Machine.execGlemask d a g s
  | .gfold d a g => Sys2Proof.Machine.execGfold d a g s
  | .bztest d b => Sys2Proof.Machine.execBztest d b s
  | .badvs b k => Sys2Proof.Machine.execBadvs b k s
  | .badvv b => Sys2Proof.Machine.execBadvv b s
  | .bnfp b => Sys2Proof.Machine.execBnfp b s
  | .bnft b => Sys2Proof.Machine.execBnft b s
  | .bnfs b => Sys2Proof.Machine.execBnfs b s
  | .adv k => Sys2Proof.Machine.execAdv k s
  | .tstp => Sys2Proof.Machine.execTstp s
  | .tstt => Sys2Proof.Machine.execTstt s
  | .tsts => Sys2Proof.Machine.execTsts s
  | .init mode mod6 => Sys2Proof.Machine.execInit mode mod6 s
  | .wipe => Sys2Proof.Machine.execWipe s
  | .drive count => Sys2Proof.Machine.execDrive count s

end Sys2Proof.Machine
end

