-- ==== Sys2Proof/Machine/Port.lean ====
section
/-! DEFINITION. The host port (spec/20_memory.md R40 to R44; 10_state.md R25): the address map, reads, writes, the
command register, and the reset event (70_reset_and_hazards.md R190, R191). -/

namespace Sys2Proof.Machine

/-- Space id of a host address (R41). -/
def spaceOf (addr : BitVec 20) : BitVec 4 := addr.extractLsb' 16 4

/-- Element index of a host address (R41). -/
def indexOf (addr : BitVec 20) : Nat := (addr.extractLsb' 0 16).toNat

/-- The host address of an element (R41). -/
def hostAddress (space : BitVec 4) (index : BitVec 16) : BitVec 20 := space ++ index

/-- The address of `CSR[0]`, `CMD` (R25, R60). -/
def cmdAddress : BitVec 20 := 0xF0000

/-- A read of the CSR space (R25): zero-extended; `CMD` and every index above 8 read as 0. -/
def readCsr (index : Nat) (s : State) : Word64 :=
  match index with
  | 0 => 0
  | 1 => s.status
  | 2 => s.result
  | 3 => s.outcnt.setWidth 64
  | 4 => s.mode.setWidth 64
  | 5 => s.mod6.setWidth 64
  | 6 => s.mod6Incr.setWidth 64
  | 7 => s.lsb
  | 8 => s.offset
  | _ => 0

/-- `MemRead` (R42): the element zero-extended, 0 at an unmapped address (R41). -/
def memRead (addr : BitVec 20) (s : State) : Word64 :=
  match bankOfCode (spaceOf addr) with
  | some b => (laneAt b (indexOf addr) s.mem).setWidth 64
  | none =>
    if spaceOf addr = 8 then s.mem.out.getD (indexOf addr) 0
    else if spaceOf addr = 15 then readCsr (indexOf addr) s
    else 0

/-- A write to the CSR space other than to `CMD` (R25): `MOD6_INCR`, `LSB`, `OFFSET`; any other is dropped. -/
def writeCsr (index : Nat) (v : Word64) (s : State) : State :=
  match index with
  | 6 => { s with mod6Incr := v.setWidth 3 }
  | 7 => { s with lsb := v }
  | 8 => { s with offset := v }
  | _ => s

/-- `MemWrite` to any element but `CMD` (R42): the low bits of the element's width; dropped at an unmapped address
and in a table. -/
def memWrite (addr : BitVec 20) (v : Word64) (s : State) : State :=
  match bankOfCode (spaceOf addr) with
  | some b => { s with mem := setBank b ((bankLanes b s.mem).set (indexOf addr) (v.setWidth 16)) s.mem }
  | none =>
    if spaceOf addr = 8 then { s with mem := { s.mem with out := s.mem.out.set (indexOf addr) v } }
    else if spaceOf addr = 15 then writeCsr (indexOf addr) v s
    else s

/-- A command word written to `CMD` while `HALT = 0` (R60, R175, R176): an illegal word ends with code 5 and no
other change; a legal one is executed to completion. -/
def issue (w : Word64) (s : State) : Answer :=
  match decode w with
  | .ok i => exec i s
  | .error _ => .next (raise .illegalCommand s)

/-- The reset event (R190, R191): a new draw of the unspecified contents, since they "need not be the same after
two resets"; the host's own list and last read value are kept. -/
def resetEvent (s : State) : State := State.afterReset s.draws s.mem.out.length s.host s.hostRead

/-- One action of the host. While `HALT = 1` every write is dropped, commands among them, reads work as usual, and
reset is taken (R42, R174, R190). -/
def hostAction (a : HostAccess) (s : State) : Answer :=
  match a with
  | .read addr => .next { s with hostRead := memRead addr s }
  | .write addr v =>
    if statusHalt s.status then .next s
    else if addr = cmdAddress then issue v s
    else .next (memWrite addr v s)
  | .reset => .next (resetEvent s)

/-- The engine between commands with no host action pending is idle, all state held (R185, R190). -/
def takeHostAction (s : State) : Answer :=
  match s.host with
  | [] => .next s
  | a :: rest => hostAction a { s with host := rest }

/-- The command word of a table row's bits. -/
def tableWord (nbits w : Nat) : Word64 := BitVec.ofNat 64 (w % 2 ^ nbits)

/-- `s` with a write of the word to `CMD` as the host's next action. -/
def withCommand (s : State) (w : Word64) : State := { s with host := .write cmdAddress w :: s.host }

end Sys2Proof.Machine
end

