-- ==== Sys2Proof/Machine/Step.lean ====
section
/-! DEFINITION. One step: the host's next action, a command with its whole execution included
(spec/70_reset_and_hazards.md R196, R199). -/

namespace Sys2Proof.Machine

/-- The step of the machine (log 5). -/
def step (s : State) : Host.Outcome State Fault Refusal := takeHostAction s

/-- `s` with the command word of a table row as the host's next write to `CMD`: RDE fetches no instruction, the host
writes each one (R49, R60; log 5). Every other field is kept; in a halted `s` the command is ignored (R174). -/
def State.withFetchWord (s : State) (nbits w : Nat) : State := withCommand s (tableWord nbits w)

end Sys2Proof.Machine
end

