-- ==== Sys2Proof/Safety.lean ====
section
/-! DEFINITION. What the claims speak of: the prime of a lane, the lane properties `RES` and `RNG` (spec/10_state.md
R17), the agreement of a state with a candidate (R33), survivors (43_drivers.md R151), the invariant of every run,
and runs that stop at nothing (60_exceptions.md R170). -/

namespace Sys2Proof.Machine

/-- `p_i = PRIMES[i]` as a number (R11). -/
def primeAt (i : Nat) : Nat := (primesTable.getD i 0).toNat

/-- `INV[i]`, `LIMIT[i]`, `M2R[i]` as numbers (R12 to R14). -/
def invAt (i : Nat) : Nat := (invTable.getD i 0).toNat
def limitAt (i : Nat) : Nat := (limitTable.getD i 0).toNat
def m2rAt (i : Nat) : Nat := (m2rTable.getD i 0).toNat

/-- `R[i]` as a number. -/
def residueAt (i : Nat) (m : Memory) : Nat := (laneAt .r i m).toNat

/-- A lane `v` with prime index `i` after an advance by `k` without overflow (R103). -/
def advancedLane (i v k : Nat) : Nat :=
  if 0x8000 ≤ v + k then (v + k + m2rAt i) % 2 ^ 16 else v + k

/-- `u`, the product every tester compares first (R105). -/
def firstProduct (i v : Nat) : Nat := (v * invAt i) % 2 ^ 16

/-- `t`, the second value of the twin and safe testers (R106, R107); the plain tester has none. -/
def secondValue (k : Kind) (i v : Nat) : Nat :=
  match k with
  | .plain => firstProduct i v
  | .twin => (2 * invAt i + firstProduct i v) % 2 ^ 16
  | .safe => (2 * firstProduct i v + invAt i) % 2 ^ 16

/-- The mask lane of index `i` is zero: the lane passes (R105 to R107). -/
def passes (k : Kind) (i v : Nat) : Prop :=
  limitAt i < min (firstProduct i v) (secondValue k i v)

/-- The lane values for which a kind's tester speaks of the numbers it stands for (R108). -/
def exactValue (k : Kind) (v : Nat) : Prop :=
  match k with
  | .plain => v < 2 ^ 16
  | .twin => v ≤ 65533
  | .safe => v ≤ 32767

/-- `RES(Q)` over the lanes below `n`: `R[i] mod p_i = Q mod p_i` (R17). -/
def Residues (q n : Nat) (m : Memory) : Prop := ∀ i < n, residueAt i m % primeAt i = q % primeAt i

/-- `RNG` over the lanes below `n`: `R[i] < 2^15` (R17). -/
def InRange (n : Nat) (m : Memory) : Prop := ∀ i < n, residueAt i m < 2 ^ 15

/-- State agreement (R33): the lanes of the tier, `LSB` and `MOD6` belong to the candidate `q`. -/
structure Agrees (q : Nat) (s : State) : Prop where
  residues : Residues q (tierLanes s.mode) s.mem
  lsb : s.lsb = BitVec.ofNat 64 q
  mod6 : s.mod6.toNat = q % 6

/-- No number that the kind tests for the candidate `q` is divisible by `p` (R2 item 4, R151). -/
def factorFree (k : Kind) (p q : Nat) : Bool :=
  match k with
  | .plain => q % p != 0
  | .twin => q % p != 0 && (q + 2) % p != 0
  | .safe => q % p != 0 && (2 * q + 1) % p != 0

/-- The residues modulo 6 a kind's driver visits (R142, R144). -/
def visited (k : Kind) (q : Nat) : Bool :=
  match k with
  | .plain => q % 6 == 1 || q % 6 == 5
  | .twin => q % 6 == 5
  | .safe => q % 6 == 5

/-- A survivor of a kind over the first `n` primes (R151). -/
def survivor (k : Kind) (n q : Nat) : Bool :=
  visited k q && (List.range n).all fun i => factorFree k (primeAt i) q

/-- The survivors among `q, q+1, ..., q+n-1` in ascending order, as the 64-bit words a driver records (R150). -/
def survivorWords (k : Kind) (lanes q n : Nat) : List Word64 :=
  ((List.range' q n).filter fun c => survivor k lanes c).map (BitVec.ofNat 64)

/-- What holds at reset and after every step. -/
structure RunInv (s : State) : Prop where
  /-- The spaces have their sizes (R40). -/
  mem : s.mem.wf
  /-- `MOD6` never holds 6 or 7 (R23). DEDUCED for the state after an aborted ADV or DRIVE, whose `MOD6` R174 leaves
  unspecified: that R23 still binds it there is the model's reading (log 3, unsafe). -/
  mod6 : s.mod6.toNat < 6
  /-- `MODE` is 0 or a valid mode word (R22). -/
  mode : s.mode = 0 ∨ modeValid s.mode = true
  /-- The reserved bits of `STATUS` are 0 (R26). -/
  reservedLow : statusReservedLow s.status = 0
  reservedHigh : statusReservedHigh s.status = 0
  /-- Codes 6 to 15 are never written (R170). -/
  cc : (statusCc s.status).toNat ≤ 5
  /-- `HALT` stands exactly with code 4 (R174). -/
  halt : statusHalt s.status = true ↔ statusCc s.status = codeBits .internalInvariant
  /-- `OUTCNT` counts entries of the buffer, but after an abort (R28, R141, R174). -/
  outcnt : statusHalt s.status = false → s.outcnt.toNat ≤ s.mem.out.length

/-- The step from `s` stops at no fault and no refusal. -/
def GoesOn (s : State) : Prop := ∃ t, step s = .next t

end Sys2Proof.Machine
end

