-- ==== Sys2Proof/Certificates/Slice0/Obligations.lean ====
section
/-! DEFINITION. The statements for the provers: what spec/ says the commands and the host port of RDE do. -/

namespace Sys2Proof.Claims

open Sys2Proof.Machine

/-! ### What a command leaves unchanged -/

/-- Every control register but `STATUS` is unchanged. -/
def CsrsKept (s t : State) : Prop :=
  t.result = s.result ∧ t.outcnt = s.outcnt ∧ t.mode = s.mode ∧ t.mod6 = s.mod6 ∧ t.mod6Incr = s.mod6Incr ∧
    t.lsb = s.lsb ∧ t.offset = s.offset

/-- The model's own fields are unchanged: the host's pending actions, its last read, the draw counter. -/
def ModelKept (s t : State) : Prop := t.host = s.host ∧ t.hostRead = s.hostRead ∧ t.draws = s.draws

/-- Every lane of every bank but those of `written` reads as before. -/
def LanesKept (written : Bank → Nat → Prop) (s t : State) : Prop :=
  ∀ b i, ¬ written b i → laneAt b i t.mem = laneAt b i s.mem

/-- The lanes `base .. base + n - 1` of a bank. -/
def lanesOf (bank : Bank) (base n : Nat) : Bank → Nat → Prop := fun b i => b = bank ∧ base ≤ i ∧ i < base + n

/-- The 128 lanes of the scratch. -/
def scratchLanes : Bank → Nat → Prop := fun b _ => b = .tmp ∨ b = .tmp2

/-- Both scratch vectors are zero. -/
def ScratchZero (t : State) : Prop := ∀ i, laneAt .tmp i t.mem = 0 ∧ laneAt .tmp2 i t.mem = 0

/-- `STATUS` after a command: `NF`, `HALT` and `CC` as given, the reserved bits as before. -/
def StatusIs (s t : State) (nf halt : Bool) (c : Code) : Prop :=
  statusNf t.status = nf ∧ statusHalt t.status = halt ∧ statusCc t.status = codeBits c ∧
    statusReservedLow t.status = statusReservedLow s.status ∧
    statusReservedHigh t.status = statusReservedHigh s.status

/-- `t` is `s` but for `STATUS.CC`, now the code `c`. -/
def OnlyCc (s t : State) (c : Code) : Prop :=
  StatusIs s t (statusNf s.status) (statusHalt s.status) c ∧ t.mem = s.mem ∧ CsrsKept s t ∧ ModelKept s t

/-! ### Group primitives -/

/-- The effect of a group primitive (R80): the lanes of the destination group become `f 0 .. f 15`, code `Ok`,
nothing else changes. -/
def GroupEffect (s t : State) (d : Bank) (g : BitVec 8) (f : Nat → Nat) : Prop :=
  (∀ l < 16, (laneAt d (groupBase d g + l) t.mem).toNat = f l) ∧
    LanesKept (lanesOf d (groupBase d g) 16) s t ∧ t.mem.out = s.mem.out ∧ t.mem.wf ∧
    CsrsKept s t ∧ ModelKept s t ∧ StatusIs s t (statusNf s.status) (statusHalt s.status) .ok

/-- Lane `l` of a group operand, as a number. -/
def operand (b : Bank) (g : BitVec 8) (l : Nat) (s : State) : Nat := (laneAt b (groupBase b g + l) s.mem).toNat

/-! ### Advance -/

/-- No lane of `R[lo .. hi-1]` carries when its increment `k i` is added (R103, R174). -/
def NoCarry (lo hi : Nat) (k : Nat → Nat) (s : State) : Prop :=
  ∀ i, lo ≤ i → i < hi → residueAt i s.mem + k i < 2 ^ 16

/-- Some lane of `R[lo .. hi-1]` carries. -/
def SomeCarry (lo hi : Nat) (k : Nat → Nat) (s : State) : Prop :=
  ∃ i, lo ≤ i ∧ i < hi ∧ 2 ^ 16 ≤ residueAt i s.mem + k i

/-- The lanes `R[lo .. hi-1]` of `t` are those of `s` advanced by `k i`. -/
def LanesAdvanced (lo hi : Nat) (k : Nat → Nat) (s t : State) : Prop :=
  ∀ i, lo ≤ i → i < hi → residueAt i t.mem = advancedLane i (residueAt i s.mem) (k i)

/-- A block advance that completes (R103, R104). -/
def BlockAdvanceEffect (b : Nat) (k : Nat → Nat) (s t : State) : Prop :=
  LanesAdvanced (64 * b) (64 * b + 64) k s t ∧ LanesKept (lanesOf .r (64 * b) 64) s t ∧
    t.mem.out = s.mem.out ∧ t.mem.wf ∧ CsrsKept s t ∧ ModelKept s t ∧
    StatusIs s t (statusNf s.status) (statusHalt s.status) .ok

/-- A block advance that aborts (R174): nothing is said of the lanes of the block. -/
def BlockAbortEffect (b : Nat) (s t : State) : Prop :=
  LanesKept (lanesOf .r (64 * b) 64) s t ∧ t.mem.out = s.mem.out ∧ t.mem.wf ∧ CsrsKept s t ∧
    t.host = s.host ∧ t.hostRead = s.hostRead ∧ StatusIs s t (statusNf s.status) true .internalInvariant

/-! ### Testers -/

/-- No number that the kind forms from the lane value `v`, reduced modulo 2^16, is divisible by `p` (R108). -/
def noDivisor (k : Kind) (p v : Nat) : Prop :=
  match k with
  | .plain => ¬ p ∣ v
  | .twin => ¬ p ∣ v ∧ ¬ p ∣ (v + 2) % 2 ^ 16
  | .safe => ¬ p ∣ v ∧ ¬ p ∣ (2 * v + 1) % 2 ^ 16

/-- A tester command that ran over the lanes `R[lo .. hi-1]` (R105 to R107, R109, R124 to R126): `NF` says that
every lane passes the comparison, that is, that no prime divides what the kind forms from its lane; the scratch is
wiped and nothing else changes. -/
def TestEffect (k : Kind) (lo hi : Nat) (s t : State) : Prop :=
  (∃ nf, StatusIs s t nf (statusHalt s.status) .ok ∧
      (nf = true ↔ ∀ i, lo ≤ i → i < hi → passes k i (residueAt i s.mem)) ∧
      (nf = true ↔ ∀ i, lo ≤ i → i < hi → noDivisor k (primeAt i) (residueAt i s.mem))) ∧
    ScratchZero t ∧ LanesKept scratchLanes s t ∧ t.mem.out = s.mem.out ∧ t.mem.wf ∧ CsrsKept s t ∧ ModelKept s t

/-- What `NF` says of the candidate: for lanes of a candidate `q` in the exact range of the kind, that no prime of the
lanes divides a number the kind tests for `q` (R105, R124 to R126). -/
def TestMeaning (k : Kind) (lo hi : Nat) (s t : State) : Prop :=
  ∀ q, (∀ i, lo ≤ i → i < hi → residueAt i s.mem % primeAt i = q % primeAt i) →
    (∀ i, lo ≤ i → i < hi → exactValue k (residueAt i s.mem)) →
    (statusNf t.status = true ↔ ∀ i, lo ≤ i → i < hi → factorFree k (primeAt i) q = true)

/-! ### The driver -/

/-- What a DRIVE that ran to its end leaves besides lanes, counters and results (R141): the lanes at and above the
tier's `N`, `KV`, the entries of `OUT` at and above `count`, `MODE`, `MOD6_INCR`, `NF` and `HALT` are as before, the
scratch is zero, and the code is `BufferFull`. -/
def DriveFrame (count : Nat) (s t : State) : Prop :=
  LanesKept (fun b i => (b = .r ∧ i < tierLanes s.mode) ∨ scratchLanes b i) s t ∧ ScratchZero t ∧
    t.mem.out.length = s.mem.out.length ∧ (∀ j, count ≤ j → t.mem.out.getD j 0 = s.mem.out.getD j 0) ∧ t.mem.wf ∧
    t.mode = s.mode ∧ t.mod6Incr = s.mod6Incr ∧ ModelKept s t ∧
    StatusIs s t (statusNf s.status) (statusHalt s.status) .bufferFull

/-- The results of a DRIVE that ran to its end: `RESULT` is the last entry, `OUTCNT` the count (R141). -/
def DriveResults (count : Nat) (t : State) : Prop :=
  t.result = t.mem.out.getD (count - 1) 0 ∧ t.outcnt.toNat = count

/-- DRIVE `#count` may start from `s` (R141). -/
def DriveMayStart (count : BitVec 32) (s : State) : Prop :=
  s.mem.wf ∧ s.mod6.toNat < 6 ∧ modeValid s.mode = true ∧ 1 ≤ count.toNat ∧ count.toNat ≤ s.mem.out.length

/-- Executes commands in order while each answers a next state (R47). -/
def runCommands : List Instr → State → Answer
  | [], s => .next s
  | i :: is, s =>
    match exec i s with
    | .next t => runCommands is t
    | .fault r => .fault r
    | .refused r => .refused r

/-! ### The opcode table (30_encoding.md R65, R66), as numbers -/

/-- The constraints a mask cannot express, by format. -/
inductive RowCheck where
  | g3
  | g2
  | gi
  | b1
  | block
  | none
deriving DecidableEq, Repr

/-- One row: `match`, `mask`, and the constraints of its format. -/
structure Row where
  pattern : Word64
  mask : Word64
  check : RowCheck
deriving DecidableEq, Repr

/-- The 21 rows. -/
def rows : List Row :=
  [⟨0x0100000000000000, 0xFF000F00FFFFFFFF, .g3⟩, ⟨0x0200000000000000, 0xFF000F00FFFFFFFF, .g3⟩,
    ⟨0x0300000000000000, 0xFF000F00FFFFFFFF, .g3⟩, ⟨0x0400000000000000, 0xFF000F00FFFFFFFF, .g3⟩,
    ⟨0x0500000000000000, 0xFF0FFF00FFFF0000, .gi⟩, ⟨0x0600000000000000, 0xFF00FF00FFFFFFFF, .g2⟩,
    ⟨0x0700000000000000, 0xFF00FF00FFFFFFFF, .g2⟩, ⟨0x0800000000000000, 0xFF00FF00FFFFFFFF, .g2⟩,
    ⟨0x1000000000000000, 0xFF0FFF00FFFFFFFF, .b1⟩, ⟨0x1100000000000000, 0xFFFFFF00FFFF0000, .block⟩,
    ⟨0x1200000000000000, 0xFFFFFF00FFFFFFFF, .block⟩] ++
  [⟨0x1300000000000000, 0xFFFFFF00FFFFFFFF, .block⟩, ⟨0x1400000000000000, 0xFFFFFF00FFFFFFFF, .block⟩,
    ⟨0x1500000000000000, 0xFFFFFF00FFFFFFFF, .block⟩, ⟨0x2000000000000000, 0xFFFFFFFFFFFF0000, .none⟩,
    ⟨0x2100000000000000, 0xFFFFFFFFFFFFFFFF, .none⟩, ⟨0x2200000000000000, 0xFFFFFFFFFFFFFFFF, .none⟩,
    ⟨0x2300000000000000, 0xFFFFFFFFFFFFFFFF, .none⟩, ⟨0x3000000000000000, 0xFFFFFFFFFFF80000, .none⟩,
    ⟨0x3100000000000000, 0xFFFFFFFFFFFFFFFF, .none⟩, ⟨0x4000000000000000, 0xFFFFFFFF00000000, .none⟩]

/-- Bits `hi .. lo` of a word, as a number (R5). -/
def bits (w : Word64) (hi lo : Nat) : Nat := w.toNat / 2 ^ lo % 2 ^ (hi - lo + 1)

/-- A bank code that may be a destination (R62). -/
def destinationCode (d : Nat) : Bool := d == 0 || d == 5 || d == 6 || d == 7

/-- The constraints of a row's format on the fields of a word (R65, checks 3 to 6). -/
def checkHolds (c : RowCheck) (w : Word64) : Bool :=
  match c with
  | .g3 =>
    bits w 51 48 ≤ 7 && bits w 47 44 ≤ 7 && destinationCode (bits w 55 52) &&
      (bits w 39 32 ≤ 215 || (6 ≤ bits w 55 52 && 6 ≤ bits w 51 48 && 6 ≤ bits w 47 44))
  | .g2 =>
    bits w 51 48 ≤ 7 && destinationCode (bits w 55 52) &&
      (bits w 39 32 ≤ 215 || (6 ≤ bits w 55 52 && 6 ≤ bits w 51 48))
  | .gi => destinationCode (bits w 55 52) && (bits w 39 32 ≤ 215 || 6 ≤ bits w 55 52)
  | .b1 => bits w 55 52 ≤ 7 && (bits w 39 32 ≤ 53 || 6 ≤ bits w 55 52)
  | .block => bits w 39 32 ≤ 53
  | .none => true

/-- A word is legal exactly when it matches one row and meets that row's constraints (R66). -/
def legalByTable (w : Word64) : Bool := rows.any fun r => (w &&& r.mask) == r.pattern && checkHolds r.check w

end Sys2Proof.Claims

open Sys2Proof Sys2Proof.Machine Sys2Proof.Claims

/-! ### Group primitives (40_group_primitives.md) -/

/-- R81: GMUL. -/
def Obligations.GmulMultipliesLanes : Prop :=
  ∀ d a b g (s : State), (Instr.gmul d a b g).wellFormed = true → s.mem.wf →
    encode (.gmul d a b g) = packWord 0x01 (codeOfBank d) (codeOfBank a) (codeOfBank b) 0 g 0 ∧
    ∃ t, exec (.gmul d a b g) s = .next t ∧
      GroupEffect s t d g fun l => (operand a g l s * operand b g l s) % 2 ^ 16

/-- R82: GSHL1ADD. -/
def Obligations.Gshl1addDoublesFirstAddsSecond : Prop :=
  ∀ d a b g (s : State), (Instr.gshl1add d a b g).wellFormed = true → s.mem.wf →
    encode (.gshl1add d a b g) = packWord 0x02 (codeOfBank d) (codeOfBank a) (codeOfBank b) 0 g 0 ∧
    ∃ t, exec (.gshl1add d a b g) s = .next t ∧
      GroupEffect s t d g fun l => (2 * operand a g l s + operand b g l s) % 2 ^ 16

/-- R83: GMIN. -/
def Obligations.GminTakesUnsignedMinimum : Prop :=
  ∀ d a b g (s : State), (Instr.gmin d a b g).wellFormed = true → s.mem.wf →
    encode (.gmin d a b g) = packWord 0x03 (codeOfBank d) (codeOfBank a) (codeOfBank b) 0 g 0 ∧
    ∃ t, exec (.gmin d a b g) s = .next t ∧
      GroupEffect s t d g fun l => min (operand a g l s) (operand b g l s)

/-- R84: GOR. -/
def Obligations.GorOrsLanes : Prop :=
  ∀ d a b g (s : State), (Instr.gor d a b g).wellFormed = true → s.mem.wf →
    encode (.gor d a b g) = packWord 0x04 (codeOfBank d) (codeOfBank a) (codeOfBank b) 0 g 0 ∧
    ∃ t, exec (.gor d a b g) s = .next t ∧
      GroupEffect s t d g fun l => operand a g l s ||| operand b g l s

/-- R85: GADDS. -/
def Obligations.GaddsAddsScalar : Prop :=
  ∀ d g k (s : State), (Instr.gadds d g k).wellFormed = true → s.mem.wf →
    encode (.gadds d g k) = packWord 0x05 (codeOfBank d) 0 0 0 g (0#16 ++ k) ∧
    ∃ t, exec (.gadds d g k) s = .next t ∧
      GroupEffect s t d g fun l => (operand d g l s + k.toNat) % 2 ^ 16

/-- R86: GADDV. -/
def Obligations.GaddvAddsVector : Prop :=
  ∀ d a g (s : State), (Instr.gaddv d a g).wellFormed = true → s.mem.wf →
    encode (.gaddv d a g) = packWord 0x06 (codeOfBank d) (codeOfBank a) 0 0 g 0 ∧
    ∃ t, exec (.gaddv d a g) s = .next t ∧
      GroupEffect s t d g fun l => (operand d g l s + operand a g l s) % 2 ^ 16

/-- R87: GLEMASK. -/
def Obligations.GlemaskMasksByThreshold : Prop :=
  ∀ d a g (s : State), (Instr.glemask d a g).wellFormed = true → s.mem.wf →
    encode (.glemask d a g) = packWord 0x07 (codeOfBank d) (codeOfBank a) 0 0 g 0 ∧
    ∃ t, exec (.glemask d a g) s = .next t ∧
      GroupEffect s t d g fun l => if operand d g l s ≤ operand a g l s then 0xFFFF else 0

/-- R88: GFOLD. -/
def Obligations.GfoldAddsToHighLanes : Prop :=
  ∀ d a g (s : State), (Instr.gfold d a g).wellFormed = true → s.mem.wf →
    encode (.gfold d a g) = packWord 0x08 (codeOfBank d) (codeOfBank a) 0 0 g 0 ∧
    ∃ t, exec (.gfold d a g) s = .next t ∧
      GroupEffect s t d g fun l =>
        if 0x8000 ≤ operand d g l s then (operand d g l s + operand a g l s) % 2 ^ 16 else operand d g l s

/-! ### Block commands (41_block_primitives.md) -/

/-- R102: BZTEST. -/
def Obligations.BztestSetsNfWhenBlockZero : Prop :=
  ∀ d b (s : State), (Instr.bztest d b).wellFormed = true →
    encode (.bztest d b) = packWord 0x10 (codeOfBank d) 0 0 0 b 0 ∧
    ∃ t nf, exec (.bztest d b) s = .next t ∧
      (nf = true ↔ ∀ j < 64, laneAt d (blockBase d b + j) s.mem = 0) ∧
      StatusIs s t nf (statusHalt s.status) .ok ∧ t.mem = s.mem ∧ CsrsKept s t ∧ ModelKept s t

/-- R103, R174: BADVS; without a carry each lane of the block is advanced by `k`; a carry in some lane aborts and
halts. -/
def Obligations.BadvsAddsAndFoldsBlock : Prop :=
  ∀ (b : BitVec 8) (k : Lane) (s : State), (Instr.badvs b k).wellFormed = true → s.mem.wf →
    encode (.badvs b k) = packWord 0x11 0 0 0 0 b (0#16 ++ k) ∧
    (NoCarry (64 * b.toNat) (64 * b.toNat + 64) (fun _ => k.toNat) s →
      ∃ t, exec (.badvs b k) s = .next t ∧ BlockAdvanceEffect b.toNat (fun _ => k.toNat) s t) ∧
    (SomeCarry (64 * b.toNat) (64 * b.toNat + 64) (fun _ => k.toNat) s →
      ∃ t, exec (.badvs b k) s = .next t ∧ BlockAbortEffect b.toNat s t)

/-- R104, R174: BADVV; without a carry each lane of the block is advanced by its lane of `KV`; a carry in some lane
aborts and halts. The spec derives this command from R103 ("[derived: from rule R103 ...]", R104). -/
def Obligations.BadvvAddsVectorAndFoldsBlock : Prop :=
  ∀ (b : BitVec 8) (s : State), (Instr.badvv b).wellFormed = true → s.mem.wf →
    let kv := fun i => (laneAt .kv i s.mem).toNat
    encode (.badvv b) = packWord 0x12 0 0 0 0 b 0 ∧
    (NoCarry (64 * b.toNat) (64 * b.toNat + 64) kv s →
      ∃ t, exec (.badvv b) s = .next t ∧ BlockAdvanceEffect b.toNat kv s t) ∧
    (SomeCarry (64 * b.toNat) (64 * b.toNat + 64) kv s →
      ∃ t, exec (.badvv b) s = .next t ∧ BlockAbortEffect b.toNat s t)

/-- What the block advances preserve (R103 "What it preserves", R104 "What it preserves", which the spec derives):
without a carry BADVS moves the residue of each lane of the block by `k`, and BADVV by any stride `S` that `KV` holds
the residues of. -/
def Obligations.BlockAdvancesKeepResidues : Prop :=
  ∀ (b : BitVec 8) (k : Lane) (s : State), b.toNat ≤ 53 → s.mem.wf →
    let kv := fun i => (laneAt .kv i s.mem).toNat
    (NoCarry (64 * b.toNat) (64 * b.toNat + 64) (fun _ => k.toNat) s →
      ∃ t, exec (.badvs b k) s = .next t ∧
        ∀ i, 64 * b.toNat ≤ i → i < 64 * b.toNat + 64 →
          residueAt i t.mem % primeAt i = (residueAt i s.mem + k.toNat) % primeAt i) ∧
    (NoCarry (64 * b.toNat) (64 * b.toNat + 64) kv s →
      ∃ t, exec (.badvv b) s = .next t ∧
        ∀ i S, 64 * b.toNat ≤ i → i < 64 * b.toNat + 64 → kv i % primeAt i = S % primeAt i →
          residueAt i t.mem % primeAt i = (residueAt i s.mem + S) % primeAt i)

/-- R105, R109: BNFP; the mask lane is 0xFFFF exactly when the prime divides the lane. -/
def Obligations.BnfpTestsBlockPlain : Prop :=
  ∀ (b : BitVec 8) (s : State), (Instr.bnfp b).wellFormed = true → s.mem.wf →
    encode (.bnfp b) = packWord 0x13 0 0 0 0 b 0 ∧
    (∀ i v, i < 3456 → v < 2 ^ 16 → (¬ passes .plain i v ↔ primeAt i ∣ v)) ∧
    ∃ t, exec (.bnfp b) s = .next t ∧ TestEffect .plain (64 * b.toNat) (64 * b.toNat + 64) s t ∧
      TestMeaning .plain (64 * b.toNat) (64 * b.toNat + 64) s t

/-- R106, R109: BNFT. -/
def Obligations.BnftTestsBlockTwin : Prop :=
  ∀ (b : BitVec 8) (s : State), (Instr.bnft b).wellFormed = true → s.mem.wf →
    encode (.bnft b) = packWord 0x14 0 0 0 0 b 0 ∧
    ∃ t, exec (.bnft b) s = .next t ∧ TestEffect .twin (64 * b.toNat) (64 * b.toNat + 64) s t

/-- R107, R109: BNFS. -/
def Obligations.BnfsTestsBlockSafe : Prop :=
  ∀ (b : BitVec 8) (s : State), (Instr.bnfs b).wellFormed = true → s.mem.wf →
    encode (.bnfs b) = packWord 0x15 0 0 0 0 b 0 ∧
    ∃ t, exec (.bnfs b) s = .next t ∧ TestEffect .safe (64 * b.toNat) (64 * b.toNat + 64) s t

/-- R108: what the twin and safe testers decide about a lane value, for every 16-bit value, and about a candidate
`q` for a value in the exact range; and the rule's example of a value beyond it. -/
def Obligations.TesterLanesDecideDivisibility : Prop :=
  (∀ i < 3456, ∀ v < 2 ^ 16,
    (secondValue .twin i v ≤ limitAt i ↔ primeAt i ∣ (v + 2) % 2 ^ 16) ∧
    (secondValue .safe i v ≤ limitAt i ↔ primeAt i ∣ (2 * v + 1) % 2 ^ 16) ∧
    (∀ k, min (firstProduct i v) (secondValue k i v) ≤ limitAt i ↔
      firstProduct i v ≤ limitAt i ∨ secondValue k i v ≤ limitAt i) ∧
    (∀ k, passes k i v ↔ noDivisor k (primeAt i) v) ∧
    ∀ k q, exactValue k v → v % primeAt i = q % primeAt i → (passes k i v ↔ factorFree k (primeAt i) q = true)) ∧
  primeAt 1 = 7 ∧ factorFree .safe 7 32771 = true ∧ ¬ passes .safe 1 32771

/-- R103 "`add_scalar_inplace` then `fold_m2r_inplace` on each of the four groups": without a carry, BADVS and that
sequence of group commands give the same state. -/
def Obligations.BlockAdvanceIsGroupSequence : Prop :=
  ∀ (b : BitVec 8) (k : Lane) (s : State), (Instr.badvs b k).wellFormed = true → s.mem.wf →
    NoCarry (64 * b.toNat) (64 * b.toNat + 64) (fun _ => k.toNat) s →
    exec (.badvs b k) s =
      runCommands
        [.gadds .r (4 * b) k, .gfold .r .m2r (4 * b), .gadds .r (4 * b + 1) k, .gfold .r .m2r (4 * b + 1),
          .gadds .r (4 * b + 2) k, .gfold .r .m2r (4 * b + 2), .gadds .r (4 * b + 3) k, .gfold .r .m2r (4 * b + 3)] s

/-! ### State-level commands (42_state_ops.md) -/

/-- R120, R121, R122, R174: ADV; without a valid mode it only sets code 2; without a carry it advances the lanes of
the tier, `LSB`, `OFFSET` and `MOD6`; a carry in some lane aborts and halts, and then nothing is said of those. -/
def Obligations.AdvAdvancesTier : Prop :=
  ∀ (k : Lane) (s : State), s.mem.wf →
    encode (.adv k) = packWord 0x20 0 0 0 0 0 (0#16 ++ k) ∧
    (modeValid s.mode = false → ∃ t, exec (.adv k) s = .next t ∧ OnlyCc s t .unsupportedMode) ∧
    (modeValid s.mode = true → NoCarry 0 (tierLanes s.mode) (fun _ => k.toNat) s →
      ∃ t, exec (.adv k) s = .next t ∧ LanesAdvanced 0 (tierLanes s.mode) (fun _ => k.toNat) s t ∧
        t.lsb.toNat = (s.lsb.toNat + k.toNat) % 2 ^ 64 ∧ t.offset.toNat = (s.offset.toNat + k.toNat) % 2 ^ 64 ∧
        t.mod6.toNat = (s.mod6.toNat + k.toNat) % 6 ∧
        LanesKept (lanesOf .r 0 (tierLanes s.mode)) s t ∧ t.mem.out = s.mem.out ∧ t.mem.wf ∧
        t.result = s.result ∧ t.outcnt = s.outcnt ∧ t.mode = s.mode ∧ t.mod6Incr = s.mod6Incr ∧ ModelKept s t ∧
        StatusIs s t (statusNf s.status) (statusHalt s.status) .ok) ∧
    (modeValid s.mode = true → SomeCarry 0 (tierLanes s.mode) (fun _ => k.toNat) s →
      ∃ t, exec (.adv k) s = .next t ∧ LanesKept (lanesOf .r 0 (tierLanes s.mode)) s t ∧ t.mem.out = s.mem.out ∧
        t.mem.wf ∧ t.result = s.result ∧ t.outcnt = s.outcnt ∧ t.mode = s.mode ∧
        t.mod6Incr = s.mod6Incr ∧ t.host = s.host ∧ t.hostRead = s.hostRead ∧
        StatusIs s t (statusNf s.status) true .internalInvariant)

/-- R17, R121: an ADV by at most 16411 from a state that agrees with `q` and is in range keeps both. -/
def Obligations.AdvKeepsAgreementAndRange : Prop :=
  ∀ (k : Lane) (s : State) q, s.mem.wf → modeValid s.mode = true → Agrees q s → InRange (tierLanes s.mode) s.mem →
    k.toNat ≤ 16411 →
    ∃ t, exec (.adv k) s = .next t ∧ statusCc t.status = codeBits .ok ∧ Agrees (q + k.toNat) t ∧
      InRange (tierLanes t.mode) t.mem

/-- R120, R123, R124: TSTP. -/
def Obligations.TstpTestsTierPlain : Prop :=
  ∀ s : State, s.mem.wf →
    encode .tstp = packWord 0x21 0 0 0 0 0 0 ∧
    (modeValid s.mode = false → ∃ t, exec .tstp s = .next t ∧ OnlyCc s t .unsupportedMode) ∧
    (modeValid s.mode = true → ∃ t, exec .tstp s = .next t ∧ TestEffect .plain 0 (tierLanes s.mode) s t ∧
      TestMeaning .plain 0 (tierLanes s.mode) s t)

/-- R120, R123, R125: TSTT. -/
def Obligations.TsttTestsTierTwin : Prop :=
  ∀ s : State, s.mem.wf →
    encode .tstt = packWord 0x22 0 0 0 0 0 0 ∧
    (modeValid s.mode = false → ∃ t, exec .tstt s = .next t ∧ OnlyCc s t .unsupportedMode) ∧
    (modeValid s.mode = true → ∃ t, exec .tstt s = .next t ∧ TestEffect .twin 0 (tierLanes s.mode) s t ∧
      TestMeaning .twin 0 (tierLanes s.mode) s t)

/-- R120, R123, R126: TSTS. -/
def Obligations.TstsTestsTierSafe : Prop :=
  ∀ s : State, s.mem.wf →
    encode .tsts = packWord 0x23 0 0 0 0 0 0 ∧
    (modeValid s.mode = false → ∃ t, exec .tsts s = .next t ∧ OnlyCc s t .unsupportedMode) ∧
    (modeValid s.mode = true → ∃ t, exec .tsts s = .next t ∧ TestEffect .safe 0 (tierLanes s.mode) s t ∧
      TestMeaning .safe 0 (tierLanes s.mode) s t)

/-- R193: under `RNG` every tier test depends on the lanes only through their residues. -/
def Obligations.TestsDependOnResiduesOnly : Prop :=
  ∀ (s s' t t' : State) i, i = Instr.tstp ∨ i = .tstt ∨ i = .tsts → s.mem.wf → s'.mem.wf →
    modeValid s.mode = true → s'.mode = s.mode →
    InRange (tierLanes s.mode) s.mem → InRange (tierLanes s.mode) s'.mem →
    (∀ l < tierLanes s.mode, residueAt l s.mem % primeAt l = residueAt l s'.mem % primeAt l) →
    exec i s = .next t → exec i s' = .next t' → statusNf t.status = statusNf t'.status

/-- R151: lanes that pass a test in tier L pass it in tier M, and those that pass in M pass in S, whatever the type. -/
def Obligations.LargerTierTestsAreStricter : Prop :=
  ∀ (s t t' : State) i (large small : BitVec 16), i = Instr.tstp ∨ i = .tstt ∨ i = .tsts → s.mem.wf →
    modeValid large = true → modeValid small = true → tierLanes small ≤ tierLanes large →
    exec i { s with mode := large } = .next t → exec i { s with mode := small } = .next t' →
    statusNf t.status = true → statusNf t'.status = true

/-- R121: the tier advance is the loop of `AdvBlockScalar` over the blocks `0 .. nb - 1`. -/
def Obligations.TierAdvanceIsBlockLoop : Prop :=
  ∀ nb k (m : Memory), m.wf → nb ≤ 54 → k < 2 ^ 16 →
    advBlocksScalar 0 nb k m = (List.range nb).foldlM (fun m b => advBlocksScalar b 1 k m) m

/-- R127, R171, R172, R176: INIT refuses an invalid mode first, then an even `LSB`, a `mod6` other than 1, 3, 5 or an
unreduced lane of the tier, a refusal clearing `MODE` and changing nothing else but the code; otherwise it sets
`MODE`, `MOD6` and `OFFSET` and changes nothing else but the code. -/
def Obligations.InitChecksAndBuildsState : Prop :=
  ∀ (mode : BitVec 16) (mod6 : BitVec 3) (s : State), s.mem.wf →
    let bad := s.lsb.toNat % 2 = 0 ∨ ¬ (mod6.toNat = 1 ∨ mod6.toNat = 3 ∨ mod6.toNat = 5) ∨
      ∃ i < tierLanes mode, primeAt i ≤ residueAt i s.mem
    encode (.init mode mod6) = packWord 0x30 0 0 0 0 0 (0#13 ++ mod6 ++ mode) ∧
    (modeValid mode = false →
      ∃ t, exec (.init mode mod6) s = .next t ∧ OnlyCc { s with mode := 0 } t .unsupportedMode) ∧
    (modeValid mode = true → bad →
      ∃ t, exec (.init mode mod6) s = .next t ∧ OnlyCc { s with mode := 0 } t .invalidInput) ∧
    (modeValid mode = true → ¬ bad →
      ∃ t, exec (.init mode mod6) s = .next t ∧
        OnlyCc { s with mode := mode, mod6 := mod6, offset := 0 } t .ok)

/-- R127, R192: after the host loaded the residues of an odd `q` and its low 64 bits, INIT builds a state that agrees
with `q` and is in range. -/
def Obligations.InitAgreesWithLoadedCandidate : Prop :=
  ∀ (mode : BitVec 16) (s : State) q, s.mem.wf → modeValid mode = true → q % 2 = 1 → s.lsb = BitVec.ofNat 64 q →
    (∀ i < tierLanes mode, residueAt i s.mem = q % primeAt i) →
    ∃ t, exec (.init mode (BitVec.ofNat 3 (q % 6))) s = .next t ∧ statusCc t.status = codeBits .ok ∧
      t.mode = mode ∧ Agrees q t ∧ InRange (tierLanes mode) t.mem

/-- R128: WIPE. -/
def Obligations.WipeZeroesState : Prop :=
  ∀ s : State, s.mem.wf →
    encode .wipe = packWord 0x31 0 0 0 0 0 0 ∧
    ∃ t, exec .wipe s = .next t ∧ t.mem.wf ∧
      (∀ b i, b.writable = true → laneAt b i t.mem = 0) ∧ (∀ b i, b.writable = false → laneAt b i t.mem = laneAt b i s.mem) ∧
      t.mem.out.length = s.mem.out.length ∧ (∀ i, t.mem.out.getD i 0 = 0) ∧
      t.lsb = 0 ∧ t.offset = 0 ∧ t.mod6 = 0 ∧ t.mod6Incr = 0 ∧ t.mode = 0 ∧ t.result = 0 ∧ t.outcnt = 0 ∧
      StatusIs s t false (statusHalt s.status) .ok ∧ ModelKept s t

/-! ### DRIVE (43_drivers.md) -/

/-- R141, R176: the three ends of a DRIVE whose driver does not start, in their order. -/
def Obligations.DriveStopsBeforeDriver : Prop :=
  ∀ (count : BitVec 32) (s : State),
    let stops := fun c => ∃ t, exec (.drive count) s = .next t ∧ OnlyCc { s with result := 0, outcnt := 0 } t c
    if modeValid s.mode = false then stops .unsupportedMode
    else if s.mem.out.length < count.toNat then stops .invalidInput
    else count = 0 → stops .bufferFull

/-- R174: a lane that carries in the entry step aborts and halts; what DRIVE may have been writing is left open, the
rest is unchanged. That `MOD6` holds none of 6 and 7 after the abort is the model's reading of R23 (log 3). -/
def Obligations.DriveEntryCarryHalts : Prop :=
  ∀ (count : BitVec 32) (s : State), DriveMayStart count s →
    SomeCarry 0 (tierLanes s.mode) (fun _ => entryStep (modeKind s.mode) s.mod6) s →
    ∃ t, exec (.drive count) s = .next t ∧
      LanesKept (fun b i => (b = .r ∧ i < tierLanes s.mode) ∨ scratchLanes b i) s t ∧
      t.mem.out.length = s.mem.out.length ∧ (∀ j, count.toNat ≤ j → t.mem.out.getD j 0 = s.mem.out.getD j 0) ∧
      t.mem.wf ∧ t.mod6.toNat < 6 ∧ t.mode = s.mode ∧ t.mod6Incr = s.mod6Incr ∧ t.host = s.host ∧
      t.hostRead = s.hostRead ∧ StatusIs s t (statusNf s.status) true .internalInvariant

/-- R143, R150: from a state in range at a candidate 6k+1 or 6k+5 that passes the plain test, `DRIVE #1` records it
and stands at the next candidate, 4 or 2 further. -/
def Obligations.PlainDriveRecordsPassingCandidate : Prop :=
  ∀ s : State, DriveMayStart 1 s → modeKind s.mode = .plain → InRange (tierLanes s.mode) s.mem →
    (s.mod6.toNat = 1 ∨ s.mod6.toNat = 5) →
    (∀ i < tierLanes s.mode, passes .plain i (residueAt i s.mem)) →
    let k := if s.mod6.toNat = 1 then 4 else 2
    ∃ t, exec (.drive 1) s = .next t ∧ t.mem.out.getD 0 0 = s.lsb ∧ DriveResults 1 t ∧ DriveFrame 1 s t ∧
      LanesAdvanced 0 (tierLanes s.mode) (fun _ => k) s t ∧ t.lsb.toNat = (s.lsb.toNat + k) % 2 ^ 64 ∧
      t.offset.toNat = (s.offset.toNat + k) % 2 ^ 64 ∧ t.mod6.toNat = (s.mod6.toNat + k) % 6

/-- R145, R146, R150: from a state in range at a candidate 6k+5 that passes the twin (safe) test, a twin (safe)
`DRIVE #1` records it and stands 6 further. -/
def Obligations.PairDriveRecordsPassingCandidate : Prop :=
  ∀ s : State, DriveMayStart 1 s → modeKind s.mode ≠ .plain → InRange (tierLanes s.mode) s.mem → s.mod6.toNat = 5 →
    (∀ i < tierLanes s.mode, passes (modeKind s.mode) i (residueAt i s.mem)) →
    ∃ t, exec (.drive 1) s = .next t ∧ t.mem.out.getD 0 0 = s.lsb ∧ DriveResults 1 t ∧ DriveFrame 1 s t ∧
      LanesAdvanced 0 (tierLanes s.mode) (fun _ => 6) s t ∧ t.lsb.toNat = (s.lsb.toNat + 6) % 2 ^ 64 ∧
      t.offset.toNat = (s.offset.toNat + 6) % 2 ^ 64 ∧ t.mod6.toNat = 5

/-- R141, R149, R152: from a state in range DRIVE always fills its count, with no abort, and is in range again. -/
def Obligations.DriveFillsBufferFromRange : Prop :=
  ∀ (count : BitVec 32) (s : State), DriveMayStart count s → InRange (tierLanes s.mode) s.mem →
    encode (.drive count) = packWord 0x40 0 0 0 0 0 count ∧
    ∃ t, exec (.drive count) s = .next t ∧ DriveResults count.toNat t ∧ DriveFrame count.toNat s t ∧
      InRange (tierLanes t.mode) t.mem

/-- R143, R147, R148, R151: from a state in range that agrees with `q`, what a plain DRIVE writes is exactly the
ascending list of the survivors from `q` up to the candidate `q + n` it stands at afterwards. -/
def Obligations.PlainDriveListsSurvivors : Prop :=
  ∀ (count : BitVec 32) (s : State) q, DriveMayStart count s → modeKind s.mode = .plain →
    InRange (tierLanes s.mode) s.mem → Agrees q s →
    ∃ t n, exec (.drive count) s = .next t ∧ Agrees (q + n) t ∧ t.offset = s.offset + BitVec.ofNat 64 n ∧
      t.mem.out.take count.toNat = survivorWords .plain (tierLanes s.mode) q n

/-- R145, R146, R147, R148, R151: the same of the twin and the safe driver. -/
def Obligations.PairDriveListsSurvivors : Prop :=
  ∀ (count : BitVec 32) (s : State) q, DriveMayStart count s → modeKind s.mode ≠ .plain →
    InRange (tierLanes s.mode) s.mem → Agrees q s →
    ∃ t n, exec (.drive count) s = .next t ∧ Agrees (q + n) t ∧ t.offset = s.offset + BitVec.ofNat 64 n ∧
      t.mem.out.take count.toNat = survivorWords (modeKind s.mode) (tierLanes s.mode) q n

/-- R147: `DRIVE #n1` then `DRIVE #n2` writes what `DRIVE #(n1+n2)` writes and ends in the same state. -/
def Obligations.DriveResumes : Prop :=
  ∀ (n1 n2 : BitVec 32) (s : State), DriveMayStart n1 s → 1 ≤ n2.toNat → n1.toNat + n2.toNat ≤ s.mem.out.length →
    n1.toNat + n2.toNat < 2 ^ 32 → InRange (tierLanes s.mode) s.mem →
    ∃ t1 t2 t, exec (.drive n1) s = .next t1 ∧ exec (.drive n2) t1 = .next t2 ∧
      exec (.drive (n1 + n2)) s = .next t ∧ t2.mem.r = t.mem.r ∧ t2.lsb = t.lsb ∧ t2.offset = t.offset ∧
      t2.mod6 = t.mod6 ∧ t2.mode = t.mode ∧ t2.result = t.result ∧
      t.mem.out.take (n1.toNat + n2.toNat) = t1.mem.out.take n1.toNat ++ t2.mem.out.take n2.toNat

/-! ### Encoding (30_encoding.md) -/

/-- R60 to R69: decoding the encoding of a legal command gives it back, every operand at every value. -/
def Obligations.DecodeEncode : Prop :=
  ∀ i : Instr, i.wellFormed = true → decode (encode i) = .ok i

/-- R60 to R67: a word the decoder accepts is the encoding of a legal command, and of no other. -/
def Obligations.EncodeDecode : Prop :=
  ∀ (w : Word64) i, decode w = .ok i → i.wellFormed = true ∧ encode i = w

/-- R65, R66: the decoder accepts a word exactly when it matches a row of the opcode table and meets its
constraints. -/
def Obligations.DecoderAcceptsTableWords : Prop :=
  ∀ w : Word64, (∃ i, decode w = .ok i) ↔ legalByTable w = true

/-- R69, 95_test_vectors.md: words written out from the spec decode to what they stand for. -/
def Obligations.SpecWordsDecode : Prop :=
  decode 0x0160200000000000 = .ok (.gmul .tmp .r .inv 0) ∧ decode 0x0276200000000000 = .ok (.gshl1add .tmp2 .tmp .inv 0) ∧
  decode 0x0804000300000000 = .ok (.gfold .r .m2r 3) ∧ decode 0x0500000300000006 = .ok (.gadds .r 3 6) ∧
  decode 0x106000FF00000000 = .ok (.bztest .tmp 255) ∧ decode 0x1100000200000006 = .ok (.badvs 2 6) ∧
  decode 0x2000000000000004 = .ok (.adv 4) ∧ decode 0x3000000000050101 = .ok (.init 0x0101 5) ∧
  decode 0x3100000000000000 = .ok .wipe ∧ decode 0x40000000FFFFFFFF = .ok (.drive 0xFFFFFFFF)

/-! ### Steps and the host port (20_memory.md, 60_exceptions.md, 70_reset_and_hazards.md) -/

/-- R185, R190: with no host action pending the engine is idle and holds all its state. -/
def Obligations.IdleStepHoldsState : Prop :=
  ∀ s : State, s.host = [] → step s = .next s

/-- R60, R196: a step at which the host writes a legal word to `CMD` runs the command it encodes. -/
def Obligations.StepRunsDecodedCommand : Prop :=
  ∀ (s : State) w i rest, s.host = .write cmdAddress w :: rest → statusHalt s.status = false → decode w = .ok i →
    step s = exec i { s with host := rest }

/-- R65, R175: an illegal word written to `CMD` changes nothing but the code, which becomes 5. -/
def Obligations.IllegalWordOnlySetsCode : Prop :=
  ∀ (s : State) w rest, s.host = .write cmdAddress w :: rest → statusHalt s.status = false → legalByTable w = false →
    ∃ t, step s = .next t ∧ OnlyCc { s with host := rest } t .illegalCommand

/-- R42, R174: while `HALT = 1` a write to any address, `CMD` included, is dropped, and a read returns what it returns
on the same state with `HALT = 0`, but for `STATUS` itself. -/
def Obligations.HaltedDropsWrites : Prop :=
  (∀ (s : State) addr v rest, s.host = .write addr v :: rest → statusHalt s.status = true →
    step s = .next { s with host := rest }) ∧
  (∀ (s : State) addr rest, s.host = .read addr :: rest → addr ≠ 0xF0001 →
    ∃ t t', step s = .next t ∧ step { s with status := setStatusHalt false s.status } = .next t' ∧
      t.hostRead = t'.hostRead ∧ t = { s with host := rest, hostRead := t.hostRead })

/-- R25, R40 to R42: what a host read returns, at every address, and that it changes nothing else. -/
def Obligations.HostReadReturnsElement : Prop :=
  ∀ (s : State) (space : BitVec 4) (index : BitVec 16) rest, s.mem.wf → s.host = .read (hostAddress space index) :: rest →
    ∃ v : Word64, step s = .next { s with host := rest, hostRead := v } ∧
      v.toNat =
        (if space = 0 then (laneAt .r index.toNat s.mem).toNat
        else if space = 1 then primeAt index.toNat
        else if space = 2 then invAt index.toNat
        else if space = 3 then limitAt index.toNat
        else if space = 4 then m2rAt index.toNat
        else if space = 5 then (laneAt .kv index.toNat s.mem).toNat
        else if space = 6 then (laneAt .tmp index.toNat s.mem).toNat
        else if space = 7 then (laneAt .tmp2 index.toNat s.mem).toNat
        else if space = 8 then (s.mem.out.getD index.toNat 0).toNat
        else if space = 15 then
          (if index = 1 then s.status.toNat else if index = 2 then s.result.toNat
          else if index = 3 then s.outcnt.toNat else if index = 4 then s.mode.toNat
          else if index = 5 then s.mod6.toNat else if index = 6 then s.mod6Incr.toNat
          else if index = 7 then s.lsb.toNat else if index = 8 then s.offset.toNat else 0)
        else 0) ∧
      (space.toNat ≤ 5 → 3456 ≤ index.toNat → v = 0) ∧
      ((space = 6 ∨ space = 7) → 64 ≤ index.toNat → v = 0) ∧
      (space = 8 → s.mem.out.length ≤ index.toNat → v = 0)

/-- R25, R41, R42: what a host write to any address but `CMD` does while `HALT = 0`: the element is written with the
low bits of the value, and every other element and register is unchanged; writes to tables, to read-only registers
and to unmapped addresses are dropped. -/
def Obligations.HostWriteStoresElement : Prop :=
  ∀ (s : State) (space : BitVec 4) (index : BitVec 16) v rest, s.mem.wf →
    s.host = .write (hostAddress space index) v :: rest → statusHalt s.status = false →
    ¬ (space = 15 ∧ index = 0) →
    ∃ t, step s = .next t ∧ t.mem.wf ∧
      (∀ b i, (laneAt b i t.mem).toNat =
        if b.writable = true ∧ space = codeOfBank b ∧ index.toNat = i ∧ i < (bankLanes b s.mem).length then v.toNat % 2 ^ 16
        else (laneAt b i s.mem).toNat) ∧
      (∀ i, t.mem.out.getD i 0 =
        if space = 8 ∧ index.toNat = i ∧ i < s.mem.out.length then v else s.mem.out.getD i 0) ∧
      t.mem.out.length = s.mem.out.length ∧
      t.mod6Incr.toNat = (if space = 15 ∧ index = 6 then v.toNat % 8 else s.mod6Incr.toNat) ∧
      t.lsb = (if space = 15 ∧ index = 7 then v else s.lsb) ∧
      t.offset = (if space = 15 ∧ index = 8 then v else s.offset) ∧
      t.status = s.status ∧ t.result = s.result ∧ t.outcnt = s.outcnt ∧ t.mode = s.mode ∧ t.mod6 = s.mod6 ∧
      t.host = rest ∧ t.hostRead = s.hostRead ∧ t.draws = s.draws

/-- R190, R191: the reset event, taken halted or not, leaves every value the spec states. -/
def Obligations.ResetEventClearsState : Prop :=
  ∀ (s : State) rest, s.mem.wf → s.host = .reset :: rest →
    ∃ t, step s = .next t ∧ t.mem.wf ∧ t.mem.out.length = s.mem.out.length ∧ ScratchZero t ∧ t.status = 0 ∧
      t.result = 0 ∧ t.outcnt = 0 ∧ t.mode = 0 ∧ t.mod6 = 0 ∧ t.mod6Incr = 0 ∧ t.lsb = 0 ∧ t.offset = 0

/-- R22, R23, R26, R28, R40, R170, R174: the invariant is kept by every step from every state that has it. After an
aborted ADV or DRIVE, whose `MOD6` R174 leaves unspecified, that `MOD6` is still at most 5 is the model's reading of R23
(log 3). -/
def Obligations.StepKeepsInvariant : Prop :=
  ∀ s t : State, RunInv s → step s = .next t → RunInv t

/-- R191: the invariant holds at reset. -/
def Obligations.ResetHasInvariant : Prop := RunInv State.reset

/-- R152, R170: from every state with the invariant the step goes on: no fault and no refusal. -/
def Obligations.NoStepStops : Prop :=
  ∀ s : State, RunInv s → GoesOn s

/-- R22: only INIT and WIPE among the commands change `MODE`. -/
def Obligations.OnlyInitAndWipeWriteMode : Prop :=
  ∀ i (s t : State), exec i s = .next t → t.mode ≠ s.mode → (∃ m r, i = .init m r) ∨ i = .wipe

/-- R26: only the testers and WIPE change `STATUS.NF`; only an InternalInvariant abort changes `STATUS.HALT`, from 0
to 1. -/
def Obligations.OnlyTestersAndWipeWriteNf : Prop :=
  ∀ i (s t : State), exec i s = .next t →
    (statusNf t.status ≠ statusNf s.status →
      (∃ d b, i = .bztest d b) ∨ (∃ b, i = .bnfp b) ∨ (∃ b, i = .bnft b) ∨ (∃ b, i = .bnfs b) ∨ i = .tstp ∨
        i = .tstt ∨ i = .tsts ∨ i = .wipe) ∧
    (statusHalt t.status ≠ statusHalt s.status →
      statusHalt t.status = true ∧ statusCc t.status = codeBits .internalInvariant ∧
        ((∃ b k, i = .badvs b k) ∨ (∃ b, i = .badvv b) ∨ (∃ k, i = .adv k) ∨ (∃ n, i = .drive n)))

/-- R24, R27, R28, R50: only DRIVE and WIPE write `OUT`, `RESULT` and `OUTCNT`, and only WIPE writes `MOD6_INCR`. -/
def Obligations.OnlyDriveAndWipeWriteOutput : Prop :=
  ∀ i (s t : State), exec i s = .next t →
    (t.mem.out ≠ s.mem.out ∨ t.result ≠ s.result ∨ t.outcnt ≠ s.outcnt → (∃ n, i = .drive n) ∨ i = .wipe) ∧
    (t.mod6Incr ≠ s.mod6Incr → i = .wipe)

/-! ### Tables (10_state.md) -/

/-- R11: `PRIMES` lists the primes from 5 in increasing order, none omitted, up to 32237 (the last entry is the
spec's own inference, "[derived: by enumerating the primes ...]"). -/
def Obligations.PrimesTableListsThePrimes : Prop :=
  primesTable.length = 3456 ∧ primeAt 0 = 5 ∧ primeAt 1 = 7 ∧ primeAt 2 = 11 ∧ primeAt 3455 = 32237 ∧
  (∀ i j, i < j → j < 3456 → primeAt i < primeAt j) ∧
  (∀ n, 5 ≤ n → n ≤ 32237 → (Nat.Prime n ↔ ∃ i < 3456, primeAt i = n))

/-- R12: `INV[i]` is the one number below 2^16 that is the inverse of `PRIMES[i]` modulo 2^16, and it is odd. -/
def Obligations.InvTableHoldsInverses : Prop :=
  ∀ i < 3456, invAt i % 2 = 1 ∧ ∀ x < 2 ^ 16, (primeAt i * x) % 2 ^ 16 = 1 ↔ x = invAt i

/-- R13: `LIMIT[i]` is the truncated quotient, and the fast-rejection identity holds for every 16-bit number. -/
def Obligations.FastRejectionIdentity : Prop :=
  ∀ i < 3456, limitAt i = (2 ^ 16 - 1) / primeAt i ∧
    ∀ a < 2 ^ 16, primeAt i ∣ a ↔ (a * invAt i) % 2 ^ 16 ≤ limitAt i

/-- R14: `M2R[i] = 2^16 - MULT[i]` with `MULT[i]` the largest multiple of `p_i` not above 2^15, and the four
properties (a) to (d) the rule lists as its own inferences ("[derived: from the two lines above ...]"; log 10). -/
def Obligations.FoldSubtractsMultiple : Prop :=
  ∀ i < 3456, ∃ mult, mult = primeAt i * (2 ^ 15 / primeAt i) ∧
    m2rAt i = 2 ^ 16 - mult ∧ m2rAt i = 0x8000 + 2 ^ 15 % primeAt i ∧
    mult % primeAt i = 0 ∧
    2 ^ 15 - primeAt i < mult ∧ mult < 2 ^ 15 ∧ 2 ^ 15 < m2rAt i ∧ m2rAt i < 2 ^ 15 + primeAt i ∧
    ∀ v, 2 ^ 15 ≤ v → v < 2 ^ 16 →
      (v + m2rAt i) % 2 ^ 16 = v - mult ∧ 1 ≤ v - mult ∧ v - mult < 2 ^ 15 + primeAt i ∧
        (v - mult) % primeAt i = v % primeAt i ∧
        (v + m2rAt i) % 2 ^ 16 = (v - 2 ^ 15) + 2 ^ 15 % primeAt i
end

