-- ==== Sys2Proof/Laws/Lists.lean ====
section
/-! SUPPORT. What `slice`, `overlay` and `map3` do, element by element. -/

namespace Sys2Proof.Machine

variable {α β γ δ : Type}

@[simp] theorem slice_length (base n : Nat) (l : List α) : (slice base n l).length = min n (l.length - base) := by
  simp [slice]

theorem slice_getD (base n j : Nat) (l : List α) (d : α) (h : j < n) :
    (slice base n l).getD j d = l.getD (base + j) d := by
  simp [slice, List.getD_eq_getElem?_getD, h]

theorem slice_getElem (base n j : Nat) (l : List α) (h : j < (slice base n l).length) :
    (slice base n l)[j] = l[base + j]'(by simp at h; omega) := by
  simp [slice]

/-- A slice of a slice. -/
theorem slice_slice (base n b m : Nat) (l : List α) (h : b + m ≤ n) :
    slice b m (slice base n l) = slice (base + b) m l := by
  apply List.ext_getElem?
  intro i
  simp only [slice, List.getElem?_take, List.getElem?_drop]
  by_cases hi : i < m
  · simp only [hi, if_true, show b + i < n by omega, Nat.add_assoc]
  · simp [hi]

@[simp] theorem overlay_length (base : Nat) (new old : List α) : (overlay base new old).length = old.length := by
  induction old generalizing base new with
  | nil => simp [overlay]
  | cons o old ih =>
    cases new with
    | nil => simp [overlay]
    | cons n new => cases base <;> simp [overlay, ih]

/-- An overlaid list reads as the new elements in their range and as before elsewhere. -/
theorem overlay_getD (base : Nat) (new old : List α) (i : Nat) (d : α) (h : i < old.length) :
    (overlay base new old).getD i d =
      if base ≤ i ∧ i < base + new.length then new.getD (i - base) d else old.getD i d := by
  induction old generalizing base new i with
  | nil => simp at h
  | cons o old ih =>
    cases new with
    | nil =>
      rw [if_neg (by simp only [List.length_nil]; omega)]
      simp [overlay]
    | cons n new =>
      cases base with
      | zero =>
        cases i with
        | zero => simp [overlay]
        | succ i =>
          have := ih 0 new i (by simpa using h)
          simp [overlay] at this ⊢
          rw [this]
      | succ base =>
        cases i with
        | zero => simp [overlay]
        | succ i =>
          have := ih base (n :: new) i (by simpa using h)
          simp only [overlay, List.getD_cons_succ, this]
          have e : i + 1 - (base + 1) = i - base := by omega
          rw [e]
          congr 1
          simp only [List.length_cons, eq_iff_iff]
          omega

/-- Past the end of the old list there is nothing. -/
theorem overlay_getD_ge (base : Nat) (new old : List α) (i : Nat) (d : α) (h : old.length ≤ i) :
    (overlay base new old).getD i d = d := by
  simp [List.getD_eq_getElem?_getD, h]

/-- Elements outside the range written read as before, wherever they are. -/
theorem overlay_getD_outside (base : Nat) (new old : List α) (i : Nat) (d : α)
    (h : i < base ∨ base + new.length ≤ i) : (overlay base new old).getD i d = old.getD i d := by
  by_cases hi : i < old.length
  · rw [overlay_getD _ _ _ _ _ hi, if_neg (by omega)]
  · rw [overlay_getD_ge _ _ _ _ _ (by omega)]
    simp [List.getD_eq_getElem?_getD, show old.length ≤ i by omega]

/-- Elements inside the range written read as the new ones. -/
theorem overlay_getD_inside (base : Nat) (new old : List α) (j : Nat) (d : α)
    (hj : j < new.length) (h : base + j < old.length) : (overlay base new old).getD (base + j) d = new.getD j d := by
  rw [overlay_getD _ _ _ _ _ h, if_pos (by omega)]
  congr 1
  omega

/-- Writing back what stands there changes nothing. -/
theorem overlay_slice_self (base n : Nat) (l : List α) : overlay base (slice base n l) l = l := by
  induction l generalizing base n with
  | nil => simp [overlay]
  | cons o l ih =>
    cases base with
    | zero =>
      cases n with
      | zero => simp [slice, overlay]
      | succ n =>
        have := ih 0 n
        simp only [slice, List.drop_zero] at this
        simp [slice, overlay, this]
    | succ base =>
      have := ih base n
      simp only [slice] at this
      simp only [slice, List.drop_succ_cons]
      generalize hs : List.take n (List.drop base l) = xs at this ⊢
      cases xs <;> simp [overlay, this]

@[simp] theorem map3_length (f : α → β → γ → δ) (as : List α) (bs : List β) (cs : List γ) :
    (map3 f as bs cs).length = min as.length (min bs.length cs.length) := by
  induction as generalizing bs cs with
  | nil => simp [map3]
  | cons a as ih =>
    cases bs with
    | nil => simp [map3]
    | cons b bs =>
      cases cs with
      | nil => simp [map3]
      | cons c cs => simp [map3, ih]

theorem map3_getElem (f : α → β → γ → δ) (as : List α) (bs : List β) (cs : List γ) (i : Nat)
    (h : i < (map3 f as bs cs).length) :
    (map3 f as bs cs)[i] =
      f (as[i]'(by simp at h; omega)) (bs[i]'(by simp at h; omega)) (cs[i]'(by simp at h; omega)) := by
  induction as generalizing bs cs i with
  | nil => simp [map3] at h
  | cons a as ih =>
    cases bs with
    | nil => simp [map3] at h
    | cons b bs =>
      cases cs with
      | nil => simp [map3] at h
      | cons c cs =>
        cases i with
        | zero => simp [map3]
        | succ i => simpa [map3] using ih bs cs i (by simpa [map3] using h)

theorem map3_getD (f : α → β → γ → δ) (as : List α) (bs : List β) (cs : List γ) (i : Nat) (da : α) (db : β)
    (dc : γ) (dd : δ) (ha : i < as.length) (hb : i < bs.length) (hc : i < cs.length) :
    (map3 f as bs cs).getD i dd = f (as.getD i da) (bs.getD i db) (cs.getD i dc) := by
  have h : i < (map3 f as bs cs).length := by simp; omega
  rw [List.getD_eq_getElem _ _ h, map3_getElem, List.getD_eq_getElem _ _ ha, List.getD_eq_getElem _ _ hb,
    List.getD_eq_getElem _ _ hc]

theorem zipWith_getD (f : α → β → γ) (as : List α) (bs : List β) (i : Nat) (da : α) (db : β) (dc : γ)
    (ha : i < as.length) (hb : i < bs.length) :
    (List.zipWith f as bs).getD i dc = f (as.getD i da) (bs.getD i db) := by
  have h : i < (List.zipWith f as bs).length := by simp; omega
  rw [List.getD_eq_getElem _ _ h, List.getElem_zipWith, List.getD_eq_getElem _ _ ha, List.getD_eq_getElem _ _ hb]

/-- Lists of one length that read alike are equal. -/
theorem eq_of_getD {l l' : List α} (d : α) (hl : l.length = l'.length)
    (h : ∀ i < l.length, l.getD i d = l'.getD i d) : l = l' := by
  apply List.ext_getElem hl
  intro i h1 h2
  have := h i h1
  rwa [List.getD_eq_getElem _ _ h1, List.getD_eq_getElem _ _ h2] at this

/-- `any id` over two lists, element by element. -/
theorem zipWith_any_iff (f : α → β → Bool) (as : List α) (bs : List β) (da : α) (db : β) :
    (List.zipWith f as bs).any id = true ↔
      ∃ i, i < as.length ∧ i < bs.length ∧ f (as.getD i da) (bs.getD i db) = true := by
  induction as generalizing bs with
  | nil => simp
  | cons a as ih =>
    cases bs with
    | nil => simp
    | cons b bs =>
      simp only [List.zipWith_cons_cons, List.any_cons, id_eq, Bool.or_eq_true, ih, List.length_cons]
      constructor
      · rintro (h | ⟨i, h1, h2, h3⟩)
        · exact ⟨0, by omega, by omega, by simpa using h⟩
        · exact ⟨i + 1, by omega, by omega, by simpa using h3⟩
      · rintro ⟨i, h1, h2, h3⟩
        cases i with
        | zero => exact .inl (by simpa using h3)
        | succ i => exact .inr ⟨i, by omega, by omega, by simpa using h3⟩

end Sys2Proof.Machine
end

