-- ==== Sys2Proof/Laws/State.lean ====
section
/-! SUPPORT. The fields of the state after each shared operation, one lemma per field. -/

namespace Sys2Proof.Machine

/-! ### `complete` -/

@[simp] theorem complete_mem (c : Code) (s : State) : (complete c s).mem = s.mem := rfl
@[simp] theorem complete_status (c : Code) (s : State) : (complete c s).status = setStatusCc (codeBits c) s.status := rfl
@[simp] theorem complete_result (c : Code) (s : State) : (complete c s).result = s.result := rfl
@[simp] theorem complete_outcnt (c : Code) (s : State) : (complete c s).outcnt = s.outcnt := rfl
@[simp] theorem complete_mode (c : Code) (s : State) : (complete c s).mode = s.mode := rfl
@[simp] theorem complete_mod6 (c : Code) (s : State) : (complete c s).mod6 = s.mod6 := rfl
@[simp] theorem complete_mod6Incr (c : Code) (s : State) : (complete c s).mod6Incr = s.mod6Incr := rfl
@[simp] theorem complete_lsb (c : Code) (s : State) : (complete c s).lsb = s.lsb := rfl
@[simp] theorem complete_offset (c : Code) (s : State) : (complete c s).offset = s.offset := rfl
@[simp] theorem complete_host (c : Code) (s : State) : (complete c s).host = s.host := rfl
@[simp] theorem complete_hostRead (c : Code) (s : State) : (complete c s).hostRead = s.hostRead := rfl
@[simp] theorem complete_draws (c : Code) (s : State) : (complete c s).draws = s.draws := rfl

/-! ### `raise` -/

@[simp] theorem raise_mem (c : Code) (s : State) : (raise c s).mem = s.mem := by cases c <;> rfl
@[simp] theorem raise_result (c : Code) (s : State) : (raise c s).result = s.result := by cases c <;> rfl
@[simp] theorem raise_outcnt (c : Code) (s : State) : (raise c s).outcnt = s.outcnt := by cases c <;> rfl
@[simp] theorem raise_mode (c : Code) (s : State) : (raise c s).mode = s.mode := by cases c <;> rfl
@[simp] theorem raise_mod6 (c : Code) (s : State) : (raise c s).mod6 = s.mod6 := by cases c <;> rfl
@[simp] theorem raise_mod6Incr (c : Code) (s : State) : (raise c s).mod6Incr = s.mod6Incr := by cases c <;> rfl
@[simp] theorem raise_lsb (c : Code) (s : State) : (raise c s).lsb = s.lsb := by cases c <;> rfl
@[simp] theorem raise_offset (c : Code) (s : State) : (raise c s).offset = s.offset := by cases c <;> rfl
@[simp] theorem raise_host (c : Code) (s : State) : (raise c s).host = s.host := by cases c <;> rfl
@[simp] theorem raise_hostRead (c : Code) (s : State) : (raise c s).hostRead = s.hostRead := by cases c <;> rfl
@[simp] theorem raise_draws (c : Code) (s : State) : (raise c s).draws = s.draws := by cases c <;> rfl

/-- Every kind but InternalInvariant leaves `HALT` alone. -/
theorem raise_eq_complete {c : Code} (h : c ≠ .internalInvariant) (s : State) : raise c s = complete c s := by
  cases c <;> first | rfl | exact absurd rfl h

theorem raise_internalInvariant_status (s : State) :
    (raise .internalInvariant s).status =
      setStatusHalt true (setStatusCc (codeBits .internalInvariant) s.status) := rfl

/-! ### `setNf` -/

@[simp] theorem setNf_mem (b : Bool) (s : State) : (setNf b s).mem = s.mem := rfl
@[simp] theorem setNf_status (b : Bool) (s : State) : (setNf b s).status = setStatusNf b s.status := rfl
@[simp] theorem setNf_result (b : Bool) (s : State) : (setNf b s).result = s.result := rfl
@[simp] theorem setNf_outcnt (b : Bool) (s : State) : (setNf b s).outcnt = s.outcnt := rfl
@[simp] theorem setNf_mode (b : Bool) (s : State) : (setNf b s).mode = s.mode := rfl
@[simp] theorem setNf_mod6 (b : Bool) (s : State) : (setNf b s).mod6 = s.mod6 := rfl
@[simp] theorem setNf_mod6Incr (b : Bool) (s : State) : (setNf b s).mod6Incr = s.mod6Incr := rfl
@[simp] theorem setNf_lsb (b : Bool) (s : State) : (setNf b s).lsb = s.lsb := rfl
@[simp] theorem setNf_offset (b : Bool) (s : State) : (setNf b s).offset = s.offset := rfl
@[simp] theorem setNf_host (b : Bool) (s : State) : (setNf b s).host = s.host := rfl
@[simp] theorem setNf_hostRead (b : Bool) (s : State) : (setNf b s).hostRead = s.hostRead := rfl
@[simp] theorem setNf_draws (b : Bool) (s : State) : (setNf b s).draws = s.draws := rfl

/-! ### `loseLanes` -/

@[simp] theorem loseLanes_mem (base n : Nat) (s : State) : (loseLanes base n s).mem = { s.mem with r := overlay base (unspecLanes s.draws .r base n) s.mem.r } := rfl
@[simp] theorem loseLanes_status (base n : Nat) (s : State) : (loseLanes base n s).status = s.status := rfl
@[simp] theorem loseLanes_result (base n : Nat) (s : State) : (loseLanes base n s).result = s.result := rfl
@[simp] theorem loseLanes_outcnt (base n : Nat) (s : State) : (loseLanes base n s).outcnt = s.outcnt := rfl
@[simp] theorem loseLanes_mode (base n : Nat) (s : State) : (loseLanes base n s).mode = s.mode := rfl
@[simp] theorem loseLanes_mod6 (base n : Nat) (s : State) : (loseLanes base n s).mod6 = s.mod6 := rfl
@[simp] theorem loseLanes_mod6Incr (base n : Nat) (s : State) : (loseLanes base n s).mod6Incr = s.mod6Incr := rfl
@[simp] theorem loseLanes_lsb (base n : Nat) (s : State) : (loseLanes base n s).lsb = s.lsb := rfl
@[simp] theorem loseLanes_offset (base n : Nat) (s : State) : (loseLanes base n s).offset = s.offset := rfl
@[simp] theorem loseLanes_host (base n : Nat) (s : State) : (loseLanes base n s).host = s.host := rfl
@[simp] theorem loseLanes_hostRead (base n : Nat) (s : State) : (loseLanes base n s).hostRead = s.hostRead := rfl
@[simp] theorem loseLanes_draws (base n : Nat) (s : State) : (loseLanes base n s).draws = s.draws := rfl

/-! ### `loseCounters` -/

@[simp] theorem loseCounters_mem (s : State) : (loseCounters s).mem = s.mem := rfl
@[simp] theorem loseCounters_status (s : State) : (loseCounters s).status = s.status := rfl
@[simp] theorem loseCounters_result (s : State) : (loseCounters s).result = s.result := rfl
@[simp] theorem loseCounters_outcnt (s : State) : (loseCounters s).outcnt = s.outcnt := rfl
@[simp] theorem loseCounters_mode (s : State) : (loseCounters s).mode = s.mode := rfl
@[simp] theorem loseCounters_mod6Incr (s : State) : (loseCounters s).mod6Incr = s.mod6Incr := rfl
@[simp] theorem loseCounters_host (s : State) : (loseCounters s).host = s.host := rfl
@[simp] theorem loseCounters_hostRead (s : State) : (loseCounters s).hostRead = s.hostRead := rfl
@[simp] theorem loseCounters_draws (s : State) : (loseCounters s).draws = s.draws := rfl

/-! ### `loseOutputs` -/

@[simp] theorem loseOutputs_status (count : Nat) (s : State) : (loseOutputs count s).status = s.status := rfl
@[simp] theorem loseOutputs_mode (count : Nat) (s : State) : (loseOutputs count s).mode = s.mode := rfl
@[simp] theorem loseOutputs_mod6 (count : Nat) (s : State) : (loseOutputs count s).mod6 = s.mod6 := rfl
@[simp] theorem loseOutputs_mod6Incr (count : Nat) (s : State) : (loseOutputs count s).mod6Incr = s.mod6Incr := rfl
@[simp] theorem loseOutputs_lsb (count : Nat) (s : State) : (loseOutputs count s).lsb = s.lsb := rfl
@[simp] theorem loseOutputs_offset (count : Nat) (s : State) : (loseOutputs count s).offset = s.offset := rfl
@[simp] theorem loseOutputs_host (count : Nat) (s : State) : (loseOutputs count s).host = s.host := rfl
@[simp] theorem loseOutputs_hostRead (count : Nat) (s : State) : (loseOutputs count s).hostRead = s.hostRead := rfl
@[simp] theorem loseOutputs_draws (count : Nat) (s : State) : (loseOutputs count s).draws = s.draws := rfl

@[simp] theorem loseOutputs_mem_r (count : Nat) (s : State) : (loseOutputs count s).mem.r = s.mem.r := rfl
@[simp] theorem loseOutputs_mem_kv (count : Nat) (s : State) : (loseOutputs count s).mem.kv = s.mem.kv := rfl
@[simp] theorem loseOutputs_mem_out (count : Nat) (s : State) :
    (loseOutputs count s).mem.out = overlay 0 (unspecWords s.draws count) s.mem.out := rfl

/-! ### `nextDraw` -/

@[simp] theorem nextDraw_mem (s : State) : (nextDraw s).mem = s.mem := rfl
@[simp] theorem nextDraw_status (s : State) : (nextDraw s).status = s.status := rfl
@[simp] theorem nextDraw_result (s : State) : (nextDraw s).result = s.result := rfl
@[simp] theorem nextDraw_outcnt (s : State) : (nextDraw s).outcnt = s.outcnt := rfl
@[simp] theorem nextDraw_mode (s : State) : (nextDraw s).mode = s.mode := rfl
@[simp] theorem nextDraw_mod6 (s : State) : (nextDraw s).mod6 = s.mod6 := rfl
@[simp] theorem nextDraw_mod6Incr (s : State) : (nextDraw s).mod6Incr = s.mod6Incr := rfl
@[simp] theorem nextDraw_lsb (s : State) : (nextDraw s).lsb = s.lsb := rfl
@[simp] theorem nextDraw_offset (s : State) : (nextDraw s).offset = s.offset := rfl
@[simp] theorem nextDraw_host (s : State) : (nextDraw s).host = s.host := rfl
@[simp] theorem nextDraw_hostRead (s : State) : (nextDraw s).hostRead = s.hostRead := rfl
@[simp] theorem nextDraw_draws (s : State) : (nextDraw s).draws = s.draws + 1 := rfl

/-! ### `advanceCounters` -/

@[simp] theorem advanceCounters_mem (k : Nat) (s : State) : (advanceCounters k s).mem = s.mem := rfl
@[simp] theorem advanceCounters_status (k : Nat) (s : State) : (advanceCounters k s).status = s.status := rfl
@[simp] theorem advanceCounters_result (k : Nat) (s : State) : (advanceCounters k s).result = s.result := rfl
@[simp] theorem advanceCounters_outcnt (k : Nat) (s : State) : (advanceCounters k s).outcnt = s.outcnt := rfl
@[simp] theorem advanceCounters_mode (k : Nat) (s : State) : (advanceCounters k s).mode = s.mode := rfl
@[simp] theorem advanceCounters_mod6 (k : Nat) (s : State) : (advanceCounters k s).mod6 = BitVec.ofNat 3 ((s.mod6.toNat + k) % 6) := rfl
@[simp] theorem advanceCounters_mod6Incr (k : Nat) (s : State) : (advanceCounters k s).mod6Incr = s.mod6Incr := rfl
@[simp] theorem advanceCounters_lsb (k : Nat) (s : State) : (advanceCounters k s).lsb = s.lsb + BitVec.ofNat 64 k := rfl
@[simp] theorem advanceCounters_offset (k : Nat) (s : State) : (advanceCounters k s).offset = s.offset + BitVec.ofNat 64 k := rfl
@[simp] theorem advanceCounters_host (k : Nat) (s : State) : (advanceCounters k s).host = s.host := rfl
@[simp] theorem advanceCounters_hostRead (k : Nat) (s : State) : (advanceCounters k s).hostRead = s.hostRead := rfl
@[simp] theorem advanceCounters_draws (k : Nat) (s : State) : (advanceCounters k s).draws = s.draws := rfl

/-! ### `clearScratch` -/

@[simp] theorem clearScratch_r (m : Memory) : (clearScratch m).r = m.r := rfl
@[simp] theorem clearScratch_kv (m : Memory) : (clearScratch m).kv = m.kv := rfl
@[simp] theorem clearScratch_tmp (m : Memory) : (clearScratch m).tmp = List.replicate 64 0 := rfl
@[simp] theorem clearScratch_tmp2 (m : Memory) : (clearScratch m).tmp2 = List.replicate 64 0 := rfl
@[simp] theorem clearScratch_out (m : Memory) : (clearScratch m).out = m.out := rfl

/-! ### `record` -/

@[simp] theorem record_j (x : Search) : (record x).j = x.j + 1 := rfl
@[simp] theorem record_last (x : Search) : (record x).last = x.st.lsb := rfl
@[simp] theorem record_lsb (x : Search) : (record x).st.lsb = x.st.lsb := rfl
@[simp] theorem record_mode (x : Search) : (record x).st.mode = x.st.mode := rfl
@[simp] theorem record_mod6 (x : Search) : (record x).st.mod6 = x.st.mod6 := rfl
@[simp] theorem record_offset (x : Search) : (record x).st.offset = x.st.offset := rfl
@[simp] theorem record_mem_r (x : Search) : (record x).st.mem.r = x.st.mem.r := rfl
@[simp] theorem record_mem_kv (x : Search) : (record x).st.mem.kv = x.st.mem.kv := rfl
@[simp] theorem record_mem_out (x : Search) : (record x).st.mem.out = x.st.mem.out.set x.j x.st.lsb := rfl

end Sys2Proof.Machine
end

