-- ==== Sys2Proof/Laws/Memory.lean ====
section
/-! SUPPORT. Memory operations keep the form of memory (`Memory.wf`), and what a lane reads as after each. -/

namespace Sys2Proof.Machine

/-- Memories of the right form that read alike at every element are equal: the form is canonical. -/
theorem Memory.eq_of_reads {m m' : Memory} (h : m.wf) (h' : m'.wf) (ho : m.out.length = m'.out.length)
    (hr : ∀ b i, laneAt b i m = laneAt b i m') (hout : ∀ i, m.out.getD i 0 = m'.out.getD i 0) : m = m' := by
  obtain ⟨h1, h2, h3, h4, h5⟩ := h
  obtain ⟨h1', h2', h3', h4', h5'⟩ := h'
  cases m
  cases m'
  simp only [Memory.mk.injEq]
  refine ⟨?_, ?_, ?_, ?_, ?_⟩
  · exact eq_of_getD 0 (h1.trans h1'.symm) fun i _ => hr .r i
  · exact eq_of_getD 0 (h2.trans h2'.symm) fun i _ => hr .kv i
  · exact eq_of_getD 0 (h3.trans h3'.symm) fun i _ => hr .tmp i
  · exact eq_of_getD 0 (h4.trans h4'.symm) fun i _ => hr .tmp2 i
  · exact eq_of_getD 0 ho fun i _ => hout i

/-! ### `setBank` and `writeGroup` -/

@[simp] theorem setBank_out (b : Bank) (l : List Lane) (m : Memory) : (setBank b l m).out = m.out := by
  cases b <;> rfl

theorem bankLanes_setBank_self {b : Bank} (h : b.writable = true) (l : List Lane) (m : Memory) :
    bankLanes b (setBank b l m) = l := by
  cases b <;> simp_all [Bank.writable, bankLanes, setBank]

theorem bankLanes_setBank_other {b c : Bank} (h : c ≠ b) (l : List Lane) (m : Memory) :
    bankLanes c (setBank b l m) = bankLanes c m := by
  cases b <;> cases c <;> simp_all [bankLanes, setBank]

/-- A write to a table is dropped. -/
theorem setBank_readOnly {b : Bank} (h : b.writable = false) (l : List Lane) (m : Memory) : setBank b l m = m := by
  cases b <;> simp_all [Bank.writable, setBank]

theorem setBank_wf {b : Bank} {l : List Lane} {m : Memory} (h : m.wf) (hl : l.length = (bankLanes b m).length) :
    (setBank b l m).wf := by
  obtain ⟨h1, h2, h3, h4, h5⟩ := h
  cases b <;> simp_all [setBank, bankLanes, Memory.wf]

theorem writeGroup_wf {m : Memory} (h : m.wf) (b : Bank) (g : BitVec 8) (l : List Lane) : (writeGroup b g l m).wf :=
  setBank_wf h (by simp)

@[simp] theorem writeGroup_out (b : Bank) (g : BitVec 8) (l : List Lane) (m : Memory) :
    (writeGroup b g l m).out = m.out := by
  simp [writeGroup]

/-- Lanes outside the group written read as before, in its bank and in every other. -/
theorem laneAt_writeGroup_outside (b : Bank) (g : BitVec 8) (l : List Lane) (m : Memory) (c : Bank) (i : Nat)
    (h : c ≠ b ∨ i < groupBase b g ∨ groupBase b g + l.length ≤ i) :
    laneAt c i (writeGroup b g l m) = laneAt c i m := by
  unfold laneAt writeGroup
  by_cases hc : c = b
  · subst hc
    cases hw : c.writable
    · rw [setBank_readOnly hw]
    · rw [bankLanes_setBank_self hw, overlay_getD_outside _ _ _ _ _ (h.resolve_left (fun h => h rfl))]
  · rw [bankLanes_setBank_other hc]

/-- A lane of the group written reads as the new lane. -/
theorem laneAt_writeGroup_inside {b : Bank} (hw : b.writable = true) (g : BitVec 8) (l : List Lane) (m : Memory)
    (j : Nat) (hj : j < l.length) (h : groupBase b g + j < (bankLanes b m).length) :
    laneAt b (groupBase b g + j) (writeGroup b g l m) = l.getD j 0 := by
  unfold laneAt writeGroup
  rw [bankLanes_setBank_self hw, overlay_getD_inside _ _ _ _ _ hj h]

/-! ### The other operations -/

theorem clearScratch_wf {m : Memory} (h : m.wf) : (clearScratch m).wf := by
  obtain ⟨h1, h2, h3, h4, h5⟩ := h
  simp [Memory.wf, *]

theorem withR_wf {m : Memory} (h : m.wf) {l : List Lane} (hl : l.length = m.r.length) :
    ({ m with r := l } : Memory).wf := by
  obtain ⟨h1, h2, h3, h4, h5⟩ := h
  simp [Memory.wf, *]

theorem withOut_wf {m : Memory} (h : m.wf) {l : List Word64} (hl : l.length = m.out.length) :
    ({ m with out := l } : Memory).wf := by
  obtain ⟨h1, h2, h3, h4, h5⟩ := h
  simp [Memory.wf, *]

theorem advanceRange_wf {base n : Nat} {ks : List Lane} {m m' : Memory} (h : m.wf)
    (ha : advanceRange base n ks m = some m') : m'.wf ∧ m'.out = m.out := by
  unfold advanceRange at ha
  split at ha
  · cases ha
  · cases ha
    exact ⟨withR_wf h (by simp), rfl⟩

theorem loseLanes_wf {s : State} (h : s.mem.wf) (base n : Nat) : (loseLanes base n s).mem.wf :=
  withR_wf h (by simp)

theorem loseOutputs_wf {s : State} (h : s.mem.wf) (count : Nat) : (loseOutputs count s).mem.wf := by
  obtain ⟨h1, h2, h3, h4, h5⟩ := h
  simp [Memory.wf, loseOutputs, unspecLanes, *]

theorem memWrite_wf {s : State} (h : s.mem.wf) (addr : BitVec 20) (v : Word64) : (memWrite addr v s).mem.wf := by
  unfold memWrite
  split
  · exact setBank_wf h (by simp)
  · split
    · exact withOut_wf h (by simp)
    · split
      · unfold writeCsr
        split <;> exact h
      · exact h

/-- A list of zeros reads as 0 everywhere. -/
theorem zeros_getD (n w i : Nat) : (List.replicate n (0 : BitVec w)).getD i 0 = 0 := by
  by_cases hi : i < n <;> simp [List.getD_eq_getElem?_getD, hi]

/-- The scratch reads as 0 after it is wiped. -/
theorem clearScratch_zero (m : Memory) (i : Nat) :
    laneAt .tmp i (clearScratch m) = 0 ∧ laneAt .tmp2 i (clearScratch m) = 0 :=
  ⟨zeros_getD _ _ _, zeros_getD _ _ _⟩

/-- Wiping the scratch leaves every other bank alone. -/
theorem clearScratch_other {b : Bank} (h1 : b ≠ .tmp) (h2 : b ≠ .tmp2) (m : Memory) (i : Nat) :
    laneAt b i (clearScratch m) = laneAt b i m := by
  cases b <;> first | rfl | exact absurd rfl h1 | exact absurd rfl h2

@[simp] theorem wipedMemory_out_length (cap : Nat) : (wipedMemory cap).out.length = cap := List.length_replicate

theorem wipedMemory_out (cap i : Nat) : (wipedMemory cap).out.getD i 0 = 0 := zeros_getD _ _ _

/-- After WIPE every lane of a writable bank is 0, and the tables read as ever. -/
theorem wipedMemory_lane (b : Bank) (i cap : Nat) (m : Memory) :
    laneAt b i (wipedMemory cap) = if b.writable then 0 else laneAt b i m := by
  cases b <;> first | exact zeros_getD _ _ _ | rfl

theorem wipedMemory_wf {cap : Nat} (h : 1 ≤ cap) : (wipedMemory cap).wf :=
  ⟨List.length_replicate, List.length_replicate, List.length_replicate, List.length_replicate, by
    rw [wipedMemory_out_length]
    exact h⟩

@[simp] theorem resetMemory_out_length (draw cap : Nat) : (resetMemory draw cap).out.length = cap := by
  simp [resetMemory]

theorem resetMemory_wf {draw cap : Nat} (h : 1 ≤ cap) : (resetMemory draw cap).wf :=
  ⟨by simp only [resetMemory, List.length_map, List.length_range], by
    simp only [resetMemory, List.length_map, List.length_range], List.length_replicate, List.length_replicate, by
    rw [resetMemory_out_length]
    exact h⟩

theorem resetMemory_scratch (draw cap i : Nat) :
    laneAt .tmp i (resetMemory draw cap) = 0 ∧ laneAt .tmp2 i (resetMemory draw cap) = 0 :=
  ⟨zeros_getD _ _ _, zeros_getD _ _ _⟩

theorem afterReset_wf (draw cap : Nat) (host : List HostAccess) (v : Word64) (h : 1 ≤ cap) :
    (State.afterReset draw cap host v).mem.wf := resetMemory_wf h

/-- Reset's memory has the form. -/
theorem reset_mem_wf : State.reset.mem.wf := afterReset_wf _ _ _ _ (by simp [Config.outCap])

end Sys2Proof.Machine
end

