-- ==== Sys2Proof/Laws/Tables.lean ====
section
/-! SUPPORT. The tables of RDE: lengths, bounds, primality of the entries, and each derived table from `PRIMES`. -/

namespace Sys2Proof.Machine

/-! ### Facts of the list of primes, by evaluation -/

theorem primeNats_length : primeNats.length = 3456 := by decide +kernel

/-- Every entry is odd, from 5 to 32237, and its `MULT` is at least 16411 (R11, R15). -/
theorem primeNats_bounds :
    (primeNats.all fun p =>
      Nat.ble 5 p && Nat.ble p 32237 && Nat.beq (p % 2) 1 && Nat.ble 16411 (p * (32768 / p))) = true := by
  decide +kernel

/-- The product of the primes up to 179, the largest prime whose square is not above 32237. -/
def smallPrimorial : Nat :=
  2 * 3 * 5 * 7 * 11 * 13 * 17 * 19 * 23 * 29 * 31 * 37 * 41 * 43 * 47 * 53 * 59 * 61 * 67 * 71 * 73 * 79 * 83 * 89 *
    97 * 101 * 103 * 107 * 109 * 113 * 127 * 131 * 137 * 139 * 149 * 151 * 157 * 163 * 167 * 173 * 179

/-- Every entry is one of the primes up to 179 or has no factor among them. -/
theorem primeNats_trial :
    (primeNats.all fun p => Nat.ble p 179 || Nat.beq (Nat.gcd p smallPrimorial) 1) = true := by
  decide +kernel

/-- The entries up to 179 are primes. -/
theorem primeNats_small : (primeNats.all fun p => !Nat.ble p 179 || decide (Nat.Prime p)) = true := by
  decide +kernel

/-- A list rises strictly. -/
def ascending : List Nat → Bool
  | [] => true
  | [_] => true
  | a :: b :: l => Nat.blt a b && ascending (b :: l)

theorem primeNats_ascending : ascending primeNats = true := by decide +kernel

theorem isChain_of_ascending : ∀ {l : List Nat}, ascending l = true → l.IsChain (· < ·)
  | [], _ => .nil
  | [_], _ => .singleton _
  | a :: b :: l, h => by
    simp only [ascending, Bool.and_eq_true] at h
    exact .cons_cons (by simpa [Nat.blt] using h.1) (isChain_of_ascending h.2)

theorem primeNats_pairwise : primeNats.Pairwise (· < ·) :=
  List.isChain_iff_pairwise.mp (isChain_of_ascending primeNats_ascending)

/-- A number from 180 to 32399 without a prime factor up to 179 is prime. -/
theorem prime_of_coprime_smallPrimorial {p : Nat} (h1 : 179 < p) (h2 : p < 180 * 180)
    (h : Nat.gcd p smallPrimorial = 1) : p.Prime := by
  by_contra hp
  have hq := Nat.minFac_prime (n := p) (by omega)
  have hdvd := Nat.minFac_dvd p
  have hsq := Nat.minFac_sq_le_self (n := p) (by omega) hp
  set q := p.minFac with hqdef
  have hlt : q < 180 := by nlinarith
  have hq' : q ∣ smallPrimorial := by
    clear_value q
    have : ∀ n < 180, n.Prime → n ∣ smallPrimorial := by decide +kernel
    exact this q hlt hq
  have : q ∣ 1 := h ▸ Nat.dvd_gcd hdvd hq'
  exact hq.one_lt.ne' (Nat.dvd_one.mp this)

/-- Every entry is prime (R11). -/
theorem primeNats_prime {p : Nat} (h : p ∈ primeNats) : p.Prime := by
  have hb := List.all_eq_true.mp primeNats_bounds p h
  have ht := List.all_eq_true.mp primeNats_trial p h
  have hs := List.all_eq_true.mp primeNats_small p h
  simp only [Bool.and_eq_true, Bool.or_eq_true, Bool.not_eq_true', decide_eq_true_eq, Nat.ble_eq,
    Nat.beq_eq] at hb ht hs
  by_cases hp : p ≤ 179
  · rcases hs with hs | hs
    · exact absurd hs (by simpa using hp)
    · exact hs
  · exact prime_of_coprime_smallPrimorial (by omega) (by omega) (ht.resolve_left hp)

/-! ### The tables at an index -/

@[simp] theorem primesTable_length : primesTable.length = 3456 := by simp [primesTable, primeNats_length]
@[simp] theorem invTable_length : invTable.length = 3456 := by simp [invTable]
@[simp] theorem limitTable_length : limitTable.length = 3456 := by simp [limitTable]
@[simp] theorem m2rTable_length : m2rTable.length = 3456 := by simp [m2rTable]

theorem primeNats_getD_mem {i : Nat} (h : i < 3456) : primeNats.getD i 0 ∈ primeNats := by
  have h' : i < primeNats.length := by rw [primeNats_length]; exact h
  rw [List.getD_eq_getElem _ _ h']
  exact List.getElem_mem h'

theorem primeNats_entry {i : Nat} (h : i < 3456) :
    5 ≤ primeNats.getD i 0 ∧ primeNats.getD i 0 < 2 ^ 15 ∧ primeNats.getD i 0 % 2 = 1 ∧
      16411 ≤ primeNats.getD i 0 * (2 ^ 15 / primeNats.getD i 0) := by
  have hb := List.all_eq_true.mp primeNats_bounds _ (primeNats_getD_mem h)
  simp only [Bool.and_eq_true, Nat.ble_eq, Nat.beq_eq] at hb
  rw [show (2 : Nat) ^ 15 = 32768 from rfl]
  omega

/-- `p_i` is the entry of the list of primes. -/
theorem primeAt_eq {i : Nat} (h : i < 3456) : primeAt i = primeNats.getD i 0 := by
  have h' : i < primeNats.length := by rw [primeNats_length]; exact h
  have hb := primeNats_entry h
  unfold primeAt primesTable
  rw [List.getD_eq_getElem _ _ (by simpa using h')] at *
  rw [List.getD_eq_getElem _ _ h'] at *
  simp only [List.getElem_map, BitVec.toNat_ofNat]
  omega

/-- `5 <= p_i < 2^15`, `p_i` odd (R11), and `MULT[i] >= 16411` (R15). -/
theorem primeAt_bounds {i : Nat} (h : i < 3456) :
    5 ≤ primeAt i ∧ primeAt i < 2 ^ 15 ∧ primeAt i % 2 = 1 ∧ 16411 ≤ primeAt i * (2 ^ 15 / primeAt i) := by
  rw [primeAt_eq h]
  exact primeNats_entry h

theorem primeAt_prime {i : Nat} (h : i < 3456) : (primeAt i).Prime := by
  rw [primeAt_eq h]
  exact primeNats_prime (primeNats_getD_mem h)

theorem primeAt_lt {i j : Nat} (hij : i < j) (hj : j < 3456) : primeAt i < primeAt j := by
  have h1 : i < primeNats.length := by rw [primeNats_length]; omega
  have h2 : j < primeNats.length := by rw [primeNats_length]; omega
  rw [primeAt_eq (by omega), primeAt_eq hj, List.getD_eq_getElem _ _ h1, List.getD_eq_getElem _ _ h2]
  exact List.pairwise_iff_getElem.mp primeNats_pairwise i j h1 h2 hij

/-- The primes of different lanes are coprime. -/
theorem primeAt_coprime {i j : Nat} (hi : i < 3456) (hj : j < 3456) (h : i ≠ j) :
    (primeAt i).Coprime (primeAt j) := by
  apply (Nat.coprime_primes (primeAt_prime hi) (primeAt_prime hj)).mpr
  rcases Nat.lt_or_gt_of_ne h with h | h
  · exact (primeAt_lt h hj).ne
  · exact (primeAt_lt h hi).ne'

theorem getD_map_table (f : Lane → Lane) {i : Nat} (h : i < 3456) :
    (primesTable.map f).getD i 0 = f (primesTable.getD i 0) := by
  have h' : i < primesTable.length := by simpa using h
  rw [List.getD_eq_getElem _ _ (by simpa using h), List.getD_eq_getElem _ _ h', List.getElem_map]

theorem limitAt_eq {i : Nat} (h : i < 3456) : limitAt i = (2 ^ 16 - 1) / primeAt i := by
  unfold limitAt limitTable
  rw [getD_map_table _ h]
  simp only [limitOf, BitVec.toNat_ofNat]
  exact Nat.mod_eq_of_lt (Nat.lt_of_le_of_lt (Nat.div_le_self _ _) (by norm_num))

/-- `MULT[i]` is positive and below 2^16, so `M2R[i]` is the exact difference. -/
theorem m2rAt_eq {i : Nat} (h : i < 3456) : m2rAt i = 2 ^ 16 - primeAt i * (2 ^ 15 / primeAt i) := by
  have hb := primeAt_bounds h
  unfold m2rAt m2rTable
  rw [getD_map_table _ h]
  show (BitVec.ofNat 16 (2 ^ 16 - primeAt i * (2 ^ 15 / primeAt i))).toNat = _
  rw [BitVec.toNat_ofNat]
  exact Nat.mod_eq_of_lt (by omega)

/-! ### Inverses (R12) -/

/-- One Newton step squares the error. -/
theorem inverseStep_error (p x : Lane) : 1 - p * inverseStep p x = (1 - p * x) * (1 - p * x) := by
  unfold inverseStep
  ring

/-- `inverseOf` gives the inverse modulo 2^16 of every odd lane value. -/
theorem mul_inverseOf {p : Lane} (h : p.toNat % 2 = 1) : p * inverseOf p = 1 := by
  have herr : 1 - p * inverseOf p = (1 - p * p) ^ 8 := by
    simp only [inverseOf, inverseStep_error]
    ring
  obtain ⟨c, hc⟩ : ∃ c : Lane, 1 - p * p = 8 * c := by
    obtain ⟨a, ha⟩ : ∃ a, p.toNat = 2 * a + 1 := ⟨p.toNat / 2, by omega⟩
    obtain ⟨b, hb⟩ : ∃ b, a * (a + 1) = 2 * b := (Nat.even_mul_succ_self a).two_dvd
    refine ⟨-BitVec.ofNat 16 b, ?_⟩
    have hp : p = BitVec.ofNat 16 (2 * a + 1) := by rw [← ha]; simp
    have hpp : p * p = 1 + 8 * BitVec.ofNat 16 b := by
      rw [hp, ← BitVec.ofNat_mul, show (2 * a + 1) * (2 * a + 1) = 1 + 8 * b by nlinarith, BitVec.ofNat_add,
        BitVec.ofNat_mul]
      rfl
    rw [hpp]
    ring
  have hz : 1 - p * inverseOf p = 0 := by
    rw [herr, hc, mul_pow, show (8 : Lane) ^ 8 = 0 by decide]
    ring
  exact (sub_eq_zero.mp hz).symm

/-- `PRIMES[i] * INV[i] = 1` modulo 2^16 (R12). -/
theorem primeAt_mul_invAt {i : Nat} (h : i < 3456) : primeAt i * invAt i % 2 ^ 16 = 1 := by
  have hb := primeAt_bounds h
  unfold invAt invTable
  rw [getD_map_table _ h]
  unfold primeAt at hb ⊢
  have := congrArg BitVec.toNat (mul_inverseOf (p := primesTable.getD i 0) hb.2.2.1)
  simpa [BitVec.toNat_mul] using this

end Sys2Proof.Machine
end

