-- ==== Sys2Proof/Laws/Ops.lean ====
section
/-! SUPPORT. What each shared operation does, said once: the lane datapath as numbers, group primitives, advances,
testers. -/

namespace Sys2Proof.Machine

/-! ### The lane datapath as numbers (R81 to R88) -/

theorem laneMul_toNat (a b : Lane) : (laneMul a b).toNat = a.toNat * b.toNat % 2 ^ 16 := by
  simp [laneMul]

theorem laneShl1Add_toNat (v a : Lane) : (laneShl1Add v a).toNat = (2 * v.toNat + a.toNat) % 2 ^ 16 := by
  simp only [laneShl1Add, BitVec.toNat_add, BitVec.toNat_shiftLeft, Nat.shiftLeft_eq]
  omega

theorem laneMin_toNat (a b : Lane) : (laneMin a b).toNat = min a.toNat b.toNat := by
  unfold laneMin
  split <;> omega

theorem laneOr_toNat (a b : Lane) : (laneOr a b).toNat = a.toNat ||| b.toNat := by
  simp [laneOr]

theorem laneAdd_toNat (v k : Lane) : (laneAdd v k).toNat = (v.toNat + k.toNat) % 2 ^ 16 := by
  simp [laneAdd]

theorem laneLeMask_toNat (v lim : Lane) :
    (laneLeMask v lim).toNat = if v.toNat ≤ lim.toNat then 0xFFFF else 0 := by
  unfold laneLeMask
  split <;> rfl

theorem laneFold_toNat (v m : Lane) :
    (laneFold v m).toNat = if 0x8000 ≤ v.toNat then (v.toNat + m.toNat) % 2 ^ 16 else v.toNat := by
  unfold laneFold
  split <;> simp [BitVec.toNat_add]

/-- Add and fold, without a carry, is `advancedLane` (R103). -/
theorem laneFold_laneAdd_toNat {i : Nat} {v k : Lane} (h : v.toNat + k.toNat < 2 ^ 16) :
    (laneFold (laneAdd v k) (m2rTable.getD i 0)).toNat = advancedLane i v.toNat k.toNat := by
  rw [laneFold_toNat, laneAdd_toNat, Nat.mod_eq_of_lt h]
  rfl

/-! ### Lanes and banks -/

theorem bankLanes_length {b : Bank} {m : Memory} (h : m.wf) :
    (bankLanes b m).length = if b.scratch then 64 else 3456 := by
  obtain ⟨h1, h2, h3, h4, h5⟩ := h
  cases b <;> simp [bankLanes, Bank.scratch, *]

/-- Every lane of a legal group operand is there (R63, R65). -/
theorem groupBase_lt {b : Bank} {g : BitVec 8} {m : Memory} (h : m.wf) (hg : b.scratch = true ∨ g.toNat ≤ 215)
    {l : Nat} (hl : l < 16) : groupBase b g + l < (bankLanes b m).length := by
  rw [bankLanes_length h]
  unfold groupBase
  cases hb : b.scratch
  · have := hg.resolve_left (by simp [hb])
    simp
    omega
  · simp
    omega

/-- A bank of a legal group command has the group. -/
theorem groupIndexOk_mem {banks : List Bank} {g : BitVec 8} (h : groupIndexOk banks g = true) {b : Bank}
    (hb : b ∈ banks) : b.scratch = true ∨ g.toNat ≤ 215 := by
  unfold groupIndexOk at h
  simp only [Bool.or_eq_true, List.all_eq_true, decide_eq_true_eq] at h
  exact h.imp (fun h => h b hb) id

theorem readGroup_getD (b : Bank) (g : BitVec 8) (m : Memory) {l : Nat} (hl : l < 16) :
    (readGroup b g m).getD l 0 = laneAt b (groupBase b g + l) m := slice_getD _ _ _ _ _ hl

theorem readGroup_length {b : Bank} {g : BitVec 8} {m : Memory} (h : m.wf)
    (hg : b.scratch = true ∨ g.toNat ≤ 215) : (readGroup b g m).length = 16 := by
  have h15 := groupBase_lt h hg (l := 15) (by omega)
  simp only [readGroup, slice_length]
  omega

/-- The lanes a group primitive with two sources writes (R80). -/
theorem group2_lane {f : Lane → Lane → Lane} {d a b : Bank} {g : BitVec 8} {s : State} (hm : s.mem.wf)
    (hd : d.writable = true) (hgd : d.scratch = true ∨ g.toNat ≤ 215) (hga : a.scratch = true ∨ g.toNat ≤ 215)
    (hgb : b.scratch = true ∨ g.toNat ≤ 215) {l : Nat} (hl : l < 16) :
    laneAt d (groupBase d g + l) (group2 f d a b g s).mem =
      f (laneAt a (groupBase a g + l) s.mem) (laneAt b (groupBase b g + l) s.mem) := by
  have ha := readGroup_length hm hga
  have hb := readGroup_length hm hgb
  simp only [group2, complete_mem]
  rw [laneAt_writeGroup_inside hd _ _ _ _ (by simp [ha, hb, hl]) (groupBase_lt hm hgd hl),
    zipWith_getD _ _ _ _ 0 0 _ (by omega) (by omega), readGroup_getD _ _ _ hl, readGroup_getD _ _ _ hl]

/-- A group primitive with two sources leaves every other lane alone. -/
theorem group2_outside {f : Lane → Lane → Lane} {d a b : Bank} {g : BitVec 8} {s : State} (hm : s.mem.wf)
    (hga : a.scratch = true ∨ g.toNat ≤ 215) (hgb : b.scratch = true ∨ g.toNat ≤ 215) {c : Bank} {i : Nat}
    (h : ¬ (c = d ∧ groupBase d g ≤ i ∧ i < groupBase d g + 16)) :
    laneAt c i (group2 f d a b g s).mem = laneAt c i s.mem := by
  have ha := readGroup_length hm hga
  have hb := readGroup_length hm hgb
  simp only [group2, complete_mem]
  apply laneAt_writeGroup_outside
  simp only [List.length_zipWith, ha, hb]
  by_cases hc : c = d
  · right
    simp only [hc, true_and] at h
    omega
  · exact .inl hc

/-! ### Advance (R103, R104, R121) -/

theorem residueAt_eq (i : Nat) (m : Memory) : (m.r.getD i 0).toNat = residueAt i m := rfl

/-- An advance of a range of `R` aborts exactly when some lane carries. -/
theorem advanceRange_none_iff {base n : Nat} {ks : List Lane} {m : Memory} (hm : m.wf) (hr : base + n ≤ 3456)
    (hk : ks.length = n) :
    advanceRange base n ks m = none ↔ ∃ i < n, 2 ^ 16 ≤ residueAt (base + i) m + (ks.getD i 0).toNat := by
  have hl : (slice base n m.r).length = n := by simp [hm.1]; omega
  unfold advanceRange advanceLanes
  have key := zipWith_any_iff laneCarries (slice base n m.r) ks 0 0
  by_cases hc : (List.zipWith laneCarries (slice base n m.r) ks).any id = true
  · simp only [hc, if_true, true_iff]
    obtain ⟨i, h1, h2, h3⟩ := key.mp hc
    rw [hl] at h1
    rw [slice_getD _ _ _ _ _ h1] at h3
    exact ⟨i, h1, of_decide_eq_true h3⟩
  · simp only [if_neg hc]
    constructor
    · intro h
      cases h
    · rintro ⟨i, h1, h2⟩
      refine absurd (key.mpr ⟨i, by omega, by omega, ?_⟩) hc
      rw [slice_getD _ _ _ _ _ h1]
      exact decide_eq_true h2

/-- What an advance of a range of `R` does when it answers: no lane carried, the lanes of the range are advanced, the
others and every other space are as before. -/
theorem advanceRange_some {base n : Nat} {ks : List Lane} {m m' : Memory} (hm : m.wf) (hr : base + n ≤ 3456)
    (hk : ks.length = n) (h : advanceRange base n ks m = some m') :
    (∀ i < n, residueAt (base + i) m + (ks.getD i 0).toNat < 2 ^ 16) ∧
    (∀ i < n, residueAt (base + i) m' = advancedLane (base + i) (residueAt (base + i) m) (ks.getD i 0).toNat) ∧
    (∀ i, i < base ∨ base + n ≤ i → m'.r.getD i 0 = m.r.getD i 0) ∧ m' = { m with r := m'.r } ∧ m'.wf := by
  have hno : ∀ i < n, residueAt (base + i) m + (ks.getD i 0).toNat < 2 ^ 16 := by
    intro i hi
    by_contra hc
    have := (advanceRange_none_iff hm hr hk).mpr ⟨i, hi, by omega⟩
    rw [h] at this
    cases this
  have hwf := (advanceRange_wf hm h).1
  have hl : (slice base n m.r).length = n := by simp [hm.1]; omega
  have hl2 : (slice base n m2rTable).length = n := by simp; omega
  unfold advanceRange advanceLanes at h
  split at h
  · cases h
  · rename_i hx
    split at hx
    · cases hx
    · cases hx
      cases h
      refine ⟨hno, ?_, ?_, rfl, hwf⟩
      · intro i hi
        have hi' : base + i < m.r.length := by rw [hm.1]; omega
        rw [← residueAt_eq, overlay_getD_inside _ _ _ _ _ (by simp only [map3_length]; omega) hi',
          map3_getD _ _ _ _ _ 0 0 0 _ (by omega) (by omega) (by omega), slice_getD _ _ _ _ _ hi,
          slice_getD _ _ _ _ _ hi]
        exact laneFold_laneAdd_toNat (hno i hi)
      · intro i hi
        exact overlay_getD_outside _ _ _ _ _ (by simp only [map3_length]; omega)

/-- Advancing is possible when no lane carries. -/
theorem advanceRange_exists {base n : Nat} {ks : List Lane} {m : Memory} (hm : m.wf) (hr : base + n ≤ 3456)
    (hk : ks.length = n) (h : ∀ i < n, residueAt (base + i) m + (ks.getD i 0).toNat < 2 ^ 16) :
    ∃ m', advanceRange base n ks m = some m' := by
  cases ha : advanceRange base n ks m with
  | some m' => exact ⟨m', rfl⟩
  | none =>
    obtain ⟨i, h1, h2⟩ := (advanceRange_none_iff hm hr hk).mp ha
    exact absurd (h i h1) (by omega)

theorem replicate_getD {n i : Nat} (k : Lane) (h : i < n) : (List.replicate n k).getD i 0 = k := by
  simp [List.getD_eq_getElem?_getD, h]

/-- `AdvBlockScalar` over `n` blocks from block `b` on: what it does when it answers. -/
theorem advBlocksScalar_some {b n k : Nat} {m m' : Memory} (hm : m.wf) (hr : b + n ≤ 54) (hk : k < 2 ^ 16)
    (h : advBlocksScalar b n k m = some m') :
    (∀ i, 64 * b ≤ i → i < 64 * (b + n) → residueAt i m + k < 2 ^ 16) ∧
    (∀ i, 64 * b ≤ i → i < 64 * (b + n) → residueAt i m' = advancedLane i (residueAt i m) k) ∧
    (∀ i, i < 64 * b ∨ 64 * (b + n) ≤ i → m'.r.getD i 0 = m.r.getD i 0) ∧ m' = { m with r := m'.r } ∧ m'.wf := by
  obtain ⟨h1, h2, h3, h4, h5⟩ := advanceRange_some hm (by omega) (by simp) h
  have hk' : (BitVec.ofNat 16 k).toNat = k := by simpa using Nat.mod_eq_of_lt hk
  refine ⟨?_, ?_, ?_, h4, h5⟩
  · intro i hi1 hi2
    have := h1 (i - 64 * b) (by omega)
    rwa [replicate_getD _ (by omega), hk', show 64 * b + (i - 64 * b) = i by omega] at this
  · intro i hi1 hi2
    have := h2 (i - 64 * b) (by omega)
    rwa [replicate_getD _ (by omega), hk', show 64 * b + (i - 64 * b) = i by omega] at this
  · intro i hi
    exact h3 i (by omega)

/-- `AdvBlockScalar` over blocks aborts exactly when some lane carries. -/
theorem advBlocksScalar_none_iff {b n k : Nat} {m : Memory} (hm : m.wf) (hr : b + n ≤ 54) (hk : k < 2 ^ 16) :
    advBlocksScalar b n k m = none ↔ ∃ i, 64 * b ≤ i ∧ i < 64 * (b + n) ∧ 2 ^ 16 ≤ residueAt i m + k := by
  have hk' : (BitVec.ofNat 16 k).toNat = k := by simpa using Nat.mod_eq_of_lt hk
  unfold advBlocksScalar
  rw [advanceRange_none_iff hm (by omega) (by simp)]
  constructor
  · rintro ⟨i, h1, h2⟩
    rw [replicate_getD _ h1, hk'] at h2
    exact ⟨64 * b + i, by omega, by omega, h2⟩
  · rintro ⟨i, h1, h2, h3⟩
    refine ⟨i - 64 * b, by omega, ?_⟩
    rwa [replicate_getD _ (by omega), hk', show 64 * b + (i - 64 * b) = i by omega]

/-- A lane below 2^15 advanced by at most its `MULT` stays below 2^15, and an advance that does not carry keeps the
residue: `p` divides what the fold subtracts (R14, R17). -/
theorem advancedLane_mod {i v k : Nat} (hi : i < 3456) (h : v + k < 2 ^ 16) :
    advancedLane i v k % primeAt i = (v + k) % primeAt i := by
  unfold advancedLane
  split
  · have hb := primeAt_bounds hi
    rw [m2rAt_eq hi]
    have hle : primeAt i * (2 ^ 15 / primeAt i) ≤ 2 ^ 15 := Nat.mul_div_le _ _
    rw [show (v + k + (2 ^ 16 - primeAt i * (2 ^ 15 / primeAt i))) % 2 ^ 16 =
      v + k - primeAt i * (2 ^ 15 / primeAt i) by omega]
    exact Nat.sub_mul_mod (by omega)
  · rfl

theorem advancedLane_lt {i v k : Nat} (hi : i < 3456) (hv : v < 2 ^ 15) (hk : k ≤ 16411) :
    advancedLane i v k < 2 ^ 15 := by
  have hb := primeAt_bounds hi
  unfold advancedLane
  split
  · rw [m2rAt_eq hi]
    have hle : primeAt i * (2 ^ 15 / primeAt i) ≤ 2 ^ 15 := Nat.mul_div_le _ _
    omega
  · omega

/-- Advancing a lane in range by 0 changes nothing. -/
theorem advancedLane_zero {i v : Nat} (hv : v < 2 ^ 15) : advancedLane i v 0 = v := by
  unfold advancedLane
  rw [if_neg (by omega)]
  rfl

/-! ### Tiers -/

/-- The lanes of a tier are its blocks. -/
theorem tierBlocks_mul (m : BitVec 16) : 64 * tierBlocks m = tierLanes m ∧ tierBlocks m ≤ 54 ∧ tierLanes m ≤ 3456 := by
  unfold tierBlocks tierLanes
  repeat' split
  all_goals omega

/-- A valid mode has a tier of 9, 29 or 54 blocks. -/
theorem tierBlocks_of_valid {m : BitVec 16} (h : modeValid m = true) :
    tierBlocks m = 9 ∨ tierBlocks m = 29 ∨ tierBlocks m = 54 := by
  simp only [modeValid, Bool.and_eq_true, Bool.or_eq_true, beq_iff_eq] at h
  unfold tierBlocks tierLanes
  rcases h.2 with (h | h) | h <;> simp [h]

/-! ### Testers (R105 to R107, R123) -/

theorem maskLane_zero_iff (k : Kind) (i : Nat) (v : Lane) :
    maskLane k v (invTable.getD i 0) (limitTable.getD i 0) = 0 ↔ passes k i v.toNat := by
  have hmask : ∀ w : Lane, laneLeMask w (limitTable.getD i 0) = 0 ↔ limitAt i < w.toNat := by
    intro w
    rw [← BitVec.toNat_inj, laneLeMask_toNat]
    show (if w.toNat ≤ limitAt i then 0xFFFF else 0) = 0 ↔ _
    split <;> simp <;> omega
  cases k with
  | plain =>
    simp only [maskLane, hmask, passes, firstProduct, secondValue, laneMul_toNat]
    simp only [invAt, Nat.min_self]
  | twin =>
    simp only [maskLane, hmask, passes, firstProduct, secondValue, laneMul_toNat, laneMin_toNat, laneShl1Add_toNat]
    rfl
  | safe =>
    simp only [maskLane, hmask, passes, firstProduct, secondValue, laneMul_toNat, laneMin_toNat, laneShl1Add_toNat]
    rfl

theorem zeroTest_iff (l : List Lane) : zeroTest l = true ↔ ∀ j < l.length, l.getD j 0 = 0 := by
  unfold zeroTest
  rw [List.all_eq_true]
  constructor
  · intro h j hj
    rw [List.getD_eq_getElem _ _ hj]
    simpa using h _ (List.getElem_mem hj)
  · intro h x hx
    obtain ⟨j, hj, rfl⟩ := List.getElem_of_mem hx
    have := h j hj
    rw [List.getD_eq_getElem _ _ hj] at this
    simpa using this

/-- `NoFactor(b)`: every lane of the block passes. -/
theorem noFactor_iff {k : Kind} {b : Nat} {m : Memory} (hm : m.wf) (hb : b < 54) :
    noFactor k b m = true ↔ ∀ i, 64 * b ≤ i → i < 64 * b + 64 → passes k i (residueAt i m) := by
  have h1 : (slice (64 * b) 64 m.r).length = 64 := by simp [hm.1]; omega
  have h2 : (slice (64 * b) 64 invTable).length = 64 := by simp; omega
  have h3 : (slice (64 * b) 64 limitTable).length = 64 := by simp; omega
  unfold noFactor
  rw [zeroTest_iff, map3_length, h1, h2, h3]
  have hlane : ∀ j < 64, (map3 (maskLane k) (slice (64 * b) 64 m.r) (slice (64 * b) 64 invTable)
      (slice (64 * b) 64 limitTable)).getD j 0 = 0 ↔ passes k (64 * b + j) (residueAt (64 * b + j) m) := by
    intro j hj
    rw [map3_getD _ _ _ _ _ 0 0 0 _ (by omega) (by omega) (by omega), slice_getD _ _ _ _ _ hj,
      slice_getD _ _ _ _ _ hj, slice_getD _ _ _ _ _ hj, maskLane_zero_iff, residueAt_eq]
  constructor
  · intro h i hi1 hi2
    have := (hlane (i - 64 * b) (by omega)).mp (h (i - 64 * b) (by omega))
    rwa [show 64 * b + (i - 64 * b) = i by omega] at this
  · intro h j hj
    exact (hlane j (by omega)).mpr (h (64 * b + j) (by omega) (by omega))

theorem noFactorBlocks_iff {k : Kind} {first n : Nat} {m : Memory} (hm : m.wf) (hb : first + n ≤ 54) :
    noFactorBlocks k first n m = true ↔
      ∀ i, 64 * first ≤ i → i < 64 * (first + n) → passes k i (residueAt i m) := by
  unfold noFactorBlocks
  rw [List.all_eq_true]
  constructor
  · intro h i hi1 hi2
    have := h (i / 64) (by rw [List.mem_range'_1]; omega)
    exact (noFactor_iff hm (by omega)).mp this i (by omega) (by omega)
  · intro h b hb'
    rw [List.mem_range'_1] at hb'
    exact (noFactor_iff hm (by omega)).mpr fun i hi1 hi2 => h i (by omega) (by omega)

/-- `TestTier`: every lane of the tier passes. -/
theorem testTier_iff {k : Kind} {nb : Nat} {m : Memory} (hm : m.wf) (h1 : 1 ≤ nb) (h54 : nb ≤ 54) :
    testTier k nb m = true ↔ ∀ i < 64 * nb, passes k i (residueAt i m) := by
  unfold testTier
  rw [Bool.and_eq_true, noFactor_iff hm (by omega), noFactorBlocks_iff hm (by omega)]
  constructor
  · rintro ⟨ha, hb⟩ i hi
    by_cases h : i < 64
    · exact ha i (by omega) (by omega)
    · exact hb i (by omega) (by omega)
  · intro h
    exact ⟨fun i _ hi => h i (by omega), fun i _ hi => h i (by omega)⟩

/-! ### INIT's checks (R127) -/

theorem someLaneUnreduced_iff {n : Nat} {m : Memory} (hm : m.wf) (hn : n ≤ 3456) :
    someLaneUnreduced n m = true ↔ ∃ i < n, primeAt i ≤ residueAt i m := by
  have h1 : (slice 0 n m.r).length = n := by simp [hm.1]; omega
  have h2 : (slice 0 n primesTable).length = n := by simp; omega
  unfold someLaneUnreduced
  rw [zipWith_any_iff _ _ _ 0 0]
  constructor
  · rintro ⟨i, ha, hb, hc⟩
    rw [slice_getD _ _ _ _ _ (by omega), slice_getD _ _ _ _ _ (by omega), Nat.zero_add] at hc
    exact ⟨i, by omega, of_decide_eq_true hc⟩
  · rintro ⟨i, ha, hb⟩
    refine ⟨i, by omega, by omega, ?_⟩
    rw [slice_getD _ _ _ _ _ (by omega), slice_getD _ _ _ _ _ (by omega), Nat.zero_add]
    exact decide_eq_true hb

theorem mod6Odd_iff (m : BitVec 3) : mod6Odd m = true ↔ m.toNat = 1 ∨ m.toNat = 3 ∨ m.toNat = 5 := by
  revert m
  decide

theorem lsbBit_false_iff (w : Word64) : w.getLsbD 0 = false ↔ w.toNat % 2 = 0 := by
  simp [BitVec.getLsbD, Nat.testBit_zero]

end Sys2Proof.Machine
end

