-- ==== Sys2Proof/Laws/Testers.lean ====
section
/-! SUPPORT. What a lane that passes says of the candidate it stands for (spec/41_block_primitives.md R105 to R108). -/

namespace Sys2Proof.Machine

/-- Numbers with one residue have the same divisor. -/
theorem dvd_congr {p a b : Nat} (h : a % p = b % p) : p ∣ a ↔ p ∣ b := by
  rw [Nat.dvd_iff_mod_eq_zero, Nat.dvd_iff_mod_eq_zero, h]

/-- For a lane `v` of a candidate `q`, in the exact range of the kind, passing the tester and having no factor are
one thing. -/
theorem passes_iff_factorFree {k : Kind} {i v q : Nat} (hi : i < 3456) (he : exactValue k v)
    (hq : v % primeAt i = q % primeAt i) : passes k i v ↔ factorFree k (primeAt i) q = true := by
  have hb := primeAt_bounds hi
  have hinv := primeAt_mul_invAt hi
  have reject : ∀ a < 2 ^ 16, limitAt i < a * invAt i % 2 ^ 16 ↔ ¬ primeAt i ∣ a := by
    intro a ha
    rw [limitAt_eq hi, ← Nat.not_le, not_iff_not, Nat.le_div_iff_mul_le (by omega)]
    constructor
    · intro h
      have h2 : a * invAt i % 2 ^ 16 * primeAt i % 2 ^ 16 = a := by
        rw [Nat.mod_mul_mod, show a * invAt i * primeAt i = a * (primeAt i * invAt i) by ring, Nat.mul_mod, hinv,
          Nat.mul_one, Nat.mod_mod, Nat.mod_eq_of_lt ha]
      rw [Nat.mod_eq_of_lt (by omega)] at h2
      exact ⟨a * invAt i % 2 ^ 16, by rw [Nat.mul_comm]; exact h2.symm⟩
    · rintro ⟨c, rfl⟩
      have h2 : primeAt i * c * invAt i % 2 ^ 16 = c % 2 ^ 16 := by
        rw [show primeAt i * c * invAt i = c * (primeAt i * invAt i) by ring, Nat.mul_mod, hinv, Nat.mul_one,
          Nat.mod_mod]
      rw [h2]
      have h3 : c % 2 ^ 16 * primeAt i ≤ c * primeAt i := Nat.mul_le_mul_right _ (Nat.mod_le c (2 ^ 16))
      rw [Nat.mul_comm c] at h3
      omega
  have hfirst : firstProduct i v = v * invAt i % 2 ^ 16 := rfl
  cases k with
  | plain =>
    simp only [exactValue] at he
    simp only [passes, secondValue, Nat.min_self, factorFree]
    rw [hfirst, reject v he, dvd_congr hq, Nat.dvd_iff_mod_eq_zero, bne_iff_ne]
  | twin =>
    simp only [exactValue] at he
    have h2 : (2 * invAt i + v * invAt i % 2 ^ 16) % 2 ^ 16 = (v + 2) * invAt i % 2 ^ 16 := by
      rw [Nat.add_mod_mod]
      congr 1
      ring
    have hq2 : (v + 2) % primeAt i = (q + 2) % primeAt i := by rw [Nat.add_mod, hq, ← Nat.add_mod]
    simp only [passes, secondValue, factorFree, Nat.lt_min, Bool.and_eq_true, bne_iff_ne, ne_eq]
    rw [hfirst, h2, reject v (by omega), reject (v + 2) (by omega), dvd_congr hq, dvd_congr hq2,
      Nat.dvd_iff_mod_eq_zero, Nat.dvd_iff_mod_eq_zero]
  | safe =>
    simp only [exactValue] at he
    have h2 : (2 * (v * invAt i % 2 ^ 16) + invAt i) % 2 ^ 16 = (2 * v + 1) * invAt i % 2 ^ 16 := by
      rw [Nat.add_mod, Nat.mul_mod_mod, ← Nat.add_mod]
      congr 1
      ring
    have hq2 : (2 * v + 1) % primeAt i = (2 * q + 1) % primeAt i := by
      rw [Nat.add_mod, Nat.mul_mod, hq, ← Nat.mul_mod, ← Nat.add_mod]
    simp only [passes, secondValue, factorFree, Nat.lt_min, Bool.and_eq_true, bne_iff_ne, ne_eq]
    rw [hfirst, h2, reject v (by omega), reject (2 * v + 1) (by omega), dvd_congr hq, dvd_congr hq2,
      Nat.dvd_iff_mod_eq_zero, Nat.dvd_iff_mod_eq_zero]

/-- Every lane in range is in the exact range of each kind (R108). -/
theorem exactValue_of_lt {k : Kind} {v : Nat} (h : v < 2 ^ 15) : exactValue k v := by
  cases k <;> simp only [exactValue] <;> omega

/-- A block in range that stands for `q` passes exactly when `q` has no factor among its primes. -/
theorem noFactor_iff_factorFree {k : Kind} {b q : Nat} {m : Memory} (hm : m.wf) (hb : b < 54)
    (hr : ∀ i, 64 * b ≤ i → i < 64 * b + 64 → residueAt i m < 2 ^ 15)
    (hq : ∀ i, 64 * b ≤ i → i < 64 * b + 64 → residueAt i m % primeAt i = q % primeAt i) :
    noFactor k b m = true ↔ ∀ i, 64 * b ≤ i → i < 64 * b + 64 → factorFree k (primeAt i) q = true := by
  rw [noFactor_iff hm hb]
  exact forall_congr' fun i => forall_congr' fun h1 => forall_congr' fun h2 =>
    passes_iff_factorFree (by omega) (exactValue_of_lt (hr i h1 h2)) (hq i h1 h2)

/-- The blocks `first .. first + n - 1` in range that stand for `q`. -/
theorem noFactorBlocks_iff_factorFree {k : Kind} {first n q : Nat} {m : Memory} (hm : m.wf) (hb : first + n ≤ 54)
    (hr : ∀ i, 64 * first ≤ i → i < 64 * (first + n) → residueAt i m < 2 ^ 15)
    (hq : ∀ i, 64 * first ≤ i → i < 64 * (first + n) → residueAt i m % primeAt i = q % primeAt i) :
    noFactorBlocks k first n m = true ↔
      ∀ i, 64 * first ≤ i → i < 64 * (first + n) → factorFree k (primeAt i) q = true := by
  rw [noFactorBlocks_iff hm hb]
  exact forall_congr' fun i => forall_congr' fun h1 => forall_congr' fun h2 =>
    passes_iff_factorFree (by omega) (exactValue_of_lt (hr i h1 h2)) (hq i h1 h2)

/-- A tier in range that stands for `q`. -/
theorem testTier_iff_factorFree {k : Kind} {nb q : Nat} {m : Memory} (hm : m.wf) (h1 : 1 ≤ nb) (h54 : nb ≤ 54)
    (hr : InRange (64 * nb) m) (hq : Residues q (64 * nb) m) :
    testTier k nb m = true ↔ ∀ i < 64 * nb, factorFree k (primeAt i) q = true := by
  rw [testTier_iff hm h1 h54]
  exact forall_congr' fun i => forall_congr' fun h2 =>
    passes_iff_factorFree (by omega) (exactValue_of_lt (hr i h2)) (hq i h2)

end Sys2Proof.Machine
end

