-- ==== Sys2Proof/Laws/Drive.lean ====
section
/-! SUPPORT. What the drivers' passes do (spec/43_drivers.md R142 to R150): once in general, for lanes of any value,
and once from a state in range that stands for a candidate. -/

namespace Sys2Proof.Machine

/-! ### Advance -/

/-- What `Advance(k)` does when it answers: no lane carried; the lanes of the tier are advanced, and besides them only
`LSB`, `OFFSET` and `MOD6` move. -/
theorem advance_some {k : Nat} {s t : State} (hm : s.mem.wf) (hk : k < 2 ^ 16) (h : advance k s = some t) :
    ∃ r, t = advanceCounters k { s with mem := { s.mem with r := r } } ∧ t.mem.wf ∧
      (∀ i < tierLanes s.mode, residueAt i s.mem + k < 2 ^ 16) ∧
      (∀ i < tierLanes s.mode, residueAt i t.mem = advancedLane i (residueAt i s.mem) k) ∧
      (∀ i, tierLanes s.mode ≤ i → t.mem.r.getD i 0 = s.mem.r.getD i 0) := by
  have hb := tierBlocks_mul s.mode
  unfold advance at h
  split at h
  · cases h
  · rename_i m ha
    cases h
    obtain ⟨h1, h2, h3, h4, h5⟩ := advBlocksScalar_some hm (by omega) hk ha
    refine ⟨m.r, by rw [h4], h5, fun i hi => h1 i (by omega) (by omega), fun i hi => h2 i (by omega) (by omega),
      fun i hi => h3 i (by omega)⟩

/-- `Advance(k)` fails exactly when a lane of the tier carries (R103, R174). -/
theorem advance_none_iff {k : Nat} {s : State} (hm : s.mem.wf) (hk : k < 2 ^ 16) :
    advance k s = none ↔ ∃ i < tierLanes s.mode, 2 ^ 16 ≤ residueAt i s.mem + k := by
  have hb := tierBlocks_mul s.mode
  have key := advBlocksScalar_none_iff (b := 0) (n := tierBlocks s.mode) (k := k) hm (by omega) hk
  have : advance k s = none ↔ advBlocksScalar 0 (tierBlocks s.mode) k s.mem = none := by
    unfold advance
    split <;> simp [*]
  rw [this, key]
  constructor
  · rintro ⟨i, h1, h2, h3⟩
    exact ⟨i, by omega, h3⟩
  · rintro ⟨i, h1, h2⟩
    exact ⟨i, by omega, by omega, h2⟩

/-- From a state in range an advance by at most 16411 answers. -/
theorem advance_exists {k : Nat} {s : State} (hm : s.mem.wf) (hr : InRange (tierLanes s.mode) s.mem)
    (hk : k ≤ 16411) : ∃ t, advance k s = some t := by
  cases h : advance k s with
  | some t => exact ⟨t, rfl⟩
  | none =>
    obtain ⟨i, h1, h2⟩ := (advance_none_iff hm (by omega)).mp h
    have := hr i h1
    omega

/-! ### Lanes settle: whatever they hold, advances bring them into range or lower -/

/-- `v'` is in range, or `d` below `v`. -/
def Settles (d v v' : Nat) : Prop := v' < 2 ^ 15 ∨ v' + d ≤ v

theorem Settles.trans {d e v v' v'' : Nat} (h : Settles d v v') (h' : Settles e v' v'') : Settles (d + e) v v'' := by
  unfold Settles at *
  omega

theorem advancedLane_settles {i v k : Nat} (hi : i < 3456) (h : v + k < 2 ^ 16) (hk : k ≤ 16386) :
    Settles 1 v (advancedLane i v k) := by
  have hb := primeAt_bounds hi
  unfold Settles advancedLane
  split
  · rw [m2rAt_eq hi]
    have hle : primeAt i * (2 ^ 15 / primeAt i) ≤ 2 ^ 15 := Nat.mul_div_le _ _
    omega
  · omega

/-! ### The fast skip (R145) -/

/-- What the fast skip does when it answers, from any lanes. -/
theorem fastSkip_some {k : Kind} {n : Nat} {m m' : Memory} {skip skip' : Nat} (hm : m.wf)
    (h : fastSkip k n m skip = some (m', skip')) :
    ∃ c ≤ n, skip' = skip + 6 * c ∧ m' = { m with r := m'.r } ∧ m'.wf ∧
      (∀ i, 64 ≤ i → m'.r.getD i 0 = m.r.getD i 0) ∧ (∀ i < 64, Settles c (residueAt i m) (residueAt i m')) ∧
      (noFactor k 0 m' = true ∨ 2 ^ 14 ≤ skip' ∨ c = n) ∧ (skip' < 2 ^ 14 + 6 ∨ c = 0) := by
  induction n generalizing m skip with
  | zero =>
    simp only [fastSkip, Option.some.injEq, Prod.mk.injEq] at h
    obtain ⟨rfl, rfl⟩ := h
    exact ⟨0, by omega, by omega, rfl, hm, fun _ _ => rfl, fun _ _ => .inr (by omega), .inr (.inr rfl), .inr rfl⟩
  | succ n ih =>
    unfold fastSkip at h
    split at h
    · rename_i hstop
      cases h
      simp only [Bool.or_eq_true, decide_eq_true_eq] at hstop
      refine ⟨0, by omega, by omega, rfl, hm, fun _ _ => rfl, fun _ _ => .inr (by omega), ?_, .inr rfl⟩
      exact hstop.imp id .inl
    · rename_i hgo
      simp only [Bool.or_eq_true, decide_eq_true_eq, not_or] at hgo
      split at h
      · cases h
      · rename_i m1 ha
        obtain ⟨a1, a2, a3, a4, a5⟩ := advBlocksScalar_some hm (by omega) (by omega) ha
        obtain ⟨c, h1, h2, h3, h4, h5, h6, h7, h8⟩ := ih a5 h
        refine ⟨c + 1, by omega, by omega, by rw [h3, a4], h4, ?_, ?_, ?_, by omega⟩
        · intro i hi
          rw [h5 i hi, a3 i (by omega)]
        · intro i hi
          have hs := advancedLane_settles (i := i) (by omega) (a1 i (by omega) (by omega)) (by omega)
          rw [← a2 i (by omega) (by omega)] at hs
          have := hs.trans (h6 i hi)
          rwa [Nat.add_comm 1 c] at this
        · exact h7.imp id (Or.imp id (by omega))

/-- From block 0 in range, standing for `q`, the fast skip answers: block 0 moves with the candidate, and none of the
candidates skipped is without a factor in block 0. -/
theorem fastSkip_inRange {k : Kind} {n q : Nat} {m : Memory} {skip : Nat} (hm : m.wf)
    (hr : InRange 64 m) (hq : Residues q 64 m) :
    ∃ m' c, fastSkip k n m skip = some (m', skip + 6 * c) ∧ InRange 64 m' ∧ Residues (q + 6 * c) 64 m' ∧
      ∀ e < c, ¬ ∀ i < 64, factorFree k (primeAt i) (q + 6 * e) = true := by
  induction n generalizing m q skip with
  | zero => exact ⟨m, 0, rfl, hr, hq, by simp⟩
  | succ n ih =>
    by_cases hstop : (noFactor k 0 m || decide (2 ^ 14 ≤ skip)) = true
    · exact ⟨m, 0, by simp only [fastSkip, hstop, if_true]; rfl, hr, hq, by simp⟩
    · have hgo := hstop
      simp only [Bool.or_eq_true, decide_eq_true_eq, not_or] at hgo
      cases ha : advBlocksScalar 0 1 6 m with
      | none =>
        obtain ⟨i, h1, h2, h3⟩ := (advBlocksScalar_none_iff hm (by omega) (by omega)).mp ha
        have := hr i (by omega)
        omega
      | some m1 =>
        obtain ⟨a1, a2, a3, a4, a5⟩ := advBlocksScalar_some hm (by omega) (by omega) ha
        have hr1 : InRange 64 m1 := fun i hi => by
          rw [a2 i (by omega) (by omega)]
          exact advancedLane_lt (by omega) (hr i hi) (by omega)
        have hq1 : Residues (q + 6) 64 m1 := fun i hi => by
          rw [a2 i (by omega) (by omega), advancedLane_mod (by omega) (a1 i (by omega) (by omega)), Nat.add_mod,
            hq i hi, ← Nat.add_mod]
        obtain ⟨m', c, h1, h2, h3, h4⟩ := ih (skip := skip + 6) a5 hr1 hq1
        refine ⟨m', c + 1, ?_, h2, ?_, ?_⟩
        · simp only [fastSkip, if_neg hstop, ha, h1]
          congr 2
          omega
        · rwa [show q + 6 * (c + 1) = q + 6 + 6 * c by omega]
        · intro e he
          cases e with
          | zero =>
            have := (noFactor_iff_factorFree (q := q) hm (by omega) (fun i _ hi => hr i (by omega))
              (fun i _ hi => hq i (by omega))).not.mp hgo.1
            intro hall
            exact this fun i _ hi => hall i (by omega)
          | succ e =>
            have := h4 e (by omega)
            rwa [show q + 6 + 6 * e = q + 6 * (e + 1) by omega] at this

/-! ### Passes from any lanes -/

/-- The residues modulo 6 at which a kind's loop stands (R142, R144). -/
def standing (k : Kind) (r : Nat) : Prop :=
  match k with
  | .plain => r = 1 ∨ r = 5
  | .twin => r = 5
  | .safe => r = 5

theorem entryStep_lt {k : Kind} {m : BitVec 3} (h : m.toNat < 6) : entryStep k m < 6 := by
  revert h m
  cases k <;> decide

theorem entryStep_standing {k : Kind} {m : BitVec 3} (h : m.toNat < 6) :
    standing k ((m.toNat + entryStep k m) % 6) := by
  revert h m
  cases k <;> unfold standing <;> decide

theorem entryStep_of_standing {k : Kind} {m : BitVec 3} (h : standing k m.toNat) : entryStep k m = 0 := by
  revert h m
  cases k <;> unfold standing <;> decide

/-- What the driver's loop keeps, whatever the lanes hold. -/
structure Running (k : Kind) (s : State) : Prop where
  wf : s.mem.wf
  valid : modeValid s.mode = true
  standing : standing k s.mod6.toNat

/-- How a pass changes the state: lanes of `R`, the output buffer and the counters, nothing else. -/
def PassFrame (x y : Search) : Prop :=
  ∃ r out d, y.st = { x.st with
    mem := { x.st.mem with r := r, out := out }
    lsb := x.st.lsb + BitVec.ofNat 64 d
    offset := x.st.offset + BitVec.ofNat 64 d
    mod6 := BitVec.ofNat 3 ((x.st.mod6.toNat + d) % 6) } ∧
    r.length = x.st.mem.r.length ∧ out.length = x.st.mem.out.length ∧
    (∀ i, tierLanes x.st.mode ≤ i → r.getD i 0 = x.st.mem.r.getD i 0)

theorem ofNat_mod6 (n : Nat) : (BitVec.ofNat 3 (n % 6)).toNat = n % 6 := by
  simp only [BitVec.toNat_ofNat]
  omega

/-- `record` touches the output buffer and the index alone. -/
theorem recordIf_st (b : Bool) (x : Search) :
    ∃ out, (recordIf b x).st = { x.st with mem := { x.st.mem with out := out } } ∧
      out.length = x.st.mem.out.length := by
  cases b
  · exact ⟨_, rfl, rfl⟩
  · exact ⟨_, rfl, by simp⟩

theorem plainPass_some {x y : Search} (hx : Running .plain x.st) (h : plainPass x = some y) :
    Running .plain y.st ∧ PassFrame x y ∧
      ∀ i < tierLanes x.st.mode, Settles 1 (residueAt i x.st.mem) (residueAt i y.st.mem) := by
  obtain ⟨hm, hv, hs⟩ := hx
  have hb := tierBlocks_mul x.st.mode
  unfold plainPass advanceSearch at h
  split at h
  · cases h
  · rename_i t ha
    cases h
    obtain ⟨out, ho, hl⟩ := recordIf_st (testTier .plain (tierBlocks x.st.mode) x.st.mem) x
    rw [ho] at ha
    have hk : (if x.st.mod6 = 1 then 4 else 2) ≤ 4 := by split <;> omega
    obtain ⟨r, h1, h2, h3, h4, h5⟩ := advance_some (s := { x.st with mem := { x.st.mem with out := out } }) (withOut_wf hm hl)
      (show (if x.st.mod6 = 1 then 4 else 2) < 2 ^ 16 by omega) ha
    refine ⟨⟨h2, by rw [h1]; exact hv, ?_⟩, ⟨r, out, _, h1, ?_, hl, ?_⟩, ?_⟩
    · rw [h1]
      simp only [advanceCounters_mod6, ofNat_mod6]
      rcases hs with hs | hs
      · rw [if_pos (by apply BitVec.eq_of_toNat_eq; rw [hs]; rfl), hs]
        exact .inr rfl
      · rw [if_neg (by intro hc; rw [hc] at hs; exact absurd hs (by decide)), hs]
        exact .inl rfl
    · have := h2.1
      rw [h1] at this
      rw [hm.1]
      exact this
    · intro i hi
      have := h5 i hi
      rw [h1] at this
      exact this
    · intro i hi
      rw [h4 i hi]
      exact advancedLane_settles (by have := hb.2.2; omega) (h3 i hi) (by omega)

/-- What follows the fast skip, when it answers. -/
theorem afterSkip_some {skip : Nat} {m : Memory} {s t : State} (hm : m.wf) (hv : modeValid s.mode = true)
    (hk : skip < 2 ^ 16) (h : afterSkip skip m s = some t) :
    ∃ r, t = advanceCounters skip { s with mem := { m with r := r } } ∧ t.mem.wf ∧
      (∀ i, 64 ≤ i → i < tierLanes s.mode → residueAt i m + skip < 2 ^ 16) ∧
      (∀ i, 64 ≤ i → i < tierLanes s.mode → residueAt i t.mem = advancedLane i (residueAt i m) skip) ∧
      (∀ i, i < 64 ∨ tierLanes s.mode ≤ i → t.mem.r.getD i 0 = m.r.getD i 0) := by
  have hb := tierBlocks_mul s.mode
  have hb2 := tierBlocks_of_valid hv
  unfold afterSkip at h
  split at h
  · cases h
  · rename_i m1 ha
    cases h
    obtain ⟨h1, h2, h3, h4, h5⟩ := advBlocksScalar_some hm (by omega) hk ha
    refine ⟨m1.r, by rw [h4], h5, fun i hi1 hi2 => h1 i (by omega) (by omega),
      fun i hi1 hi2 => h2 i (by omega) (by omega), fun i hi => h3 i (by omega)⟩

theorem pairPass_some {k : Kind} {x y : Search} (hk : k ≠ .plain) (hx : Running k x.st)
    (h : pairPass k x = some y) :
    Running k y.st ∧ PassFrame x y ∧
      ∀ i < tierLanes x.st.mode, Settles 1 (residueAt i x.st.mem) (residueAt i y.st.mem) := by
  obtain ⟨hm, hv, hs⟩ := hx
  have hs5 : x.st.mod6.toNat = 5 := by cases k <;> first | exact absurd rfl hk | exact hs
  have hst : ∀ n, n % 6 = 0 → standing k ((x.st.mod6.toNat + n) % 6) := by
    intro n hn
    have : (x.st.mod6.toNat + n) % 6 = 5 := by omega
    cases k <;> first | exact absurd rfl hk | exact this
  have hb := tierBlocks_mul x.st.mode
  have hb2 := tierBlocks_of_valid hv
  unfold pairPass at h
  split at h
  · cases h
  · rename_i m skip hf
    obtain ⟨c, c1, c2, c3, c4, c5, c6, c7, c8⟩ := fastSkip_some hm hf
    rw [Nat.zero_add] at c2
    split at h
    · cases h
    · rename_i t ha
      obtain ⟨r, a1, a2, a3, a4, a5⟩ := afterSkip_some c4 hv (by omega) ha
      have hmode : t.mode = x.st.mode := by rw [a1]; rfl
      have hlanes : ∀ i < tierLanes x.st.mode,
          Settles (if i < 64 then c else 1) (residueAt i x.st.mem) (residueAt i t.mem) := by
        intro i hi
        by_cases h64 : i < 64
        · rw [if_pos h64, ← residueAt_eq i t.mem, a5 i (.inl h64)]
          exact c6 i h64
        · rw [if_neg h64, a4 i (by omega) hi, ← residueAt_eq i x.st.mem, ← c5 i (by omega)]
          exact advancedLane_settles (by have := hb.2.2; omega) (a3 i (by omega) hi) (by omega)
      split at h
      · rename_i hbig
        cases h
        refine ⟨⟨a2, by rw [hmode]; exact hv, ?_⟩, ⟨r, x.st.mem.out, skip, ?_, ?_, rfl, ?_⟩, ?_⟩
        · rw [a1]
          simp only [advanceCounters_mod6, ofNat_mod6]
          exact hst _ (by omega)
        · rw [a1, c3]
          rfl
        · have := a2.1
          rw [a1] at this
          rw [hm.1]
          exact this
        · intro i hi
          have h1 := a5 i (.inr hi)
          rw [a1] at h1
          exact h1.trans (c5 i (by omega))
        · intro i hi
          have : Settles (if i < 64 then c else 1) (residueAt i x.st.mem) (residueAt i t.mem) := hlanes i hi
          show Settles 1 (residueAt i x.st.mem) (residueAt i t.mem)
          unfold Settles at *
          split at this <;> omega
      · rename_i hsmall
        unfold advanceSearch at h
        split at h
        · cases h
        · rename_i u hu
          cases h
          obtain ⟨out, ho, hl⟩ := recordIf_st (noFactorBlocks k 1 (tierBlocks t.mode - 1) t.mem) { x with st := t }
          rw [ho] at hu
          obtain ⟨r', u1, u2, u3, u4, u5⟩ := advance_some (s := { t with mem := { t.mem with out := out } }) (withOut_wf a2 hl)
            (show 6 < 2 ^ 16 by omega) hu
          have hout : t.mem.out = x.st.mem.out := by rw [a1, c3]; rfl
          refine ⟨⟨u2, ?_, ?_⟩, ⟨r', out, skip + 6, ?_, ?_, by rw [hl, hout], ?_⟩, ?_⟩
          · rw [u1]
            simp only [advanceCounters_mode, hmode, hv]
          · rw [u1]
            simp only [advanceCounters_mod6, ofNat_mod6]
            rw [a1]
            simp only [advanceCounters_mod6, ofNat_mod6, Nat.mod_add_mod, Nat.add_assoc]
            exact hst _ (by omega)
          · rw [u1, a1, c3]
            simp only [advanceCounters, ofNat_mod6, Nat.mod_add_mod, BitVec.ofNat_add, BitVec.add_assoc, Nat.add_assoc]
          · have := u2.1
            rw [u1] at this
            rw [hm.1]
            exact this
          · intro i hi
            have h1 := u5 i (by rw [hmode]; exact hi)
            rw [u1] at h1
            exact h1.trans ((a5 i (.inr hi)).trans (c5 i (by omega)))
          · intro i hi
            have h1 := hlanes i hi
            have h2 := advancedLane_settles (i := i) (by have := hb.2.2; omega) (u3 i (by rw [hmode]; exact hi)) (by omega)
            rw [← u4 i (by rw [hmode]; exact hi)] at h2
            have h3 : Settles 1 (residueAt i t.mem) (residueAt i u.mem) := h2
            show Settles 1 (residueAt i x.st.mem) (residueAt i u.mem)
            unfold Settles at *
            split at h1 <;> omega

theorem recordIf_j (b : Bool) (x : Search) : (recordIf b x).j = x.j ∨ (recordIf b x).j = x.j + 1 := by
  cases b
  · exact .inl rfl
  · exact .inr rfl

/-- A pass records at most one candidate. -/
theorem driverPass_j {k : Kind} {x y : Search} (h : driverPass k x = some y) : y.j = x.j ∨ y.j = x.j + 1 := by
  have hpair : pairPass k x = some y → y.j = x.j ∨ y.j = x.j + 1 := by
    intro h
    unfold pairPass at h
    split at h
    · cases h
    · split at h
      · cases h
      · split at h
        · cases h
          exact .inl rfl
        · unfold advanceSearch at h
          split at h
          · cases h
          · cases h
            exact recordIf_j _ { x with st := _ }
  cases k with
  | plain =>
    simp only [driverPass, plainPass, advanceSearch] at h
    split at h
    · cases h
    · cases h
      exact recordIf_j _ _
  | twin => exact hpair h
  | safe => exact hpair h

/-- A pass of a kind's loop, when it answers. -/
theorem driverPass_some {k : Kind} {x y : Search} (hx : Running k x.st) (h : driverPass k x = some y) :
    Running k y.st ∧ PassFrame x y ∧
      ∀ i < tierLanes x.st.mode, Settles 1 (residueAt i x.st.mem) (residueAt i y.st.mem) := by
  cases k with
  | plain => exact plainPass_some hx h
  | twin => exact pairPass_some (by decide) hx h
  | safe => exact pairPass_some (by decide) hx h

/-! ### Passes from a state in range that stands for a candidate -/

/-- A state in the driver's loop, in range, standing for the candidate `q`. -/
structure Stands (k : Kind) (q : Nat) (s : State) : Prop where
  running : Running k s
  range : InRange (tierLanes s.mode) s.mem
  residues : Residues q (tierLanes s.mode) s.mem
  mod6 : s.mod6.toNat = q % 6

/-- What the candidates `q .. q + d - 1` gave: no survivor and no record, or one survivor, recorded. -/
def Found (k : Kind) (q d : Nat) (x y : Search) : Prop :=
  ((∀ e < d, survivor k (tierLanes x.st.mode) (q + e) = false) ∧ y.j = x.j ∧ y.last = x.last ∧
      y.st.mem.out = x.st.mem.out) ∨
    ∃ e < d, (∀ e' < d, survivor k (tierLanes x.st.mode) (q + e') = decide (e' = e)) ∧ y.j = x.j + 1 ∧
      y.last = x.st.lsb + BitVec.ofNat 64 e ∧ y.st.mem.out = x.st.mem.out.set x.j (x.st.lsb + BitVec.ofNat 64 e)

theorem survivor_iff {k : Kind} {n q : Nat} :
    survivor k n q = true ↔ visited k q = true ∧ ∀ i < n, factorFree k (primeAt i) q = true := by
  simp only [survivor, Bool.and_eq_true, List.all_eq_true, List.mem_range]

theorem visited_iff {k : Kind} {q : Nat} : visited k q = true ↔ standing k (q % 6) := by
  cases k <;> simp [visited, standing]

/-- An advance by at most 16411 moves the candidate and stays in range (R17, R121). -/
theorem advance_inRange {k q : Nat} {s : State} (hm : s.mem.wf) (hr : InRange (tierLanes s.mode) s.mem)
    (hq : Residues q (tierLanes s.mode) s.mem) (h6 : s.mod6.toNat = q % 6) (hk : k ≤ 16411) :
    ∃ t, advance k s = some t ∧ (∃ r, t = advanceCounters k { s with mem := { s.mem with r := r } }) ∧ t.mem.wf ∧
      InRange (tierLanes s.mode) t.mem ∧ Residues (q + k) (tierLanes s.mode) t.mem ∧
      t.mod6.toNat = (q + k) % 6 := by
  have hb := tierBlocks_mul s.mode
  obtain ⟨t, ht⟩ := advance_exists hm hr hk
  obtain ⟨r, h1, h2, h3, h4, h5⟩ := advance_some hm (by omega) ht
  refine ⟨t, ht, ⟨r, h1⟩, h2, ?_, ?_, ?_⟩
  · intro i hi
    rw [h4 i hi]
    exact advancedLane_lt (by omega) (hr i hi) hk
  · intro i hi
    rw [h4 i hi, advancedLane_mod (by omega) (h3 i hi), Nat.add_mod, hq i hi, ← Nat.add_mod]
  · rw [h1]
    simp only [advanceCounters_mod6, ofNat_mod6, h6]
    omega

theorem recordIf_true (x : Search) : recordIf true x = record x := rfl
theorem recordIf_false (x : Search) : recordIf false x = x := rfl

theorem plainPass_inRange {q : Nat} {x : Search} (hx : Stands .plain q x.st) :
    ∃ y d, plainPass x = some y ∧ 0 < d ∧ d ≤ 4 ∧ Stands .plain (q + d) y.st ∧
      y.st.lsb = x.st.lsb + BitVec.ofNat 64 d ∧ y.st.offset = x.st.offset + BitVec.ofNat 64 d ∧
      Found .plain q d x y := by
  obtain ⟨hrun, hr, hq, h6⟩ := hx
  obtain ⟨hm, hv, hs⟩ := hrun
  have hb := tierBlocks_mul x.st.mode
  have hb2 := tierBlocks_of_valid hv
  have htest := testTier_iff_factorFree (k := .plain) (nb := tierBlocks x.st.mode) (q := q) hm (by omega) (by omega)
    (by rw [hb.1]; exact hr) (by rw [hb.1]; exact hq)
  rw [hb.1] at htest
  obtain ⟨d, hd, hd0, hd4, hstep⟩ : ∃ d, (if x.st.mod6 = 1 then 4 else 2) = d ∧ 0 < d ∧ d ≤ 4 ∧
      ∀ e, 0 < e → e < d → visited .plain (q + e) = false := by
    rcases hs with h1 | h5
    · refine ⟨4, by rw [if_pos (by apply BitVec.eq_of_toNat_eq; rw [h1]; rfl)], by omega, by omega, ?_⟩
      intro e he he4
      simp only [visited, Bool.or_eq_false_iff, beq_eq_false_iff_ne]
      omega
    · refine ⟨2, by rw [if_neg (by intro hc; rw [hc] at h5; exact absurd h5 (by decide))], by omega, by omega, ?_⟩
      intro e he he4
      simp only [visited, Bool.or_eq_false_iff, beq_eq_false_iff_ne]
      omega
  have hvis : visited .plain q = true := visited_iff.mpr (by rw [← h6]; exact hs)
  have hno : ∀ e, 0 < e → e < d → survivor .plain (tierLanes x.st.mode) (q + e) = false := by
    intro e h1 h2
    simp only [survivor, hstep e h1 h2, Bool.false_and]
  obtain ⟨out, ho, hl⟩ := recordIf_st (testTier .plain (tierBlocks x.st.mode) x.st.mem) x
  obtain ⟨t, ht, ⟨r, h1⟩, h2, h3, h4, h5⟩ :=
    advance_inRange (s := (recordIf (testTier .plain (tierBlocks x.st.mode) x.st.mem) x).st) (k := d) (q := q)
      (by rw [ho]; exact withOut_wf hm hl) (by rw [ho]; exact hr) (by rw [ho]; exact hq) (by rw [ho]; exact h6)
      (by omega)
  have hpass : plainPass x = some { recordIf (testTier .plain (tierBlocks x.st.mode) x.st.mem) x with st := t } := by
    unfold plainPass advanceSearch
    rw [hd, ht]
  have hmode : t.mode = x.st.mode := by
    rw [h1, ho]
    rfl
  refine ⟨_, d, hpass, hd0, hd4, ⟨(plainPass_some ⟨hm, hv, hs⟩ hpass).1, ?_, ?_, h5⟩, ?_, ?_, ?_⟩
  · rw [ho] at h3
    simp only [hmode]
    exact h3
  · rw [ho] at h4
    simp only [hmode]
    exact h4
  · rw [h1, ho]
    rfl
  · rw [h1, ho]
    rfl
  · cases hc : testTier .plain (tierBlocks x.st.mode) x.st.mem
    · left
      refine ⟨?_, rfl, rfl, ?_⟩
      · intro e he
        by_cases h0 : e = 0
        · subst h0
          rw [← Bool.not_eq_true, Nat.add_zero, survivor_iff]
          rintro ⟨-, hall⟩
          rw [htest.mpr hall] at hc
          cases hc
        · exact hno e (by omega) he
      · simp only [h1, hc, recordIf_false]
        rfl
    · right
      refine ⟨0, hd0, ?_, rfl, ?_, ?_⟩
      · intro e he
        by_cases h0 : e = 0
        · subst h0
          rw [Nat.add_zero, survivor_iff.mpr ⟨hvis, htest.mp hc⟩]
          rfl
        · rw [hno e (by omega) he]
          exact (decide_eq_false h0).symm
      · simp only [recordIf_true, record_last, BitVec.add_zero]
      · simp only [h1, hc, recordIf_true, BitVec.add_zero]
        rfl

theorem pairPass_inRange {k : Kind} {q : Nat} {x : Search} (hk : k ≠ .plain) (hx : Stands k q x.st) :
    ∃ y d, pairPass k x = some y ∧ 0 < d ∧ Stands k (q + d) y.st ∧
      y.st.lsb = x.st.lsb + BitVec.ofNat 64 d ∧ y.st.offset = x.st.offset + BitVec.ofNat 64 d ∧
      Found k q d x y := by
  obtain ⟨hrun, hr, hq, h6⟩ := hx
  have hrun' := hrun
  obtain ⟨hm, hv, hs⟩ := hrun
  have hs5 : q % 6 = 5 := by rw [← h6]; cases k <;> first | exact absurd rfl hk | exact hs
  have hvis : ∀ e, visited k (q + e) = true ↔ e % 6 = 0 := by
    intro e
    rw [visited_iff]
    cases k <;> first | exact absurd rfl hk | (simp only [standing]; omega)
  have hb := tierBlocks_mul x.st.mode
  have hb2 := tierBlocks_of_valid hv
  obtain ⟨m, c, hf, hr0, hq0, hnone⟩ := fastSkip_inRange (k := k) (n := 2731) (q := q) (skip := 0) hm
    (fun i hi => hr i (by omega)) (fun i hi => hq i (by omega))
  rw [Nat.zero_add] at hf
  obtain ⟨c', c1, c2, c3, c4, c5, c6, c7, c8⟩ := fastSkip_some hm hf
  obtain rfl : c' = c := by omega
  have hrest : ∀ i, 64 ≤ i → residueAt i m = residueAt i x.st.mem := fun i hi => by
    rw [← residueAt_eq, c5 i hi, residueAt_eq]
  obtain ⟨t, ha⟩ : ∃ t, afterSkip (6 * c') m x.st = some t := by
    unfold afterSkip
    cases hadv : advBlocksScalar 1 (tierBlocks x.st.mode - 1) (6 * c') m with
    | some m' => exact ⟨_, rfl⟩
    | none =>
      obtain ⟨i, h1, h2, h3⟩ := (advBlocksScalar_none_iff c4 (by omega) (by omega)).mp hadv
      rw [hrest i (by omega)] at h3
      have := hr i (by omega)
      omega
  obtain ⟨r, a1, a2, a3, a4, a5⟩ := afterSkip_some c4 hv (by omega) ha
  have hmode : t.mode = x.st.mode := by rw [a1]; rfl
  have hout : t.mem.out = x.st.mem.out := by rw [a1, c3]; rfl
  have ht0 : ∀ i, i < 64 → residueAt i t.mem = residueAt i m := fun i hi => by
    rw [← residueAt_eq, a5 i (.inl hi), residueAt_eq]
  have hrt : InRange (tierLanes x.st.mode) t.mem := by
    intro i hi
    by_cases h64 : i < 64
    · rw [ht0 i h64]
      exact hr0 i h64
    · rw [a4 i (by omega) hi, hrest i (by omega)]
      exact advancedLane_lt (by omega) (hr i hi) (by omega)
  have hqt : Residues (q + 6 * c') (tierLanes x.st.mode) t.mem := by
    intro i hi
    by_cases h64 : i < 64
    · rw [ht0 i h64]
      exact hq0 i h64
    · rw [a4 i (by omega) hi, advancedLane_mod (by omega) (a3 i (by omega) hi), hrest i (by omega), Nat.add_mod,
        hq i hi, ← Nat.add_mod]
  have h6t : t.mod6.toNat = (q + 6 * c') % 6 := by
    rw [a1]
    simp only [advanceCounters_mod6, ofNat_mod6, h6]
    omega
  have hskipped : ∀ e < 6 * c', survivor k (tierLanes x.st.mode) (q + e) = false := by
    intro e he
    rw [← Bool.not_eq_true, survivor_iff, hvis]
    rintro ⟨h1, h2⟩
    refine hnone (e / 6) (by omega) fun i hi => ?_
    rw [show q + 6 * (e / 6) = q + e by omega]
    exact h2 i (by omega)
  by_cases hbig : 2 ^ 14 ≤ 6 * c'
  · have hpass : pairPass k x = some { x with st := t } := by
      unfold pairPass
      simp only [hf, ha, if_pos hbig]
    refine ⟨_, 6 * c', hpass, by omega, ⟨(pairPass_some hk hrun' hpass).1, ?_, ?_, h6t⟩, ?_, ?_, .inl ⟨hskipped, rfl, rfl, hout⟩⟩
    · simp only [hmode]
      exact hrt
    · simp only [hmode]
      exact hqt
    · rw [a1]
      rfl
    · rw [a1]
      rfl
  · have hblock0 : noFactor k 0 t.mem = true := by
      have hm0 : noFactor k 0 m = true := by
        rcases c7 with h | h | h
        · exact h
        · omega
        · omega
      rw [noFactor_iff a2 (by omega)]
      rw [noFactor_iff c4 (by omega)] at hm0
      intro i h1 h2
      rw [ht0 i (by omega)]
      exact hm0 i h1 h2
    have hfree0 := (noFactor_iff_factorFree (q := q + 6 * c') a2 (by omega) (fun i _ hi => hrt i (by omega))
      (fun i _ hi => hqt i (by omega))).mp hblock0
    have hrestiff := noFactorBlocks_iff_factorFree (k := k) (first := 1) (n := tierBlocks t.mode - 1)
      (q := q + 6 * c') a2 (by rw [hmode]; omega) (fun i _ hi => hrt i (by rw [hmode] at hi; omega))
      (fun i _ hi => hqt i (by rw [hmode] at hi; omega))
    have htest : noFactorBlocks k 1 (tierBlocks t.mode - 1) t.mem = true ↔
        survivor k (tierLanes x.st.mode) (q + 6 * c') = true := by
      rw [hrestiff, survivor_iff, hvis, hmode]
      constructor
      · intro h
        refine ⟨by omega, fun i hi => ?_⟩
        by_cases h64 : i < 64
        · exact hfree0 i (by omega) (by omega)
        · exact h i (by omega) (by omega)
      · intro h i h1 h2
        exact h.2 i (by omega)
    have hlater : ∀ e, 6 * c' < e → e < 6 * c' + 6 → survivor k (tierLanes x.st.mode) (q + e) = false := by
      intro e h1 h2
      rw [← Bool.not_eq_true, survivor_iff, hvis]
      rintro ⟨h3, -⟩
      omega
    obtain ⟨out, ho, hl⟩ := recordIf_st (noFactorBlocks k 1 (tierBlocks t.mode - 1) t.mem) { x with st := t }
    obtain ⟨u, hu, ⟨r', u1⟩, u2, u3, u4, u5⟩ :=
      advance_inRange (s := (recordIf (noFactorBlocks k 1 (tierBlocks t.mode - 1) t.mem) { x with st := t }).st)
        (k := 6) (q := q + 6 * c') (by rw [ho]; exact withOut_wf a2 hl) (by rw [ho]; simp only [hmode]; exact hrt)
        (by rw [ho]; simp only [hmode]; exact hqt) (by rw [ho]; exact h6t) (by omega)
    have hpass : pairPass k x =
        some { recordIf (noFactorBlocks k 1 (tierBlocks t.mode - 1) t.mem) { x with st := t } with st := u } := by
      unfold pairPass advanceSearch
      simp only [hf, ha, if_neg hbig, hu]
    have humode : u.mode = t.mode := by
      rw [u1, ho]
      rfl
    refine ⟨_, 6 * c' + 6, hpass, by omega, ⟨(pairPass_some hk hrun' hpass).1, ?_, ?_, ?_⟩, ?_, ?_, ?_⟩
    · rw [ho] at u3
      simp only [humode]
      exact u3
    · rw [ho] at u4
      simp only [humode]
      exact u4
    · exact u5
    · rw [u1, ho, a1]
      simp only [advanceCounters_lsb, BitVec.ofNat_add, BitVec.add_assoc]
    · rw [u1, ho, a1]
      simp only [advanceCounters_offset, BitVec.ofNat_add, BitVec.add_assoc]
    · cases hc : noFactorBlocks k 1 (tierBlocks t.mode - 1) t.mem
      · left
        refine ⟨?_, rfl, rfl, ?_⟩
        · intro e he
          rcases Nat.lt_trichotomy e (6 * c') with h | h | h
          · exact hskipped e h
          · rw [h, ← Bool.not_eq_true, ← htest, hc]
            decide
          · exact hlater e h he
        · simp only [u1, hc, recordIf_false]
          exact hout
      · right
        refine ⟨6 * c', by omega, ?_, rfl, ?_, ?_⟩
        · intro e he
          rcases Nat.lt_trichotomy e (6 * c') with h | h | h
          · rw [hskipped e h]
            exact (decide_eq_false (by omega)).symm
          · rw [h, htest.mp hc]
            exact (decide_eq_true rfl).symm
          · rw [hlater e h he]
            exact (decide_eq_false (by omega)).symm
        · simp only [recordIf_true, record_last, a1, advanceCounters_lsb]
        · simp only [u1, hc, recordIf_true]
          show (t.mem.out.set x.j t.lsb) = _
          rw [hout, a1]
          rfl

/-- A pass of a kind's loop from a state in range that stands for `q` answers, and moves on by some `d`. -/
theorem driverPass_inRange {k : Kind} {q : Nat} {x : Search} (hx : Stands k q x.st) :
    ∃ y d, driverPass k x = some y ∧ 0 < d ∧ Stands k (q + d) y.st ∧
      y.st.lsb = x.st.lsb + BitVec.ofNat 64 d ∧ y.st.offset = x.st.offset + BitVec.ofNat 64 d ∧
      Found k q d x y := by
  cases k with
  | plain =>
    obtain ⟨y, d, h1, h2, h3, h⟩ := plainPass_inRange hx
    exact ⟨y, d, h1, h2, h⟩
  | twin => exact pairPass_inRange (by decide) hx
  | safe => exact pairPass_inRange (by decide) hx

end Sys2Proof.Machine
end

