-- ==== Sys2Proof/Laws/Encoding.lean ====
section
/-! SUPPORT. The fields of a packed command word, and bank codes. -/

namespace Sys2Proof

section
variable (op : BitVec 8) (d a b z : BitVec 4) (idx : BitVec 8) (imm : BitVec 32)

@[simp] theorem packWord_op : opField (packWord op d a b z idx imm) = op := by
  apply BitVec.eq_of_getLsbD_eq
  intro i hi
  simp only [opField, packWord, BitVec.getLsbD_extractLsb', BitVec.getLsbD_append, hi, decide_true, Bool.true_and]
  rw [if_neg (by omega), if_neg (by omega), if_neg (by omega), if_neg (by omega), if_neg (by omega),
    if_neg (by omega)]
  congr 1; omega

@[simp] theorem packWord_d : dField (packWord op d a b z idx imm) = d := by
  apply BitVec.eq_of_getLsbD_eq
  intro i hi
  simp only [dField, packWord, BitVec.getLsbD_extractLsb', BitVec.getLsbD_append, hi, decide_true, Bool.true_and]
  rw [if_neg (by omega), if_neg (by omega), if_neg (by omega), if_neg (by omega), if_neg (by omega),
    if_pos (by omega)]
  congr 1; omega

@[simp] theorem packWord_a : aField (packWord op d a b z idx imm) = a := by
  apply BitVec.eq_of_getLsbD_eq
  intro i hi
  simp only [aField, packWord, BitVec.getLsbD_extractLsb', BitVec.getLsbD_append, hi, decide_true, Bool.true_and]
  rw [if_neg (by omega), if_neg (by omega), if_neg (by omega), if_neg (by omega), if_pos (by omega)]
  congr 1; omega

@[simp] theorem packWord_b : bField (packWord op d a b z idx imm) = b := by
  apply BitVec.eq_of_getLsbD_eq
  intro i hi
  simp only [bField, packWord, BitVec.getLsbD_extractLsb', BitVec.getLsbD_append, hi, decide_true, Bool.true_and]
  rw [if_neg (by omega), if_neg (by omega), if_neg (by omega), if_pos (by omega)]
  congr 1; omega

@[simp] theorem packWord_z : zField (packWord op d a b z idx imm) = z := by
  apply BitVec.eq_of_getLsbD_eq
  intro i hi
  simp only [zField, packWord, BitVec.getLsbD_extractLsb', BitVec.getLsbD_append, hi, decide_true, Bool.true_and]
  rw [if_neg (by omega), if_neg (by omega), if_pos (by omega)]
  congr 1; omega

@[simp] theorem packWord_idx : idxField (packWord op d a b z idx imm) = idx := by
  apply BitVec.eq_of_getLsbD_eq
  intro i hi
  simp only [idxField, packWord, BitVec.getLsbD_extractLsb', BitVec.getLsbD_append, hi, decide_true, Bool.true_and]
  rw [if_neg (by omega), if_pos (by omega)]
  congr 1; omega

@[simp] theorem packWord_imm : immField (packWord op d a b z idx imm) = imm := by
  apply BitVec.eq_of_getLsbD_eq
  intro i hi
  simp only [immField, packWord, BitVec.getLsbD_extractLsb', BitVec.getLsbD_append, hi, decide_true, Bool.true_and]
  rw [if_pos (by omega)]
  simp

end

/-- A command word is its fields. -/
theorem packWord_fields (w : Word64) :
    packWord (opField w) (dField w) (aField w) (bField w) (zField w) (idxField w) (immField w) = w := by
  apply BitVec.eq_of_getLsbD_eq
  intro i hi
  simp only [packWord, opField, dField, aField, bField, zField, idxField, immField, BitVec.getLsbD_append,
    BitVec.getLsbD_extractLsb']
  split
  · simp [*]
  · split
    · simp only [show i - 32 < 8 by omega, decide_true, Bool.true_and]; congr 1; omega
    · split
      · simp only [show i - 32 - 8 < 4 by omega, decide_true, Bool.true_and]; congr 1; omega
      · split
        · simp only [show i - 32 - 8 - 4 < 4 by omega, decide_true, Bool.true_and]; congr 1; omega
        · split
          · simp only [show i - 32 - 8 - 4 - 4 < 4 by omega, decide_true, Bool.true_and]; congr 1; omega
          · split
            · simp only [show i - 32 - 8 - 4 - 4 - 4 < 4 by omega, decide_true, Bool.true_and]; congr 1; omega
            · simp only [show i - 32 - 8 - 4 - 4 - 4 - 4 < 8 by omega, decide_true, Bool.true_and]; congr 1; omega

@[simp] theorem bankOfCode_codeOfBank (b : Bank) : bankOfCode (codeOfBank b) = some b := by cases b <;> decide

theorem codeOfBank_of_bankOfCode {c : BitVec 4} {b : Bank} (h : bankOfCode c = some b) : codeOfBank b = c := by
  revert c b
  decide

/-- The two halves of a 16-bit immediate. -/
@[simp] theorem imm16_low (k : BitVec 16) : (imm16 k).extractLsb' 0 16 = k := by
  apply BitVec.eq_of_getLsbD_eq
  intro i hi
  simp only [imm16, BitVec.getLsbD_extractLsb', BitVec.getLsbD_append, hi, decide_true, Bool.true_and]
  rw [if_pos (by omega)]
  simp

@[simp] theorem imm16_high (k : BitVec 16) : (imm16 k).extractLsb' 16 16 = 0 := by
  apply BitVec.eq_of_getLsbD_eq
  intro i hi
  simp only [imm16, BitVec.getLsbD_extractLsb', BitVec.getLsbD_append]
  rw [if_neg (by omega)]
  simp

theorem imm16_toNat (k : BitVec 16) : (imm16 k).toNat = k.toNat := by
  rw [imm16, BitVec.toNat_append]
  simp

/-- A 32-bit immediate with a zero upper half is its lower half. -/
theorem imm16_of_high {imm : BitVec 32} (h : imm.extractLsb' 16 16 = 0) : imm16 (imm.extractLsb' 0 16) = imm := by
  have h1 := congrArg BitVec.toNat h
  have h2 := imm.isLt
  rw [BitVec.extractLsb'_toNat, Nat.shiftRight_eq_div_pow] at h1
  apply BitVec.eq_of_toNat_eq
  rw [imm16_toNat, BitVec.extractLsb'_toNat]
  simp at *
  omega

/-- The immediate of INIT as a number (R64). -/
theorem initImm_toNat (mode : BitVec 16) (mod6 : BitVec 3) :
    (0#13 ++ mod6 ++ mode : BitVec 32).toNat = mod6.toNat * 2 ^ 16 + mode.toNat := by
  rw [BitVec.toNat_append, BitVec.toNat_append, ← Nat.shiftLeft_add_eq_or_of_lt mode.isLt]
  simp [Nat.shiftLeft_eq]

end Sys2Proof
end

