-- ==== Sys2Proof/Laws/Flags.lean ====
section
/-! SUPPORT. The fields of `STATUS` after each setter. -/

namespace Sys2Proof.Machine

section
variable (high : BitVec 56) (cc : BitVec 4) (low : BitVec 2) (halt nf : Bool)

@[simp] theorem packStatus_nf : statusNf (packStatus high cc low halt nf) = nf := by
  simp only [statusNf, packStatus, BitVec.getLsbD_append]
  simp

@[simp] theorem packStatus_halt : statusHalt (packStatus high cc low halt nf) = halt := by
  simp only [statusHalt, packStatus, BitVec.getLsbD_append]
  simp

@[simp] theorem packStatus_reservedLow : statusReservedLow (packStatus high cc low halt nf) = low := by
  apply BitVec.eq_of_getLsbD_eq
  intro i hi
  simp only [statusReservedLow, packStatus, BitVec.getLsbD_extractLsb', BitVec.getLsbD_append, hi, decide_true,
    Bool.true_and]
  rw [if_neg (by omega), if_neg (by omega), if_pos (by omega)]
  congr 1
  omega

@[simp] theorem packStatus_cc : statusCc (packStatus high cc low halt nf) = cc := by
  apply BitVec.eq_of_getLsbD_eq
  intro i hi
  simp only [statusCc, packStatus, BitVec.getLsbD_extractLsb', BitVec.getLsbD_append, hi, decide_true,
    Bool.true_and]
  rw [if_neg (by omega), if_neg (by omega), if_neg (by omega), if_pos (by omega)]
  congr 1
  omega

@[simp] theorem packStatus_reservedHigh : statusReservedHigh (packStatus high cc low halt nf) = high := by
  apply BitVec.eq_of_getLsbD_eq
  intro i hi
  simp only [statusReservedHigh, packStatus, BitVec.getLsbD_extractLsb', BitVec.getLsbD_append, hi, decide_true,
    Bool.true_and]
  rw [if_neg (by omega), if_neg (by omega), if_neg (by omega), if_neg (by omega)]
  congr 1
  omega

end

/-- A `STATUS` word is its fields. -/
theorem packStatus_fields (st : BitVec 64) :
    packStatus (statusReservedHigh st) (statusCc st) (statusReservedLow st) (statusHalt st) (statusNf st) = st := by
  apply BitVec.eq_of_getLsbD_eq
  intro i hi
  simp only [packStatus, statusReservedHigh, statusCc, statusReservedLow, statusHalt, statusNf,
    BitVec.getLsbD_append, BitVec.getLsbD_extractLsb', BitVec.getLsbD_ofBool]
  split
  · have : i = 0 := by omega
    subst this; simp
  · split
    · have : i = 1 := by omega
      subst this; simp
    · split
      · simp only [show i - 1 - 1 < 2 by omega, decide_true, Bool.true_and]
        congr 1; omega
      · split
        · simp only [show i - 1 - 1 - 2 < 4 by omega, decide_true, Bool.true_and]
          congr 1; omega
        · simp only [show i - 1 - 1 - 2 - 4 < 56 by omega, decide_true, Bool.true_and]
          congr 1; omega

/-- Two `STATUS` words with the same fields are equal. -/
theorem status_ext {a b : BitVec 64} (h1 : statusNf a = statusNf b) (h2 : statusHalt a = statusHalt b)
    (h3 : statusReservedLow a = statusReservedLow b) (h4 : statusCc a = statusCc b)
    (h5 : statusReservedHigh a = statusReservedHigh b) : a = b := by
  rw [← packStatus_fields a, ← packStatus_fields b, h1, h2, h3, h4, h5]

section
variable (b : Bool) (c : BitVec 4) (st : BitVec 64)

@[simp] theorem setStatusNf_nf : statusNf (setStatusNf b st) = b := by simp [setStatusNf]
@[simp] theorem setStatusNf_halt : statusHalt (setStatusNf b st) = statusHalt st := by simp [setStatusNf]
@[simp] theorem setStatusNf_reservedLow : statusReservedLow (setStatusNf b st) = statusReservedLow st := by
  simp [setStatusNf]
@[simp] theorem setStatusNf_cc : statusCc (setStatusNf b st) = statusCc st := by simp [setStatusNf]
@[simp] theorem setStatusNf_reservedHigh : statusReservedHigh (setStatusNf b st) = statusReservedHigh st := by
  simp [setStatusNf]

@[simp] theorem setStatusHalt_nf : statusNf (setStatusHalt b st) = statusNf st := by simp [setStatusHalt]
@[simp] theorem setStatusHalt_halt : statusHalt (setStatusHalt b st) = b := by simp [setStatusHalt]
@[simp] theorem setStatusHalt_reservedLow : statusReservedLow (setStatusHalt b st) = statusReservedLow st := by
  simp [setStatusHalt]
@[simp] theorem setStatusHalt_cc : statusCc (setStatusHalt b st) = statusCc st := by simp [setStatusHalt]
@[simp] theorem setStatusHalt_reservedHigh : statusReservedHigh (setStatusHalt b st) = statusReservedHigh st := by
  simp [setStatusHalt]

@[simp] theorem setStatusCc_nf : statusNf (setStatusCc c st) = statusNf st := by simp [setStatusCc]
@[simp] theorem setStatusCc_halt : statusHalt (setStatusCc c st) = statusHalt st := by simp [setStatusCc]
@[simp] theorem setStatusCc_reservedLow : statusReservedLow (setStatusCc c st) = statusReservedLow st := by
  simp [setStatusCc]
@[simp] theorem setStatusCc_cc : statusCc (setStatusCc c st) = c := by simp [setStatusCc]
@[simp] theorem setStatusCc_reservedHigh : statusReservedHigh (setStatusCc c st) = statusReservedHigh st := by
  simp [setStatusCc]

end

end Sys2Proof.Machine
end

