-- ==== Sys2Proof/Laws/PerInstr.lean ====
section
/-! SUPPORT. Facts about every command as syntax, one lemma per constructor. -/

namespace Sys2Proof.Laws

/-- The word of a command carries its opcode, and `z` is 0 in it (R60, R65 check 2, R66). -/
def OpcodeField.Statement (i : Instr) : Prop := opField (encode i) = opcodeOf i ∧ zField (encode i) = 0

theorem OpcodeField.gmul (d a b : Bank) (g : BitVec 8) : OpcodeField.Statement (.gmul d a b g) :=
  ⟨packWord_op _ _ _ _ _ _ _, packWord_z _ _ _ _ _ _ _⟩

theorem OpcodeField.gshl1add (d a b : Bank) (g : BitVec 8) : OpcodeField.Statement (.gshl1add d a b g) :=
  ⟨packWord_op _ _ _ _ _ _ _, packWord_z _ _ _ _ _ _ _⟩

theorem OpcodeField.gmin (d a b : Bank) (g : BitVec 8) : OpcodeField.Statement (.gmin d a b g) :=
  ⟨packWord_op _ _ _ _ _ _ _, packWord_z _ _ _ _ _ _ _⟩

theorem OpcodeField.gor (d a b : Bank) (g : BitVec 8) : OpcodeField.Statement (.gor d a b g) :=
  ⟨packWord_op _ _ _ _ _ _ _, packWord_z _ _ _ _ _ _ _⟩

theorem OpcodeField.gadds (d : Bank) (g : BitVec 8) (k : Lane) : OpcodeField.Statement (.gadds d g k) :=
  ⟨packWord_op _ _ _ _ _ _ _, packWord_z _ _ _ _ _ _ _⟩

theorem OpcodeField.gaddv (d a : Bank) (g : BitVec 8) : OpcodeField.Statement (.gaddv d a g) :=
  ⟨packWord_op _ _ _ _ _ _ _, packWord_z _ _ _ _ _ _ _⟩

theorem OpcodeField.glemask (d a : Bank) (g : BitVec 8) : OpcodeField.Statement (.glemask d a g) :=
  ⟨packWord_op _ _ _ _ _ _ _, packWord_z _ _ _ _ _ _ _⟩

theorem OpcodeField.gfold (d a : Bank) (g : BitVec 8) : OpcodeField.Statement (.gfold d a g) :=
  ⟨packWord_op _ _ _ _ _ _ _, packWord_z _ _ _ _ _ _ _⟩

theorem OpcodeField.bztest (d : Bank) (b : BitVec 8) : OpcodeField.Statement (.bztest d b) :=
  ⟨packWord_op _ _ _ _ _ _ _, packWord_z _ _ _ _ _ _ _⟩

theorem OpcodeField.badvs (b : BitVec 8) (k : Lane) : OpcodeField.Statement (.badvs b k) :=
  ⟨packWord_op _ _ _ _ _ _ _, packWord_z _ _ _ _ _ _ _⟩

theorem OpcodeField.badvv (b : BitVec 8) : OpcodeField.Statement (.badvv b) :=
  ⟨packWord_op _ _ _ _ _ _ _, packWord_z _ _ _ _ _ _ _⟩

theorem OpcodeField.bnfp (b : BitVec 8) : OpcodeField.Statement (.bnfp b) :=
  ⟨packWord_op _ _ _ _ _ _ _, packWord_z _ _ _ _ _ _ _⟩

theorem OpcodeField.bnft (b : BitVec 8) : OpcodeField.Statement (.bnft b) :=
  ⟨packWord_op _ _ _ _ _ _ _, packWord_z _ _ _ _ _ _ _⟩

theorem OpcodeField.bnfs (b : BitVec 8) : OpcodeField.Statement (.bnfs b) :=
  ⟨packWord_op _ _ _ _ _ _ _, packWord_z _ _ _ _ _ _ _⟩

theorem OpcodeField.adv (k : Lane) : OpcodeField.Statement (.adv k) :=
  ⟨packWord_op _ _ _ _ _ _ _, packWord_z _ _ _ _ _ _ _⟩

theorem OpcodeField.tstp : OpcodeField.Statement .tstp :=
  ⟨packWord_op _ _ _ _ _ _ _, packWord_z _ _ _ _ _ _ _⟩

theorem OpcodeField.tstt : OpcodeField.Statement .tstt :=
  ⟨packWord_op _ _ _ _ _ _ _, packWord_z _ _ _ _ _ _ _⟩

theorem OpcodeField.tsts : OpcodeField.Statement .tsts :=
  ⟨packWord_op _ _ _ _ _ _ _, packWord_z _ _ _ _ _ _ _⟩

theorem OpcodeField.init (mode : BitVec 16) (mod6 : BitVec 3) : OpcodeField.Statement (.init mode mod6) :=
  ⟨packWord_op _ _ _ _ _ _ _, packWord_z _ _ _ _ _ _ _⟩

theorem OpcodeField.wipe : OpcodeField.Statement .wipe :=
  ⟨packWord_op _ _ _ _ _ _ _, packWord_z _ _ _ _ _ _ _⟩

theorem OpcodeField.drive (count : BitVec 32) : OpcodeField.Statement (.drive count) :=
  ⟨packWord_op _ _ _ _ _ _ _, packWord_z _ _ _ _ _ _ _⟩

end Sys2Proof.Laws
end

