-- ==== Sys2Proof/Laws/Port.lean ====
section
/-! SUPPORT. The host port (spec/20_memory.md R40 to R42): the two parts of an address, and what a step does with each
host action. -/

namespace Sys2Proof.Machine

@[simp] theorem spaceOf_hostAddress (space : BitVec 4) (index : BitVec 16) :
    spaceOf (hostAddress space index) = space := by
  apply BitVec.eq_of_getLsbD_eq
  intro i hi
  simp only [spaceOf, hostAddress, BitVec.getLsbD_extractLsb', BitVec.getLsbD_append, hi, decide_true, Bool.true_and]
  rw [if_neg (by omega)]
  congr 1
  omega

@[simp] theorem indexOf_hostAddress (space : BitVec 4) (index : BitVec 16) :
    indexOf (hostAddress space index) = index.toNat := by
  unfold indexOf
  congr 1
  apply BitVec.eq_of_getLsbD_eq
  intro i hi
  simp only [hostAddress, BitVec.getLsbD_extractLsb', BitVec.getLsbD_append, hi, decide_true, Bool.true_and]
  rw [if_pos (by omega)]
  simp

/-- An address is its space and its index. -/
theorem hostAddress_parts (addr : BitVec 20) :
    hostAddress (spaceOf addr) (addr.extractLsb' 0 16) = addr := by
  apply BitVec.eq_of_getLsbD_eq
  intro i hi
  simp only [hostAddress, spaceOf, BitVec.getLsbD_append, BitVec.getLsbD_extractLsb']
  split
  · simp [*]
  · simp only [show i - 16 < 4 by omega, decide_true, Bool.true_and]
    congr 1
    omega

theorem hostAddress_eq_cmd_iff (space : BitVec 4) (index : BitVec 16) :
    hostAddress space index = cmdAddress ↔ space = 15 ∧ index = 0 := by
  constructor
  · intro h
    have h1 := congrArg spaceOf h
    have h2 := congrArg indexOf h
    rw [spaceOf_hostAddress] at h1
    rw [indexOf_hostAddress] at h2
    refine ⟨h1.trans (by decide), ?_⟩
    apply BitVec.eq_of_toNat_eq
    exact h2.trans (by decide)
  · rintro ⟨rfl, rfl⟩
    decide

/-! ### A step, by the host's next action -/

theorem step_nil {s : State} (h : s.host = []) : step s = .next s := by
  simp only [step, takeHostAction, h]

theorem step_cons {s : State} {a : HostAccess} {rest : List HostAccess} (h : s.host = a :: rest) :
    step s = hostAction a { s with host := rest } := by
  simp only [step, takeHostAction, h]

/-- What a step with a pending action can answer (R42, R60, R190), case by case. -/
theorem hostAction_cases {a : HostAccess} {s : State} {ans : Answer} (h : hostAction a s = ans) :
    (∃ addr, a = .read addr ∧ ans = .next { s with hostRead := memRead addr s }) ∨
    (∃ addr v, a = .write addr v ∧ statusHalt s.status = true ∧ ans = .next s) ∨
    (∃ v i, a = .write cmdAddress v ∧ statusHalt s.status = false ∧ decode v = .ok i ∧ ans = exec i s) ∨
    (∃ v e, a = .write cmdAddress v ∧ statusHalt s.status = false ∧ decode v = .error e ∧
      ans = .next (raise .illegalCommand s)) ∨
    (∃ addr v, a = .write addr v ∧ statusHalt s.status = false ∧ addr ≠ cmdAddress ∧ ans = .next (memWrite addr v s)) ∨
    (a = .reset ∧ ans = .next (resetEvent s)) := by
  subst h
  cases a with
  | read addr => exact .inl ⟨addr, rfl, rfl⟩
  | reset => exact .inr (.inr (.inr (.inr (.inr ⟨rfl, rfl⟩))))
  | write addr v =>
    cases hh : statusHalt s.status
    · by_cases hc : addr = cmdAddress
      · subst hc
        cases hd : decode v with
        | ok i => exact .inr (.inr (.inl ⟨v, i, rfl, rfl, hd, by simp [hostAction, hh, issue, hd]⟩))
        | error e => exact .inr (.inr (.inr (.inl ⟨v, e, rfl, rfl, hd, by simp [hostAction, hh, issue, hd]⟩)))
      · exact .inr (.inr (.inr (.inr (.inl ⟨addr, v, rfl, rfl, hc, by simp [hostAction, hh, hc]⟩))))
    · exact .inr (.inl ⟨addr, v, rfl, rfl, by simp [hostAction, hh]⟩)

/-- A host write to another address than `CMD` touches memory, `MOD6_INCR`, `LSB` and `OFFSET` alone. -/
theorem memWrite_frame (addr : BitVec 20) (v : Word64) (s : State) :
    (memWrite addr v s).mem.out.length = s.mem.out.length ∧ (memWrite addr v s).status = s.status ∧
      (memWrite addr v s).result = s.result ∧ (memWrite addr v s).outcnt = s.outcnt ∧
      (memWrite addr v s).mode = s.mode ∧ (memWrite addr v s).mod6 = s.mod6 ∧ (memWrite addr v s).host = s.host ∧
      (memWrite addr v s).hostRead = s.hostRead ∧ (memWrite addr v s).draws = s.draws := by
  unfold memWrite
  split
  · simp
  · split
    · simp
    · split
      · unfold writeCsr
        split <;> simp
      · simp

end Sys2Proof.Machine
end

