-- ==== Sys2Proof/Laws/Search.lean ====
section
/-! SUPPORT. Survivors recur, so that the search for the next one ends (spec/43_drivers.md R151, R152), and what the
search leaves. -/

namespace Sys2Proof.Machine

/-! ### Survivors recur (R152) -/

/-- The product of the first `n` primes of the table. -/
def primorial (n : Nat) : Nat := ((List.range n).map primeAt).prod

theorem primorial_succ (n : Nat) : primorial (n + 1) = primorial n * primeAt n := by
  simp [primorial, List.range_succ]

theorem primorial_pos {n : Nat} (h : n ≤ 3456) : 0 < primorial n := by
  induction n with
  | zero => simp [primorial]
  | succ n ih =>
    have := primeAt_bounds (i := n) (by omega)
    rw [primorial_succ]
    exact Nat.mul_pos (ih (by omega)) (by omega)

theorem primorial_le {n : Nat} (h : n ≤ 3456) : primorial n ≤ 2 ^ (15 * n) := by
  induction n with
  | zero => simp [primorial]
  | succ n ih =>
    have := primeAt_bounds (i := n) (by omega)
    rw [primorial_succ, Nat.mul_add, Nat.pow_add]
    exact Nat.mul_le_mul (ih (by omega)) (by omega)

theorem primeAt_dvd_primorial {n i : Nat} (h : i < n) : primeAt i ∣ primorial n :=
  List.dvd_prod (List.mem_map.mpr ⟨i, List.mem_range.mpr h, rfl⟩)

theorem primeAt_coprime_six {i : Nat} (h : i < 3456) : (primeAt i).Coprime 6 := by
  have hb := primeAt_bounds h
  rw [Nat.Prime.coprime_iff_not_dvd (primeAt_prime h)]
  intro hd
  have h6 := Nat.le_of_dvd (by omega) hd
  have : primeAt i = 5 := by omega
  rw [this] at hd
  exact absurd hd (by decide)

theorem primorial_coprime_six {n : Nat} (h : n ≤ 3456) : (primorial n).Coprime 6 := by
  induction n with
  | zero => simp [primorial]
  | succ n ih =>
    rw [primorial_succ]
    exact Nat.Coprime.mul_left (ih (by omega)) (primeAt_coprime_six (by omega))

theorem primorial_coprime_primeAt {n i : Nat} (h : n ≤ i) (hi : i < 3456) : (primorial n).Coprime (primeAt i) := by
  induction n with
  | zero => simp [primorial]
  | succ n ih =>
    rw [primorial_succ]
    exact Nat.Coprime.mul_left (ih (by omega)) (primeAt_coprime (by omega) hi (by omega))

/-- Some number is 1 modulo each prime of the lanes and 5 modulo 6; it survives in every kind. -/
theorem survivor_of_mod {k : Kind} {n c : Nat} (hn : n ≤ 3456) (h6 : c % 6 = 5) (h : c % primorial n = 1 % primorial n) :
    survivor k n c = true := by
  rw [survivor_iff]
  constructor
  · rw [visited_iff, h6]
    cases k
    · exact .inr rfl
    · rfl
    · rfl
  · intro i hi
    have hb := primeAt_bounds (i := i) (by omega)
    have h1 : c % primeAt i = 1 := by
      have : c ≡ 1 [MOD primeAt i] := Nat.ModEq.of_dvd (primeAt_dvd_primorial hi) h
      rw [this, Nat.mod_eq_of_lt (by omega)]
    have h3 : (c + 2) % primeAt i = 3 := by
      rw [Nat.add_mod, h1, ← Nat.add_mod_mod, Nat.mod_mod, Nat.add_mod_mod, Nat.mod_eq_of_lt (by omega)]
    have h4 : (2 * c + 1) % primeAt i = 3 := by
      rw [Nat.add_mod, Nat.mul_mod, h1, Nat.mul_one, Nat.mod_mod, ← Nat.add_mod, Nat.mod_eq_of_lt (by omega)]
    cases k <;> simp [factorFree, h1, h3, h4]

/-- From every candidate on there is a survivor within `6 * p_0 * ... * p_(n-1)` (R152). -/
theorem survivor_recurs (k : Kind) {n : Nat} (hn : n ≤ 3456) (q : Nat) :
    ∃ e < 6 * primorial n, survivor k n (q + e) = true := by
  have hpos := primorial_pos hn
  obtain ⟨c, hc1, hc2⟩ := Nat.chineseRemainder (primorial_coprime_six hn) 1 5
  refine ⟨(c + (6 * primorial n - 1) * q) % (6 * primorial n), Nat.mod_lt _ (by omega), ?_⟩
  have key : (q + (c + (6 * primorial n - 1) * q) % (6 * primorial n)) ≡ c [MOD 6 * primorial n] := by
    unfold Nat.ModEq
    rw [Nat.add_mod_mod]
    have : q + (c + (6 * primorial n - 1) * q) = c + 6 * primorial n * q := by
      obtain ⟨m, hm⟩ : ∃ m, 6 * primorial n = m + 1 := ⟨6 * primorial n - 1, by omega⟩
      rw [hm, Nat.add_sub_cancel]
      ring
    rw [this, Nat.add_mul_mod_self_left]
  apply survivor_of_mod hn
  · have : _ ≡ 5 [MOD 6] := (key.of_dvd (Dvd.intro _ rfl)).trans hc2
    exact this
  · exact (key.of_dvd (Dvd.intro_left _ rfl)).trans hc1

theorem primorial_lt_pow {n e : Nat} (hn : n ≤ 3456) (he : 15 * n ≤ e) (he1 : 1 ≤ e) :
    6 * primorial n + 2 ^ 16 < 2 ^ (e + 16) := by
  have h1 := primorial_le hn
  have h2 : 2 ^ (15 * n) ≤ 2 ^ e := Nat.pow_le_pow_right (by omega) he
  have h3 : 2 ^ 1 ≤ 2 ^ e := Nat.pow_le_pow_right (by omega) he1
  rw [Nat.pow_add]
  omega

/-- The passes the search may take before it gives up are more than a period of survivors and a lane's settling. -/
theorem searchBound_large {n : Nat} (hn : n ≤ 3456) : 6 * primorial n + 2 ^ 16 < Config.searchBound := by
  unfold Config.searchBound
  exact primorial_lt_pow hn (by omega) (by omega)

/-- Some candidate has the residues of the first `n` lanes and a residue modulo 6. -/
theorem exists_candidate (m : Memory) {n : Nat} (hn : n ≤ 3456) (r : Nat) (hr : r < 6) :
    ∃ q, Residues q n m ∧ q % 6 = r := by
  obtain ⟨q0, hq0⟩ : ∃ q0, Residues q0 n m := by
    induction n with
    | zero => exact ⟨0, fun i hi => absurd hi (by omega)⟩
    | succ n ih =>
      obtain ⟨q, hq⟩ := ih (by omega)
      obtain ⟨c, hc1, hc2⟩ :=
        Nat.chineseRemainder (primorial_coprime_primeAt (n := n) (i := n) (by omega) (by omega)) q (residueAt n m)
      refine ⟨c, fun i hi => ?_⟩
      by_cases h : i < n
      · rw [hq i h]
        exact (hc1.of_dvd (primeAt_dvd_primorial h)).symm
      · rw [show i = n by omega]
        exact hc2.symm
  obtain ⟨c, hc1, hc2⟩ := Nat.chineseRemainder (primorial_coprime_six hn) q0 r
  refine ⟨c, fun i hi => ?_, ?_⟩
  · rw [hq0 i hi]
    exact (hc1.of_dvd (primeAt_dvd_primorial hi)).symm
  · rw [hc2, Nat.mod_eq_of_lt hr]

/-! ### The search for the next survivor -/

/-- What a driver leaves alone, over any number of passes. -/
structure SearchFrame (x y : Search) : Prop where
  status : y.st.status = x.st.status
  result : y.st.result = x.st.result
  outcnt : y.st.outcnt = x.st.outcnt
  mode : y.st.mode = x.st.mode
  mod6Incr : y.st.mod6Incr = x.st.mod6Incr
  host : y.st.host = x.st.host
  hostRead : y.st.hostRead = x.st.hostRead
  draws : y.st.draws = x.st.draws
  kv : y.st.mem.kv = x.st.mem.kv
  tmp : y.st.mem.tmp = x.st.mem.tmp
  tmp2 : y.st.mem.tmp2 = x.st.mem.tmp2
  capacity : y.st.mem.out.length = x.st.mem.out.length
  lanes : ∀ i, tierLanes x.st.mode ≤ i → y.st.mem.r.getD i 0 = x.st.mem.r.getD i 0

theorem SearchFrame.refl (x : Search) : SearchFrame x x :=
  ⟨rfl, rfl, rfl, rfl, rfl, rfl, rfl, rfl, rfl, rfl, rfl, rfl, fun _ _ => rfl⟩

theorem SearchFrame.trans {x y z : Search} (h : SearchFrame x y) (h' : SearchFrame y z) : SearchFrame x z where
  status := h'.status.trans h.status
  result := h'.result.trans h.result
  outcnt := h'.outcnt.trans h.outcnt
  mode := h'.mode.trans h.mode
  mod6Incr := h'.mod6Incr.trans h.mod6Incr
  host := h'.host.trans h.host
  hostRead := h'.hostRead.trans h.hostRead
  draws := h'.draws.trans h.draws
  kv := h'.kv.trans h.kv
  tmp := h'.tmp.trans h.tmp
  tmp2 := h'.tmp2.trans h.tmp2
  capacity := h'.capacity.trans h.capacity
  lanes := fun i hi => (h'.lanes i (by rw [h.mode]; exact hi)).trans (h.lanes i hi)

theorem PassFrame.frame {x y : Search} (h : PassFrame x y) : SearchFrame x y := by
  obtain ⟨r, out, d, h1, h2, h3, h4⟩ := h
  constructor <;> rw [h1]
  · exact h3
  · exact h4

/-- `findNext` from a state in range that stands for `q`, with more passes left than candidates up to some survivor:
it records exactly one survivor, the first from `q` on, and stands after it. -/
theorem findNext_inRange {k : Kind} {n q : Nat} {x : Search} (hx : Stands k q x.st)
    (hs : ∃ e < n, survivor k (tierLanes x.st.mode) (q + e) = true) :
    ∃ y d, findNext (driverPass k) n x = .full y ∧ 0 < d ∧ Stands k (q + d) y.st ∧ SearchFrame x y ∧
      y.st.lsb = x.st.lsb + BitVec.ofNat 64 d ∧ y.st.offset = x.st.offset + BitVec.ofNat 64 d ∧
      ∃ e < d, (∀ e' < d, survivor k (tierLanes x.st.mode) (q + e') = decide (e' = e)) ∧ y.j = x.j + 1 ∧
        y.last = x.st.lsb + BitVec.ofNat 64 e ∧ y.st.mem.out = x.st.mem.out.set x.j (x.st.lsb + BitVec.ofNat 64 e) := by
  induction n generalizing q x with
  | zero =>
    obtain ⟨e, he, -⟩ := hs
    omega
  | succ n ih =>
    obtain ⟨y, d, h1, h2, h3, h4, h5, h6⟩ := driverPass_inRange hx
    have hf := (driverPass_some hx.running h1).2.1.frame
    rcases h6 with ⟨hno, hj, hl, ho⟩ | hfound
    · obtain ⟨e, he, hse⟩ := hs
      have hde : d ≤ e := by
        by_contra hc
        rw [hno e (by omega)] at hse
        cases hse
      obtain ⟨z, d', z1, z2, z3, z4, z5, z6, e', he', z7, z8, z9, z10⟩ :=
        ih h3 ⟨e - d, by omega, by rw [hf.mode, show q + d + (e - d) = q + e by omega]; exact hse⟩
      refine ⟨z, d + d', ?_, by omega, by rw [← Nat.add_assoc]; exact z3, hf.trans z4, ?_, ?_, d + e', by omega, ?_,
        by rw [z8, hj], ?_, ?_⟩
      · simp only [findNext, h1, hj, Nat.lt_irrefl, if_false]
        exact z1
      · rw [z5, h4, BitVec.ofNat_add, BitVec.add_assoc]
      · rw [z6, h5, BitVec.ofNat_add, BitVec.add_assoc]
      · intro i hi
        by_cases hid : i < d
        · rw [hno i hid]
          exact (decide_eq_false (by omega)).symm
        · have := z7 (i - d) (by omega)
          rw [hf.mode, show q + d + (i - d) = q + i by omega] at this
          rw [this]
          exact decide_eq_decide.mpr (by omega)
      · rw [z9, h4, BitVec.ofNat_add, BitVec.add_assoc]
      · rw [z10, h4, ho, hj, BitVec.ofNat_add, BitVec.add_assoc]
    · refine ⟨y, d, ?_, h2, h3, hf, h4, h5, hfound⟩
      obtain ⟨e, -, -, hj, -⟩ := hfound
      simp only [findNext, h1]
      rw [if_pos (by omega)]

/-- `findNext` with the model's bound. -/
theorem findNext_searchBound {k : Kind} {q : Nat} {x : Search} (hx : Stands k q x.st) :
    ∃ y d, findNext (driverPass k) Config.searchBound x = .full y ∧ 0 < d ∧ Stands k (q + d) y.st ∧ SearchFrame x y ∧
      y.st.lsb = x.st.lsb + BitVec.ofNat 64 d ∧ y.st.offset = x.st.offset + BitVec.ofNat 64 d ∧
      ∃ e < d, (∀ e' < d, survivor k (tierLanes x.st.mode) (q + e') = decide (e' = e)) ∧ y.j = x.j + 1 ∧
        y.last = x.st.lsb + BitVec.ofNat 64 e ∧
        y.st.mem.out = x.st.mem.out.set x.j (x.st.lsb + BitVec.ofNat 64 e) := by
  have hb := tierBlocks_mul x.st.mode
  obtain ⟨e, he, hse⟩ := survivor_recurs k hb.2.2 q
  have := searchBound_large hb.2.2
  exact findNext_inRange hx ⟨e, by omega, hse⟩

/-- Where the search for a survivor ends well, whatever the lanes hold: one more entry is recorded. -/
theorem findNext_full {k : Kind} {n : Nat} {x y : Search} (hx : Running k x.st)
    (h : findNext (driverPass k) n x = .full y) : Running k y.st ∧ SearchFrame x y ∧ y.j = x.j + 1 := by
  induction n generalizing x with
  | zero => cases h
  | succ n ih =>
    simp only [findNext] at h
    split at h
    · cases h
    · rename_i z hz
      obtain ⟨h1, h2, -⟩ := driverPass_some hx hz
      have hj := driverPass_j hz
      split at h
      · cases h
        exact ⟨h1, h2.frame, by omega⟩
      · obtain ⟨h3, h4, h5⟩ := ih h1 h
        exact ⟨h3, h2.frame.trans h4, by omega⟩

/-- Whatever the lanes hold, the search for a survivor does not run out of passes. -/
theorem findNext_ends {k : Kind} {n b : Nat} {x : Search} (hx : Running k x.st)
    (hb : ∀ i < tierLanes x.st.mode, residueAt i x.st.mem < 2 ^ 15 + b)
    (hn : 6 * primorial (tierLanes x.st.mode) + b < n) :
    findNext (driverPass k) n x ≠ .unfinished := by
  have ht := tierBlocks_mul x.st.mode
  induction b generalizing n x with
  | zero =>
    have h6 : x.st.mod6.toNat < 6 := by
      have := hx.standing
      cases k <;> simp only [standing] at this <;> omega
    obtain ⟨q, hq, hq6⟩ := exists_candidate x.st.mem ht.2.2 x.st.mod6.toNat h6
    obtain ⟨e, he, hse⟩ := survivor_recurs k ht.2.2 q
    obtain ⟨y, d, h1, h2, h3, -⟩ := findNext_inRange (n := n) ⟨hx, hb, hq, hq6.symm⟩ ⟨e, by omega, hse⟩
    rw [h1]
    exact SearchEnd.noConfusion
  | succ b ih =>
    cases n with
    | zero => omega
    | succ n =>
      cases hp : driverPass k x with
      | none =>
        simp only [findNext, hp]
        exact SearchEnd.noConfusion
      | some y =>
        obtain ⟨h1, h2, h3⟩ := driverPass_some hx hp
        by_cases hj : x.j < y.j
        · simp only [findNext, hp, if_pos hj]
          exact SearchEnd.noConfusion
        · have hmode := h2.frame.mode
          simp only [findNext, hp, if_neg hj]
          refine ih h1 ?_ (by rw [hmode]; omega) (by rw [hmode]; exact ht)
          intro i hi
          rw [hmode] at hi
          have hs := h3 i hi
          have := hb i hi
          unfold Settles at hs
          omega

/-- The loop of a driver, whatever the lanes hold: it never runs out of passes (R152), and where it ends well it has
recorded the entries asked for. -/
theorem findMany_ends {k : Kind} {n : Nat} {x : Search} (hx : Running k x.st) :
    findMany (driverPass k) n x = .overflow ∨
      ∃ y, findMany (driverPass k) n x = .full y ∧ Running k y.st ∧ SearchFrame x y ∧ y.j = x.j + n := by
  induction n generalizing x with
  | zero => exact .inr ⟨x, rfl, hx, .refl x, rfl⟩
  | succ n ih =>
    have hbound := searchBound_large (tierBlocks_mul x.st.mode).2.2
    have hlane : ∀ i < tierLanes x.st.mode, residueAt i x.st.mem < 2 ^ 15 + 2 ^ 15 := fun i _ =>
      (laneAt .r i x.st.mem).isLt
    have hends := findNext_ends (n := Config.searchBound) hx hlane (by omega)
    cases h : findNext (driverPass k) Config.searchBound x with
    | overflow =>
      left
      simp only [findMany, h]
    | unfinished => exact absurd h hends
    | full y =>
      obtain ⟨hy, hf, hj⟩ := findNext_full hx h
      simp only [findMany, h]
      rcases ih hy with h' | ⟨z, h1, h2, h3, h4⟩
      · exact .inl h'
      · exact .inr ⟨z, h1, h2, hf.trans h3, by omega⟩

/-- A driver from any lanes and any `MOD6` of 0 to 5. -/
theorem runDriver_ends {k : Kind} {n : Nat} {s : State} (hm : s.mem.wf) (hv : modeValid s.mode = true)
    (h6 : s.mod6.toNat < 6) :
    runDriver k n s = .overflow ∨
      ∃ y, runDriver k n s = .full y ∧ Running k y.st ∧ SearchFrame { st := s, j := 0, last := 0 } y ∧ y.j = n := by
  have he := entryStep_lt (k := k) h6
  unfold runDriver
  cases ht : advance (entryStep k s.mod6) s with
  | none => exact .inl rfl
  | some t =>
    obtain ⟨r, h1, h2, -, -, hlanes⟩ := advance_some hm (by omega) ht
    have hrun : Running k t := by
      refine ⟨h2, by rw [h1]; exact hv, ?_⟩
      rw [h1]
      simp only [advanceCounters_mod6, ofNat_mod6]
      exact entryStep_standing h6
    have hframe : SearchFrame { st := s, j := 0, last := 0 } { st := t, j := 0, last := 0 } := by
      constructor <;> first | (rw [h1]; rfl) | exact hlanes
    rcases findMany_ends (n := n) (x := { st := t, j := 0, last := 0 }) hrun with h | ⟨y, y1, y2, y3, y4⟩
    · exact .inl h
    · exact .inr ⟨y, y1, y2, hframe.trans y3, by rw [y4]; exact Nat.zero_add n⟩

/-! ### What the loop lists -/

/-- The words recorded for the survivors among the `d` candidates from `q` on, when `LSB` is `lsb` at `q`. -/
def recordedWords (k : Kind) (lanes q : Nat) (lsb : Word64) (d : Nat) : List Word64 :=
  ((List.range d).filter fun e => survivor k lanes (q + e)).map fun e => lsb + BitVec.ofNat 64 e

theorem filter_eq_single {d e : Nat} {p : Nat → Bool} (he : e < d) (h : ∀ e' < d, p e' = decide (e' = e)) :
    (List.range d).filter p = [e] := by
  have hp : (List.range d).filter p = (List.range d).filter fun e' => decide (e' = e) :=
    List.filter_congr fun e' he' => h e' (List.mem_range.mp he')
  rw [hp]
  clear h hp
  induction d with
  | zero => omega
  | succ d ih =>
    rw [List.range_succ, List.filter_append]
    by_cases hd : e = d
    · subst hd
      have : (List.range e).filter (fun e' => decide (e' = e)) = [] := by
        rw [List.filter_eq_nil_iff]
        intro a ha
        have := List.mem_range.mp ha
        simp only [decide_eq_true_eq]
        omega
      simp [this]
    · rw [ih (by omega)]
      simp only [List.filter_cons, List.filter_nil]
      rw [if_neg (by simp only [decide_eq_true_eq]; omega)]
      rfl

theorem recordedWords_add (k : Kind) (lanes q : Nat) (lsb : Word64) (d d' : Nat) :
    recordedWords k lanes q lsb (d + d') =
      recordedWords k lanes q lsb d ++ recordedWords k lanes (q + d) (lsb + BitVec.ofNat 64 d) d' := by
  simp only [recordedWords, List.range_add, List.filter_append, List.map_append, List.filter_map, List.map_map]
  congr 1
  simp only [Function.comp_def, Nat.add_assoc, BitVec.ofNat_add, BitVec.add_assoc]

/-- The words recorded are the survivors of R151, when `LSB` is the low 64 bits of the candidate. -/
theorem recordedWords_eq_survivorWords (k : Kind) (lanes q d : Nat) :
    recordedWords k lanes q (BitVec.ofNat 64 q) d = survivorWords k lanes q d := by
  unfold recordedWords survivorWords
  rw [List.range'_eq_map_range, List.filter_map, List.map_map]
  simp only [Function.comp_def, ← BitVec.ofNat_add]

theorem overlay_nil {α : Type} (base : Nat) (old : List α) : overlay base [] old = old := by
  cases old <;> simp [overlay]

theorem overlay_cons_set {α : Type} (base : Nat) (a : α) (new old : List α) :
    overlay base (a :: new) old = overlay (base + 1) new (old.set base a) := by
  induction old generalizing base a new with
  | nil => simp [overlay]
  | cons o old ih =>
    cases base with
    | zero => cases new <;> simp [overlay, overlay_nil]
    | succ base =>
      cases new with
      | nil =>
        have := ih base a []
        simp only [overlay_nil] at this ⊢
        simp only [overlay, List.set_cons_succ, this]
      | cons n new => simp only [overlay, List.set_cons_succ, ih base a (n :: new)]

/-- The loop of a driver from a state in range that stands for `q`: it records `n` survivors, the first `n` from `q`
on, in ascending order, and stands after the last of them. -/
theorem findMany_inRange {k : Kind} {n q : Nat} {x : Search} (hx : Stands k q x.st) :
    ∃ y d, findMany (driverPass k) n x = .full y ∧ Stands k (q + d) y.st ∧ SearchFrame x y ∧ y.j = x.j + n ∧
      y.st.lsb = x.st.lsb + BitVec.ofNat 64 d ∧ y.st.offset = x.st.offset + BitVec.ofNat 64 d ∧
      (recordedWords k (tierLanes x.st.mode) q x.st.lsb d).length = n ∧
      y.st.mem.out = overlay x.j (recordedWords k (tierLanes x.st.mode) q x.st.lsb d) x.st.mem.out ∧
      y.last = ((recordedWords k (tierLanes x.st.mode) q x.st.lsb d).getLast?).getD x.last := by
  induction n generalizing q x with
  | zero => exact ⟨x, 0, rfl, hx, .refl x, rfl, by simp, by simp, by simp [recordedWords],
      by simp [recordedWords, overlay_nil], by simp [recordedWords]⟩
  | succ n ih =>
    obtain ⟨y, d, h1, h2, h3, h4, h5, h6, e, he, h7, h8, h9, h10⟩ := findNext_searchBound hx
    obtain ⟨z, d', z1, z2, z3, z4, z5, z6, z7, z8, z9⟩ := ih h3
    have hmode := h4.mode
    have hw : recordedWords k (tierLanes x.st.mode) q x.st.lsb d = [x.st.lsb + BitVec.ofNat 64 e] := by
      unfold recordedWords
      rw [filter_eq_single he h7]
      rfl
    have hws := recordedWords_add k (tierLanes x.st.mode) q x.st.lsb d d'
    rw [hw, ← h5, List.singleton_append] at hws
    rw [hmode] at z7 z8 z9
    refine ⟨z, d + d', ?_, by rw [← Nat.add_assoc]; exact z2, h4.trans z3, by omega, ?_, ?_, ?_, ?_, ?_⟩
    · simp only [findMany, h1]
      exact z1
    · rw [z5, h5, BitVec.ofNat_add, BitVec.add_assoc]
    · rw [z6, h6, BitVec.ofNat_add, BitVec.add_assoc]
    · rw [hws, List.length_cons, z7]
    · rw [hws, z8, h10, h8, overlay_cons_set]
    · rw [hws, z9, h9]
      cases hl : recordedWords k (tierLanes x.st.mode) (q + d) y.st.lsb d' <;> simp [List.getLast?_cons]

/-- A driver from a state in range that agrees with `q` up to `MOD6`: the entry step brings it to the first candidate
its kind visits, and the loop does the rest. -/
theorem runDriver_inRange {k : Kind} {n q : Nat} {s : State} (hm : s.mem.wf) (hv : modeValid s.mode = true)
    (hr : InRange (tierLanes s.mode) s.mem) (hq : Residues q (tierLanes s.mode) s.mem) (h6 : s.mod6.toNat = q % 6) :
    ∃ y d, runDriver k n s = .full y ∧ Stands k (q + d) y.st ∧
      SearchFrame { st := s, j := 0, last := 0 } y ∧ y.j = n ∧
      y.st.lsb = s.lsb + BitVec.ofNat 64 d ∧ y.st.offset = s.offset + BitVec.ofNat 64 d ∧
      (recordedWords k (tierLanes s.mode) q s.lsb d).length = n ∧
      y.st.mem.out = overlay 0 (recordedWords k (tierLanes s.mode) q s.lsb d) s.mem.out ∧
      y.last = ((recordedWords k (tierLanes s.mode) q s.lsb d).getLast?).getD 0 := by
  have hlt : s.mod6.toNat < 6 := by omega
  have he := entryStep_lt (k := k) hlt
  have hst := entryStep_standing (k := k) hlt
  obtain ⟨t, ht, ⟨r, h1⟩, h2, h3, h4, h5⟩ := advance_inRange (k := entryStep k s.mod6) hm hr hq h6 (by omega)
  obtain ⟨r', -, -, -, -, hlanes⟩ := advance_some hm (by omega) ht
  have hmode : t.mode = s.mode := by rw [h1]; rfl
  have hstands : Stands k (q + entryStep k s.mod6) t := by
    refine ⟨⟨h2, by rw [hmode]; exact hv, ?_⟩, by rw [hmode]; exact h3, by rw [hmode]; exact h4, h5⟩
    rw [h5, ← Nat.mod_add_mod, ← h6]
    exact hst
  have hframe : SearchFrame { st := s, j := 0, last := 0 } { st := t, j := 0, last := 0 } := by
    constructor <;> first | (rw [h1]; rfl) | exact hlanes
  obtain ⟨y, d, y1, y2, y3, y4, y5, y6, y7, y8, y9⟩ :=
    findMany_inRange (n := n) (x := { st := t, j := 0, last := 0 }) hstands
  have hskip : recordedWords k (tierLanes s.mode) q s.lsb (entryStep k s.mod6) = [] := by
    unfold recordedWords
    rw [List.map_eq_nil_iff, List.filter_eq_nil_iff]
    intro e hlt'
    rw [List.mem_range] at hlt'
    rw [survivor_iff, visited_iff]
    rintro ⟨hvis, -⟩
    have hclass : (q + e) % 6 = (s.mod6.toNat + e) % 6 := by omega
    rw [hclass] at hvis
    have key : ∀ m : BitVec 3, m.toNat < 6 → ∀ e < entryStep k m, ¬ standing k ((m.toNat + e) % 6) := by
      cases k <;> unfold standing <;> decide
    exact key s.mod6 hlt e hlt' hvis
  have hws := recordedWords_add k (tierLanes s.mode) q s.lsb (entryStep k s.mod6) d
  rw [hskip, List.nil_append] at hws
  have hlsb : t.lsb = s.lsb + BitVec.ofNat 64 (entryStep k s.mod6) := by rw [h1]; rfl
  have hoff : t.offset = s.offset + BitVec.ofNat 64 (entryStep k s.mod6) := by rw [h1]; rfl
  have hout : t.mem.out = s.mem.out := by rw [h1]; rfl
  simp only [hmode, hlsb, hoff, hout] at y5 y6 y7 y8 y9
  refine ⟨y, entryStep k s.mod6 + d, ?_, by rw [← Nat.add_assoc]; exact y2, hframe.trans y3, by rw [y4]; exact Nat.zero_add n, ?_, ?_,
    by rw [hws]; exact y7, by rw [hws]; exact y8, by rw [hws]; exact y9⟩
  · unfold runDriver
    rw [ht]
    exact y1
  · rw [y5, BitVec.ofNat_add, BitVec.add_assoc]
  · rw [y6, BitVec.ofNat_add, BitVec.add_assoc]

end Sys2Proof.Machine
end

