-- ==== Sys2Proof/Laws/Resume.lean ====
section
/-! SUPPORT. A driver's course depends on the lanes of `R`, the mode and the counters alone, not on the output buffer,
the index or the scratch: what lets one DRIVE go on where another stopped (spec/43_drivers.md R147). -/

namespace Sys2Proof.Machine

/-- Two searches that take the same course. -/
structure Alike (x y : Search) : Prop where
  r : y.st.mem.r = x.st.mem.r
  mode : y.st.mode = x.st.mode
  mod6 : y.st.mod6 = x.st.mod6
  lsb : y.st.lsb = x.st.lsb
  offset : y.st.offset = x.st.offset

theorem noFactor_alike {k : Kind} {b : Nat} {m m' : Memory} (h : m'.r = m.r) : noFactor k b m' = noFactor k b m := by
  unfold noFactor
  rw [h]

theorem noFactorBlocks_alike {k : Kind} {first n : Nat} {m m' : Memory} (h : m'.r = m.r) :
    noFactorBlocks k first n m' = noFactorBlocks k first n m := by
  unfold noFactorBlocks
  simp only [noFactor_alike h]

theorem testTier_alike {k : Kind} {nb : Nat} {m m' : Memory} (h : m'.r = m.r) : testTier k nb m' = testTier k nb m := by
  unfold testTier
  rw [noFactor_alike h, noFactorBlocks_alike h]

theorem advBlocksScalar_alike {b n k : Nat} {m m' : Memory} (h : m'.r = m.r) :
    (advBlocksScalar b n k m = none ∧ advBlocksScalar b n k m' = none) ∨
      ∃ r, advBlocksScalar b n k m = some { m with r := r } ∧ advBlocksScalar b n k m' = some { m' with r := r } := by
  unfold advBlocksScalar advanceRange
  rw [h]
  cases advanceLanes (slice (64 * b) (64 * n) m.r) (List.replicate (64 * n) (BitVec.ofNat 16 k))
    (slice (64 * b) (64 * n) m2rTable) with
  | none => exact .inl ⟨rfl, rfl⟩
  | some lanes => exact .inr ⟨_, rfl, rfl⟩

theorem advance_alike {k : Nat} {x y : Search} (h : Alike x y) :
    (advance k x.st = none ∧ advance k y.st = none) ∨
      ∃ r, advance k x.st = some (advanceCounters k { x.st with mem := { x.st.mem with r := r } }) ∧
        advance k y.st = some (advanceCounters k { y.st with mem := { y.st.mem with r := r } }) := by
  have hblocks : tierBlocks y.st.mode = tierBlocks x.st.mode := by rw [h.mode]
  unfold advance
  rw [hblocks]
  rcases advBlocksScalar_alike (b := 0) (n := tierBlocks x.st.mode) (k := k) h.r with ⟨h1, h2⟩ | ⟨r, h1, h2⟩
  · exact .inl (by simp only [h1, h2, and_self])
  · exact .inr ⟨r, by simp only [h1], by simp only [h2]⟩

theorem fastSkip_alike {k : Kind} {n : Nat} {m m' : Memory} {skip : Nat} (h : m'.r = m.r) :
    (fastSkip k n m skip = none ∧ fastSkip k n m' skip = none) ∨
      ∃ r s, fastSkip k n m skip = some ({ m with r := r }, s) ∧ fastSkip k n m' skip = some ({ m' with r := r }, s) := by
  induction n generalizing m m' skip with
  | zero => exact .inr ⟨m.r, skip, rfl, by rw [← h]; rfl⟩
  | succ n ih =>
    unfold fastSkip
    rw [noFactor_alike h]
    by_cases hs : (noFactor k 0 m || decide (2 ^ 14 ≤ skip)) = true
    · rw [if_pos hs, if_pos hs]
      exact .inr ⟨m.r, skip, rfl, by rw [← h]⟩
    · rw [if_neg hs, if_neg hs]
      rcases advBlocksScalar_alike (b := 0) (n := 1) (k := 6) h with ⟨h1, h2⟩ | ⟨r, h1, h2⟩
      · exact .inl (by simp only [h1, h2, and_self])
      · simp only [h1, h2]
        exact ih (m := { m with r := r }) (m' := { m' with r := r }) rfl

/-- How two alike searches move on together: both record the same word, or neither records. -/
structure MoveAlike (x y x' y' : Search) : Prop where
  alike : Alike x' y'
  wordless : x'.j = x.j → y'.j = y.j ∧ x'.last = x.last ∧ y'.last = y.last ∧ x'.st.mem.out = x.st.mem.out ∧
    y'.st.mem.out = y.st.mem.out
  recorded : x'.j ≠ x.j → x'.j = x.j + 1 ∧ y'.j = y.j + 1 ∧ y'.last = x'.last ∧
    x'.st.mem.out = x.st.mem.out.set x.j x'.last ∧ y'.st.mem.out = y.st.mem.out.set y.j y'.last

theorem recordIf_alike (b : Bool) {x y : Search} (h : Alike x y) : MoveAlike x y (recordIf b x) (recordIf b y) := by
  obtain ⟨h1, h2, h3, h4, h5⟩ := h
  cases b
  · exact ⟨⟨h1, h2, h3, h4, h5⟩, fun _ => ⟨rfl, rfl, rfl, rfl, rfl⟩, fun hc => absurd rfl hc⟩
  · exact ⟨⟨h1, h2, h3, h4, h5⟩, fun hc => absurd hc (Nat.succ_ne_self _), fun _ => ⟨rfl, rfl, h4, rfl, rfl⟩⟩

theorem advanceSearch_alike {k : Nat} {x y x' y' : Search} (h : MoveAlike x y x' y') :
    (advanceSearch k x' = none ∧ advanceSearch k y' = none) ∨
      ∃ u v, advanceSearch k x' = some u ∧ advanceSearch k y' = some v ∧ MoveAlike x y u v := by
  unfold advanceSearch
  rcases advance_alike (k := k) h.alike with ⟨h1, h2⟩ | ⟨r, h1, h2⟩
  · exact .inl (by simp only [h1, h2, and_self])
  · right
    simp only [h1, h2]
    refine ⟨_, _, rfl, rfl, ⟨rfl, h.alike.mode, ?_, ?_, ?_⟩, h.wordless, h.recorded⟩
    · simp only [advanceCounters_mod6, h.alike.mod6]
    · simp only [advanceCounters_lsb, h.alike.lsb]
    · simp only [advanceCounters_offset, h.alike.offset]

theorem plainPass_alike {x y : Search} (h : Alike x y) :
    (plainPass x = none ∧ plainPass y = none) ∨
      ∃ u v, plainPass x = some u ∧ plainPass y = some v ∧ MoveAlike x y u v := by
  unfold plainPass
  rw [h.mod6, h.mode, testTier_alike h.r]
  exact advanceSearch_alike (recordIf_alike _ h)

theorem pairPass_alike {k : Kind} {x y : Search} (h : Alike x y) :
    (pairPass k x = none ∧ pairPass k y = none) ∨
      ∃ u v, pairPass k x = some u ∧ pairPass k y = some v ∧ MoveAlike x y u v := by
  have hblocks : tierBlocks y.st.mode = tierBlocks x.st.mode := by rw [h.mode]
  unfold pairPass afterSkip
  rw [hblocks]
  rcases fastSkip_alike (k := k) (n := 2731) (skip := 0) h.r with ⟨h1, h2⟩ | ⟨r, s, h1, h2⟩
  · exact .inl (by simp only [h1, h2, and_self])
  · simp only [h1, h2]
    rcases advBlocksScalar_alike (b := 1) (n := tierBlocks x.st.mode - 1) (k := s)
      (m := { x.st.mem with r := r }) (m' := { y.st.mem with r := r }) rfl with ⟨h3, h4⟩ | ⟨r', h3, h4⟩
    · exact .inl (by simp only [h3, h4, and_self])
    · simp only [h3, h4, advanceCounters_mode, advanceCounters_mem]
      have hal : Alike { x with st := advanceCounters s { x.st with mem := { x.st.mem with r := r' } } }
          { y with st := advanceCounters s { y.st with mem := { y.st.mem with r := r' } } } := by
        refine ⟨rfl, h.mode, ?_, ?_, ?_⟩
        · simp only [advanceCounters_mod6, h.mod6]
        · simp only [advanceCounters_lsb, h.lsb]
        · simp only [advanceCounters_offset, h.offset]
      by_cases hbig : 2 ^ 14 ≤ s
      · rw [if_pos hbig, if_pos hbig]
        exact .inr ⟨_, _, rfl, rfl, hal, fun _ => ⟨rfl, rfl, rfl, rfl, rfl⟩, fun hc => absurd rfl hc⟩
      · rw [if_neg hbig, if_neg hbig, hblocks]
        rw [noFactorBlocks_alike (m := { x.st.mem with r := r' }) (m' := { y.st.mem with r := r' }) rfl]
        exact advanceSearch_alike
          (let m := recordIf_alike (noFactorBlocks k 1 (tierBlocks x.st.mode - 1) { x.st.mem with r := r' }) hal
          ⟨m.alike, m.wordless, m.recorded⟩)

theorem driverPass_alike {k : Kind} {x y : Search} (h : Alike x y) :
    (driverPass k x = none ∧ driverPass k y = none) ∨
      ∃ u v, driverPass k x = some u ∧ driverPass k y = some v ∧ MoveAlike x y u v := by
  cases k with
  | plain => exact plainPass_alike h
  | twin => exact pairPass_alike h
  | safe => exact pairPass_alike h

/-- Alike searches for the next survivor end alike. -/
theorem findNext_alike {k : Kind} {n : Nat} {x y u : Search} (h : Alike x y) (hu : findNext (driverPass k) n x = .full u) :
    ∃ v, findNext (driverPass k) n y = .full v ∧ Alike u v ∧ u.j = x.j + 1 ∧ v.j = y.j + 1 ∧ v.last = u.last ∧
      u.st.mem.out = x.st.mem.out.set x.j u.last ∧ v.st.mem.out = y.st.mem.out.set y.j u.last := by
  induction n generalizing x y with
  | zero => cases hu
  | succ n ih =>
    simp only [findNext] at hu
    rcases driverPass_alike (k := k) h with ⟨h1, h2⟩ | ⟨a, b, h1, h2, h3⟩
    · simp only [h1] at hu
      cases hu
    · simp only [h1] at hu
      simp only [findNext, h2]
      have hj := driverPass_j h1
      by_cases hc : a.j = x.j
      · obtain ⟨w1, w2, w3, w4, w5⟩ := h3.wordless hc
        rw [if_neg (by omega)] at hu
        rw [if_neg (by omega)]
        obtain ⟨v, v1, v2, v3, v4, v5, v6, v7⟩ := ih h3.alike hu
        exact ⟨v, v1, v2, by rw [v3, hc], by rw [v4, w1], v5, by rw [v6, w4, hc], by rw [v7, w5, w1]⟩
      · obtain ⟨w1, w2, w3, w4, w5⟩ := h3.recorded hc
        rw [if_pos (by omega)] at hu
        rw [if_pos (by omega)]
        cases hu
        exact ⟨b, rfl, h3.alike, w1, w2, w3, w4, by rw [w5, w3]⟩

/-- Alike loops end alike, with the same words recorded. -/
theorem findMany_alike {k : Kind} {n : Nat} {x y u : Search} (h : Alike x y)
    (hu : findMany (driverPass k) n x = .full u) :
    ∃ v words, findMany (driverPass k) n y = .full v ∧ Alike u v ∧ words.length = n ∧ u.j = x.j + n ∧ v.j = y.j + n ∧
      u.st.mem.out = overlay x.j words x.st.mem.out ∧ v.st.mem.out = overlay y.j words y.st.mem.out ∧
      u.last = words.getLast?.getD x.last ∧ v.last = words.getLast?.getD y.last := by
  induction n generalizing x y with
  | zero =>
    cases hu
    exact ⟨y, [], rfl, h, rfl, rfl, rfl, (overlay_nil _ _).symm, (overlay_nil _ _).symm, rfl, rfl⟩
  | succ n ih =>
    simp only [findMany] at hu
    cases ha : findNext (driverPass k) Config.searchBound x with
    | overflow =>
      rw [ha] at hu
      cases hu
    | unfinished =>
      rw [ha] at hu
      cases hu
    | full a =>
      simp only [ha] at hu
      obtain ⟨b, b1, b2, b3, b4, b5, b6, b7⟩ := findNext_alike h ha
      obtain ⟨v, words, v1, v2, v3, v4, v5, v6, v7, v8, v9⟩ := ih b2 hu
      refine ⟨v, a.last :: words, ?_, v2, by rw [List.length_cons, v3], by omega, by omega, ?_, ?_, ?_, ?_⟩
      · simp only [findMany, b1]
        exact v1
      · rw [v6, b6, b3, overlay_cons_set]
      · rw [v7, b7, b4, overlay_cons_set]
      · rw [v8]
        cases words <;> simp [List.getLast?_cons]
      · rw [v9, b5]
        cases words <;> simp [List.getLast?_cons]

/-- A loop for `n + n'` survivors is a loop for `n` followed by one for `n'`. -/
theorem findMany_add {k : Kind} {n n' : Nat} {x y : Search} (h : findMany (driverPass k) n x = .full y) :
    findMany (driverPass k) (n + n') x = findMany (driverPass k) n' y := by
  induction n generalizing x with
  | zero =>
    cases h
    rw [Nat.zero_add]
  | succ n ih =>
    simp only [findMany] at h
    rw [show n + 1 + n' = n + n' + 1 by omega]
    simp only [findMany]
    cases ha : findNext (driverPass k) Config.searchBound x with
    | overflow =>
      rw [ha] at h
      cases h
    | unfinished =>
      rw [ha] at h
      cases h
    | full a =>
      rw [ha] at h
      exact ih h

/-- In range, an advance by 0 keeps the lanes (R142: a DRIVE that goes on has entry step 0). -/
theorem advance_zero {s : State} (hm : s.mem.wf) (hr : InRange (tierLanes s.mode) s.mem) (h6 : s.mod6.toNat < 6) :
    advance 0 s = some s := by
  obtain ⟨t, ht⟩ := advance_exists (k := 0) hm hr (by omega)
  obtain ⟨r, h1, h2, h3, h4, h5⟩ := advance_some hm (by omega) ht
  have hlen : r.length = s.mem.r.length := by
    have := h2.1
    rw [h1] at this
    rw [hm.1]
    exact this
  have hreq : r = s.mem.r := by
    apply eq_of_getD 0 hlen
    intro i hi
    by_cases hN : i < tierLanes s.mode
    · have := h4 i hN
      rw [advancedLane_zero (hr i hN)] at this
      rw [h1] at this
      exact BitVec.eq_of_toNat_eq this
    · have := h5 i (by omega)
      rw [h1] at this
      exact this
  have hmod6 : BitVec.ofNat 3 ((s.mod6.toNat + 0) % 6) = s.mod6 := by
    apply BitVec.eq_of_toNat_eq
    rw [ofNat_mod6]
    omega
  rw [ht, h1, hreq]
  simp only [advanceCounters, hmod6]
  simp

end Sys2Proof.Machine
end

