-- ==== Sys2Proof/Tests/Slice0.lean ====
section
/-! SUPPORT. Tests: well-formedness, words written out from the spec's encoding, one step of each command on small
states with the spec's own expected values (spec/95_test_vectors.md unless said), and for each statement with
hypotheses a state that meets them. -/

namespace Sys2Proof.Tests

open Sys2Proof.Machine Sys2Proof.Claims

set_option Elab.async false

/-! ### States -/

/-- All zero, with two words of output buffer and no mode. -/
def blank : State where
  mem := wipedMemory 2
  status := 0
  result := 0
  outcnt := 0
  mode := 0
  mod6 := 0
  mod6Incr := 0
  lsb := 0
  offset := 0
  host := []
  hostRead := 0
  draws := 0

/-- `blank` with the lanes of `R` from `base` on. -/
def withR (base : Nat) (r : List Lane) (s : State) : State := { s with mem := { s.mem with r := overlay base r s.mem.r } }

/-- The same of `KV`. -/
def withKv (base : Nat) (kv : List Lane) (s : State) : State :=
  { s with mem := { s.mem with kv := overlay base kv s.mem.kv } }

/-- The lanes of a candidate: `Q mod PRIMES[i]`. -/
def residuesOf (q : Nat) : List Lane := primesTable.map fun p => BitVec.ofNat 16 (q % p.toNat)

/-- The state of the candidate `q` in a mode. -/
def candidate (q : Nat) (mode : BitVec 16) : State :=
  { blank with
    mem := { wipedMemory 2 with r := residuesOf q }
    mode := mode
    mod6 := BitVec.ofNat 3 (q % 6)
    lsb := BitVec.ofNat 64 q }

/-- The state after an answer. -/
def after (a : Answer) (s : State) : State :=
  match a with
  | .next t => t
  | .fault _ => s
  | .refused _ => s

/-- The numbers in `n` lanes of a bank from `base` on. -/
def lanes (b : Bank) (base n : Nat) (s : State) : List Nat := (slice base n (bankLanes b s.mem)).map BitVec.toNat

/-- Run one command on a state. -/
def run (i : Instr) (s : State) : State := after (exec i s) s

/-! ### Well-formedness: each check refuses an ill-formed term (30_encoding.md R65) -/

theorem test_refuses_table_destination : (Instr.gmul .inv .r .inv 0).wellFormed = false := by decide
theorem test_refuses_table_destination_g2 : (Instr.gaddv .primes .r 0).wellFormed = false := by decide
theorem test_refuses_table_destination_gi : (Instr.gadds .m2r 0 1).wellFormed = false := by decide
theorem test_refuses_group_216 : (Instr.gmul .tmp .r .inv 216).wellFormed = false := by decide
theorem test_refuses_group_216_g2 : (Instr.gfold .r .m2r 216).wellFormed = false := by decide
theorem test_refuses_group_216_gi : (Instr.gadds .r 216 1).wellFormed = false := by decide
theorem test_allows_scratch_group_255 : (Instr.gmul .tmp .tmp .tmp 255).wellFormed = true := by decide
theorem test_refuses_block_54 : (Instr.badvs 54 1).wellFormed = false := by decide
theorem test_refuses_block_54_bztest : (Instr.bztest .r 54).wellFormed = false := by decide
theorem test_allows_scratch_block_255 : (Instr.bztest .tmp 255).wellFormed = true := by decide

/-! ### Decoding: words from 30_encoding.md R69 and 95_test_vectors.md -/

theorem test_decode_gmul : decode 0x0160200000000000 = .ok (.gmul .tmp .r .inv 0) := by decide +kernel
theorem test_decode_gshl1add : decode 0x0276200000000000 = .ok (.gshl1add .tmp2 .tmp .inv 0) := by decide +kernel
theorem test_decode_gmin : decode 0x0366700000000000 = .ok (.gmin .tmp .tmp .tmp2 0) := by decide +kernel
theorem test_decode_gor : decode 0x0476000000000000 = .ok (.gor .tmp2 .tmp .r 0) := by decide +kernel
theorem test_decode_gadds : decode 0x050000010000FFFF = .ok (.gadds .r 1 0xFFFF) := by decide +kernel
theorem test_decode_gaddv : decode 0x0605000100000000 = .ok (.gaddv .r .kv 1) := by decide +kernel
theorem test_decode_glemask : decode 0x0763000000000000 = .ok (.glemask .tmp .limit 0) := by decide +kernel
theorem test_decode_gfold : decode 0x080400D700000000 = .ok (.gfold .r .m2r 215) := by decide +kernel
theorem test_decode_bztest : decode 0x1010003500000000 = .ok (.bztest .primes 53) := by decide +kernel
theorem test_decode_badvs : decode 0x1100001D0000401B = .ok (.badvs 29 16411) := by decide +kernel
theorem test_decode_badvv : decode 0x1200000100000000 = .ok (.badvv 1) := by decide +kernel
theorem test_decode_bnfp : decode 0x1300000100000000 = .ok (.bnfp 1) := by decide +kernel
theorem test_decode_bnft : decode 0x1400000000000000 = .ok (.bnft 0) := by decide +kernel
theorem test_decode_bnfs : decode 0x1500000800000000 = .ok (.bnfs 8) := by decide +kernel
theorem test_decode_adv : decode 0x200000000000401B = .ok (.adv 16411) := by decide +kernel
theorem test_decode_tstp : decode 0x2100000000000000 = .ok .tstp := by decide +kernel
theorem test_decode_tstt : decode 0x2200000000000000 = .ok .tstt := by decide +kernel
theorem test_decode_tsts : decode 0x2300000000000000 = .ok .tsts := by decide +kernel
theorem test_decode_init : decode 0x3000000000050304 = .ok (.init 0x0304 5) := by decide +kernel
theorem test_decode_wipe : decode 0x3100000000000000 = .ok .wipe := by decide +kernel
theorem test_decode_drive : decode 0x40000000FFFFFFFF = .ok (.drive 0xFFFFFFFF) := by decide +kernel

/-- Illegal words, one for each check of R65 (95_test_vectors.md 2.2 and 2.3). -/
theorem test_illegal_words :
    decode 0 = .error .unknownOpcode ∧ decode 0x3100000000000001 = .error .reservedField ∧
      decode 0x0180200000000000 = .error .bankCode ∧ decode 0x0110200000000000 = .error .readOnlyDestination ∧
      decode 0x016020D800000000 = .error .groupIndex ∧ decode 0x1000003600000000 = .error .blockIndex := by
  decide +kernel

theorem test_decodeTableWord : decodeTableWord 64 0x3000000000050101 = some (.init 0x0101 5) := by decide +kernel

/-! ### Group primitives (95_test_vectors.md 2.2; 40_group_primitives.md R81 to R88) -/

/-- The start of the chain of 2.2. -/
def chain : State :=
  withKv 16 [65535, 65535, 65535, 2, 256, 32768, 21845, 4, 5, 6, 7, 8, 9, 10, 11, 12]
    (withR 16 [0, 1, 65535, 32768, 256, 2, 3, 4, 5, 6, 7, 8, 9, 10, 11, 12] blank)

theorem test_gmul :
    lanes .tmp 16 16 (run (.gmul .tmp .r .kv 1) chain) =
      [0, 65535, 1, 0, 0, 0, 65535, 16, 25, 36, 49, 64, 81, 100, 121, 144] := by decide +kernel
theorem test_gmul_tables :
    lanes .tmp 47 17 (run (.gmul .tmp .primes .inv 215) blank) = 0 :: List.replicate 16 1 := by decide +kernel
theorem test_gshl1add :
    lanes .tmp2 16 16 (run (.gshl1add .tmp2 .r .kv 1) chain) =
      [65535, 1, 65533, 2, 768, 32772, 21851, 12, 15, 18, 21, 24, 27, 30, 33, 36] := by decide +kernel
theorem test_gmin :
    lanes .tmp 16 16 (run (.gmin .tmp .r .kv 1) chain) =
      [0, 1, 65535, 2, 256, 2, 3, 4, 5, 6, 7, 8, 9, 10, 11, 12] := by decide +kernel
theorem test_gor :
    lanes .tmp 16 16 (run (.gor .tmp .r .kv 1) chain) =
      [65535, 65535, 65535, 32770, 256, 32770, 21847, 4, 5, 6, 7, 8, 9, 10, 11, 12] := by decide +kernel
theorem test_gadds :
    lanes .r 16 16 (run (.gadds .r 1 0xFFFF) chain) =
      [65535, 0, 65534, 32767, 255, 1, 2, 3, 4, 5, 6, 7, 8, 9, 10, 11] := by decide +kernel
theorem test_gaddv_same_bank :
    lanes .r 16 6 (run (.gaddv .r .r 1) chain) = [0, 2, 65534, 0, 512, 4] := by decide +kernel
theorem test_gaddv :
    lanes .r 16 7 (run (.gaddv .r .kv 1) (run (.gadds .r 1 0xFFFF) chain)) =
      [65534, 65535, 65533, 32769, 511, 32769, 21847] := by decide +kernel
theorem test_glemask :
    lanes .r 16 6 (run (.glemask .r .kv 1)
      (withR 16 [65532, 65534, 65530, 2, 1022, 2] chain)) = [65535, 65535, 65535, 65535, 0, 65535] := by decide +kernel
theorem test_gfold :
    lanes .r 0 16 (run (.gfold .r .m2r 0)
      (withR 0 [32767, 32768, 32769, 65535, 40000, 0, 5, 32772, 32770, 50000, 60000, 32800, 1, 2, 3, 4] blank)) =
      [32767, 1, 11, 32775, 7241, 0, 5, 31, 3, 17255, 27241, 34, 1, 2, 3, 4] := by decide +kernel

/-! ### Block commands (95_test_vectors.md 2.3) -/

theorem test_bztest :
    (run (.bztest .r 53) blank).status = 0x01 ∧ (run (.bztest .r 53) (withR 3455 [1] blank)).status = 0x00 := by
  decide +kernel
theorem test_bztest_scratch_and_table :
    (run (.bztest .tmp 9) blank).status = 0x01 ∧ (run (.bztest .primes 53) blank).status = 0x00 := by decide +kernel

theorem test_badvs :
    lanes .r 5 2 (run (.badvs 0 6) (withR 5 [65529] blank)) = [32779, 6] ∧
      (run (.badvs 0 6) (withR 5 [65530] blank)).status = 0x42 := by decide +kernel
theorem test_badvs_zero_folds :
    lanes .r 0 4 (run (.badvs 0 0) (withR 0 [40000, 32767, 32768, 65535] blank)) = [7235, 32767, 10, 32775] := by
  decide +kernel

/-- `R[64..127] = 32000`, `KV[64 + l] = 760 + l`. -/
def vectorAdvance : State :=
  withKv 64 ((List.range 64).map fun l => BitVec.ofNat 16 (760 + l)) (withR 64 (List.replicate 64 32000) blank)

theorem test_badvv :
    lanes .r 64 16 (run (.badvv 1) vectorAdvance) =
      [32760, 32761, 32762, 32763, 32764, 32765, 32766, 32767, 174, 214, 94, 217, 291, 53, 92, 358] := by
  decide +kernel
theorem test_badvv_carry :
    (run (.badvv 0) (withKv 0 [25535] (withR 0 [40000] blank))).status = 0x00 ∧
      (run (.badvv 0) (withKv 0 [25536] (withR 0 [40000] blank))).status = 0x42 := by decide +kernel

/-- `NF` after the tester on block 0 for the lanes of 4231 and 4271. -/
theorem test_bnfp :
    statusNf (run (.bnfp 0) (candidate 101 0)).status = false ∧ statusNf (run (.bnfp 0) (candidate 4231 0)).status = true := by
  decide +kernel
theorem test_bnft :
    statusNf (run (.bnft 0) (candidate 4231 0)).status = false ∧ statusNf (run (.bnft 0) (candidate 4229 0)).status = true := by
  decide +kernel
theorem test_bnfs :
    statusNf (run (.bnfs 0) (candidate 4229 0)).status = false ∧ statusNf (run (.bnfs 0) (candidate 4271 0)).status = true := by
  decide +kernel
/-- The corners of the lane range: `R[0] = 65535` of BNFP, 65534 of BNFT, and `R[1] = 32771` of BNFS. -/
theorem test_bnfp_corner :
    statusNf (run (.bnfp 0) (withR 0 (65535 :: List.replicate 63 1) blank)).status = false ∧
      statusNf (run (.bnfp 0) (withR 0 (65534 :: List.replicate 63 1) blank)).status = true := by decide +kernel
theorem test_bnft_corner :
    statusNf (run (.bnft 0) (withR 0 (65534 :: List.replicate 63 1) blank)).status = false := by decide +kernel
theorem test_bnfs_corner :
    statusNf (run (.bnfs 0) (withR 0 (1 :: 32771 :: List.replicate 62 1) blank)).status = false := by decide +kernel

/-! ### State-level commands (95_test_vectors.md 2.4) -/

theorem test_adv :
    lanes .r 0 4 (run (.adv 4) (candidate 101 0x0101)) = [5, 7, 6, 14] ∧
      (run (.adv 4) (candidate 101 0x0101)).lsb = 105 ∧ (run (.adv 4) (candidate 101 0x0101)).offset = 4 ∧
      (run (.adv 4) (candidate 101 0x0101)).mod6 = 3 ∧ lanes .r 576 1 (run (.adv 4) (candidate 101 0x0101)) = [101] := by
  decide +kernel
theorem test_adv_wraps_lsb :
    (run (.adv 6) (candidate (2 ^ 64 - 3) 0x0101)).lsb = 3 ∧
      lanes .r 0 4 (run (.adv 6) (candidate (2 ^ 64 - 3) 0x0101)) = [9, 12, 8, 6] := by decide +kernel
theorem test_tstp :
    statusNf (run .tstp (candidate 4229 0x0101)).status = true ∧
      statusNf (run .tstp (candidate 4229 0x0201)).status = false := by decide +kernel
theorem test_tstt :
    statusNf (run .tstt (candidate 4229 0x0101)).status = true ∧
      statusNf (run .tstt (candidate 4231 0x0101)).status = false := by decide +kernel
theorem test_tsts :
    statusNf (run .tsts (candidate 4271 0x0101)).status = true ∧
      statusNf (run .tsts (candidate 4229 0x0101)).status = false := by decide +kernel
theorem test_init :
    (run (.init 0x0101 5) (candidate 101 0)).mode = 0x0101 ∧ (run (.init 0x0101 5) (candidate 101 0)).status = 0 ∧
      (run (.init 0x0101 7) (candidate 101 0)).status = 0x10 ∧ (run (.init 0x0108 5) (candidate 101 0)).status = 0x20 := by
  decide +kernel
theorem test_init_checks_lanes :
    (run (.init 0x0101 5) (withR 575 [4219] (candidate 101 0))).status = 0x10 ∧
      (run (.init 0x0101 5) (withR 576 [4229] (candidate 101 0))).status = 0x00 ∧
      (run (.init 0x0201 5) (withR 576 [4229] (candidate 101 0))).status = 0x10 := by decide +kernel
theorem test_wipe :
    lanes .r 0 4 (run .wipe (candidate 101 0x0101)) = [0, 0, 0, 0] ∧ (run .wipe (candidate 101 0x0101)).mode = 0 ∧
      (run .wipe (candidate 101 0x0101)).lsb = 0 := by decide +kernel

/-! ### DRIVE (95_test_vectors.md 1.3, 2.5) -/

theorem test_drive_plain :
    (run (.drive 2) (candidate 4227 0x0101)).mem.out = [4229, 4231] ∧
      (run (.drive 2) (candidate 4227 0x0101)).lsb = 4235 ∧ (run (.drive 2) (candidate 4227 0x0101)).offset = 8 := by
  decide +kernel
theorem test_drive_twin :
    (run (.drive 2) (candidate 4225 0x0102)).mem.out = [4229, 4241] ∧
      (run (.drive 2) (candidate 4225 0x0102)).lsb = 4247 ∧ (run (.drive 2) (candidate 4225 0x0102)).status = 0x30 := by
  decide +kernel

/-! ### The host port (95_test_vectors.md 2.1) -/

/-- What a host read returns on `blank`. -/
def readsAs (addr : BitVec 20) : Nat := (after (step { blank with host := [.read addr] }) blank).hostRead.toNat

theorem test_reads :
    readsAs 0x10000 = 5 ∧ readsAs 0x20000 = 52429 ∧ readsAs 0x30000 = 13107 ∧ readsAs 0x40000 = 32771 ∧
      readsAs 0x10D7F = 32237 ∧ readsAs 0x20D7F = 26597 ∧ readsAs 0x30D7F = 2 ∧ readsAs 0x40D7F = 33299 ∧
      readsAs 0x10D80 = 0 ∧ readsAs 0x60040 = 0 ∧ readsAs 0x90000 = 0 ∧ readsAs 0xF0009 = 0 := by decide +kernel

theorem test_write_lane :
    lanes .r 0 1 (after (step { blank with host := [.write 0x00000 0x12345] }) blank) = [0x2345] := by decide +kernel
theorem test_write_csr :
    (after (step { blank with host := [.write 0xF0006 0xF] }) blank).mod6Incr = 7 ∧
      (after (step { blank with host := [.write 0xF0004 0x0101] }) blank).mode = 0 ∧
      (after (step { blank with host := [.write 0xF0007 101] }) blank).lsb = 101 := by decide +kernel

/-- `BZTEST R @54` with `NF = 1` before: `STATUS = 0x51` (95_test_vectors.md 2.3). -/
theorem test_illegal_command :
    (after (step { blank with status := 1, host := [.write 0xF0000 0x1000003600000000] }) blank).status = 0x51 := by
  decide +kernel

/-- While `HALT = 1` a command is ignored; reset ends the halt. -/
theorem test_halt :
    (after (step { blank with status := 0x42, host := [.write 0xF0000 0x3100000000000000] }) blank).status = 0x42 ∧
      (after (step { blank with status := 0x42, host := [.reset] }) blank).status = 0 := by decide +kernel

theorem test_withFetchWord_runs :
    (after (step (blank.withFetchWord 64 0x1010003500000000)) blank).status = 0 ∧
      (after (step (State.reset.withFetchWord 64 0x2100000000000000)) blank).status = 0x20 := by decide +kernel

/-! ### States that meet the hypotheses of the statements -/

theorem blank_wf : blank.mem.wf := wipedMemory_wf (by decide)

theorem blank_lane (b : Bank) (i : Nat) (h : b.writable = true) : laneAt b i blank.mem = 0 := by
  show laneAt b i (wipedMemory 2) = 0
  rw [wipedMemory_lane b i 2 blank.mem, if_pos h]

theorem blank_inv : RunInv blank :=
  ⟨blank_wf, by decide, .inl rfl, by decide, by decide, by decide, by decide, fun _ => by decide⟩

theorem withR_keeps_wf {base : Nat} {r : List Lane} {s : State} (h : s.mem.wf) : (withR base r s).mem.wf :=
  withR_wf h (overlay_length _ _ _)

theorem candidate_residue (q : Nat) (mode : BitVec 16) {i : Nat} (hi : i < 3456) :
    residueAt i (candidate q mode).mem = q % primeAt i := by
  have hb := primeAt_bounds hi
  have hm : q % primeAt i < primeAt i := Nat.mod_lt _ (by omega)
  show ((primesTable.map fun p => BitVec.ofNat 16 (q % p.toNat)).getD i 0).toNat = _
  rw [getD_map_table _ hi]
  show (BitVec.ofNat 16 (q % primeAt i)).toNat = _
  exact Nat.mod_eq_of_lt (by omega)

theorem candidate_wf (q : Nat) (mode : BitVec 16) : (candidate q mode).mem.wf :=
  withR_wf blank_wf (by simp [residuesOf, blank_wf.1])

theorem candidate_inRange (q : Nat) (mode : BitVec 16) :
    InRange (tierLanes (candidate q mode).mode) (candidate q mode).mem := by
  intro i hi
  have ht := tierBlocks_mul (candidate q mode).mode
  have hb := primeAt_bounds (i := i) (by omega)
  rw [candidate_residue q mode (by omega)]
  exact Nat.lt_trans (Nat.mod_lt _ (by omega)) hb.2.1

theorem candidate_agrees (q : Nat) (mode : BitVec 16) : Agrees q (candidate q mode) where
  residues := fun i hi => by
    have ht := tierBlocks_mul (candidate q mode).mode
    rw [candidate_residue q mode (by omega), Nat.mod_mod]
  lsb := rfl
  mod6 := ofNat_mod6 q

theorem candidate_mayStart (q : Nat) (mode : BitVec 16) (count : BitVec 32) (hv : modeValid mode = true)
    (h1 : 1 ≤ count.toNat) (h2 : count.toNat ≤ 2) : DriveMayStart count (candidate q mode) := by
  refine ⟨candidate_wf q mode, ?_, hv, h1, ?_⟩
  · show (BitVec.ofNat 3 (q % 6)).toNat < 6
    rw [ofNat_mod6]
    omega
  · show _ ≤ (wipedMemory 2).out.length
    rw [wipedMemory_out_length]
    exact h2

/-! ### Witnesses: group and block commands -/

theorem witness_group_three :
    (∀ i ∈ [Instr.gmul .tmp .r .inv 0, .gshl1add .kv .r .m2r 215, .gmin .r .limit .kv 215, .gor .tmp2 .tmp .tmp 255],
      i.wellFormed = true) ∧ blank.mem.wf := ⟨by decide, blank_wf⟩
theorem witness_group_two :
    (∀ i ∈ [Instr.gadds .r 215 0xFFFF, .gadds .tmp 255 1, .gaddv .r .kv 215, .glemask .tmp .limit 0, .gfold .r .m2r 215],
      i.wellFormed = true) ∧ blank.mem.wf := ⟨by decide, blank_wf⟩
theorem witness_bztest :
    ∀ i ∈ [Instr.bztest .tmp 255, .bztest .r 53, .bztest .primes 53], i.wellFormed = true := by decide

theorem blank_noCarry {lo hi : Nat} {k : Nat} (hk : k < 2 ^ 16) : NoCarry lo hi (fun _ => k) blank := by
  intro i _ _
  show (laneAt .r i blank.mem).toNat + k < 2 ^ 16
  rw [blank_lane .r i rfl]
  simpa using hk

/-- BADVS: the last block without a carry by the largest `k`; and block 0 with `R[0] + k = 2^16`. -/
theorem witness_badvs :
    (Instr.badvs 53 0xFFFF).wellFormed = true ∧ blank.mem.wf ∧
      NoCarry (64 * 53) (64 * 53 + 64) (fun _ => (0xFFFF : Lane).toNat) blank ∧
      (withR 0 [1] blank).mem.wf ∧ SomeCarry 0 64 (fun _ => (0xFFFF : Lane).toNat) (withR 0 [1] blank) :=
  ⟨by decide, blank_wf, blank_noCarry (by decide), withR_keeps_wf blank_wf, ⟨0, by decide, by decide, by decide +kernel⟩⟩

/-- BADVV: `KV` zero; and `R[0] + KV[0] = 2^16`. -/
theorem witness_badvv :
    (Instr.badvv 53).wellFormed = true ∧ blank.mem.wf ∧
      NoCarry (64 * 53) (64 * 53 + 64) (fun i => (laneAt .kv i blank.mem).toNat) blank ∧
      (withKv 0 [25536] (withR 0 [40000] blank)).mem.wf ∧
      SomeCarry 0 64 (fun i => (laneAt .kv i (withKv 0 [25536] (withR 0 [40000] blank)).mem).toNat)
        (withKv 0 [25536] (withR 0 [40000] blank)) := by
  refine ⟨by decide, blank_wf, ?_, ?_, ⟨0, by decide, by decide, by decide +kernel⟩⟩
  · intro i _ _
    show (laneAt .r i blank.mem).toNat + (laneAt .kv i blank.mem).toNat < 2 ^ 16
    rw [blank_lane .r i rfl, blank_lane .kv i rfl]
    decide
  · have h := withR_keeps_wf (base := 0) (r := [40000]) blank_wf
    exact ⟨h.1, (overlay_length _ _ _).trans h.2.1, h.2.2⟩

theorem witness_block_testers :
    (∀ i ∈ [Instr.bnfp 53, .bnft 53, .bnfs 0], i.wellFormed = true) ∧ (candidate 4271 0).mem.wf ∧
      (∀ i, 0 ≤ i → i < 64 → residueAt i (candidate 4271 0).mem % primeAt i = 4271 % primeAt i) ∧
      ∀ k, ∀ i, 0 ≤ i → i < 64 → exactValue k (residueAt i (candidate 4271 0).mem) := by
  refine ⟨by decide, candidate_wf _ _, fun i _ hi => ?_, fun k i _ hi => ?_⟩
  · rw [candidate_residue _ _ (by omega), Nat.mod_mod]
  · have hb := primeAt_bounds (i := i) (by omega)
    rw [candidate_residue _ _ (by omega)]
    exact exactValue_of_lt (Nat.lt_trans (Nat.mod_lt _ (by omega)) hb.2.1)

/-- The bounds of the lane statements are met by the last lane and the largest value. -/
theorem witness_lane_bounds : 3455 < 3456 ∧ 65535 < 2 ^ 16 ∧ 2 ^ 15 ≤ 65535 := by decide

theorem witness_block_is_groups :
    (Instr.badvs 53 0xFFFF).wellFormed = true ∧ blank.mem.wf ∧
      NoCarry (64 * 53) (64 * 53 + 64) (fun _ => (0xFFFF : Lane).toNat) blank :=
  ⟨by decide, blank_wf, blank_noCarry (by decide)⟩

/-! ### Witnesses: state-level commands -/

/-- ADV: no valid mode; a valid mode with no carry by the largest `k`; a valid mode and a carry. -/
theorem witness_adv :
    modeValid blank.mode = false ∧ blank.mem.wf ∧
      (let s := { blank with mode := 0x0301 }
      modeValid s.mode = true ∧ s.mem.wf ∧ NoCarry 0 (tierLanes s.mode) (fun _ => (0xFFFF : Lane).toNat) s) ∧
      (let s := withR 575 [1] { blank with mode := 0x0101 }
      modeValid s.mode = true ∧ s.mem.wf ∧ SomeCarry 0 (tierLanes s.mode) (fun _ => (0xFFFF : Lane).toNat) s) :=
  ⟨by decide, blank_wf, ⟨by decide, blank_wf, blank_noCarry (by decide)⟩,
    ⟨by decide, withR_keeps_wf (s := { blank with mode := 0x0101 }) blank_wf, ⟨575, by decide, by decide, by decide +kernel⟩⟩⟩

theorem witness_adv_keeps :
    (candidate 101 0x0302).mem.wf ∧ modeValid (candidate 101 0x0302).mode = true ∧ Agrees 101 (candidate 101 0x0302) ∧
      InRange (tierLanes (candidate 101 0x0302).mode) (candidate 101 0x0302).mem ∧ (16411 : Lane).toNat ≤ 16411 :=
  ⟨candidate_wf _ _, by decide, candidate_agrees _ _, candidate_inRange _ _, by decide⟩

/-- TSTP, TSTT, TSTS: with and without a valid mode. -/
theorem witness_tier_tests :
    blank.mem.wf ∧ modeValid blank.mode = false ∧ (candidate 4271 0x0304).mem.wf ∧
      modeValid (candidate 4271 0x0304).mode = true := ⟨blank_wf, by decide, candidate_wf _ _, by decide⟩

/-- Two states in range with the same residues and different lanes: `R[0]` is 1 in one and 6 in the other. -/
theorem witness_tests_residues :
    let s := candidate 101 0x0101
    let s' := withR 0 [6] s
    s.mem.wf ∧ s'.mem.wf ∧ modeValid s.mode = true ∧ s'.mode = s.mode ∧ InRange (tierLanes s.mode) s.mem ∧
      InRange (tierLanes s.mode) s'.mem ∧
      (∀ l < tierLanes s.mode, residueAt l s.mem % primeAt l = residueAt l s'.mem % primeAt l) ∧
      residueAt 0 s.mem ≠ residueAt 0 s'.mem ∧ (∃ t, exec .tstp s = .next t) ∧ ∃ t, exec .tstp s' = .next t := by
  intro s s'
  have ht := tierBlocks_mul s.mode
  have h0 : residueAt 0 s'.mem = 6 := by decide +kernel
  have h0' : residueAt 0 s.mem = 1 := by decide +kernel
  have hl : ∀ l, 1 ≤ l → residueAt l s'.mem = residueAt l s.mem := fun l hl => by
    rw [← residueAt_eq, ← residueAt_eq]
    exact congrArg BitVec.toNat (overlay_getD_outside 0 [6] s.mem.r l 0 (.inr hl))
  refine ⟨candidate_wf _ _, withR_keeps_wf (candidate_wf _ _), by decide, rfl, candidate_inRange _ _, ?_, ?_, ?_,
    ⟨_, rfl⟩, ⟨_, rfl⟩⟩
  · intro l hlt
    by_cases h : l = 0
    · rw [h, h0]
      decide
    · rw [hl l (by omega)]
      exact candidate_inRange 101 0x0101 l hlt
  · intro l hlt
    by_cases h : l = 0
    · rw [h, h0, h0']
      decide +kernel
    · rw [hl l (by omega)]
  · rw [h0, h0']
    decide

/-- Every lane 1: it passes every tester (95_test_vectors.md 2.3, "all lanes 1"). -/
def ones (mode : BitVec 16) (mod6 : BitVec 3) : State := { candidate 1 mode with mod6 := mod6 }

theorem ones_passes (k : Kind) (mode : BitVec 16) (mod6 : BitVec 3) :
    ∀ i < 3456, passes k i (residueAt i (ones mode mod6).mem) := by
  intro i hi
  have hb := primeAt_bounds hi
  have h1 : residueAt i (ones mode mod6).mem = 1 := (candidate_residue 1 mode hi).trans (Nat.mod_eq_of_lt (by omega))
  rw [h1, passes_iff_factorFree (q := 1) hi (exactValue_of_lt (by decide)) rfl]
  have e1 : 1 % primeAt i = 1 := Nat.mod_eq_of_lt (by omega)
  have e3 : 3 % primeAt i = 3 := Nat.mod_eq_of_lt (by omega)
  cases k <;> simp [factorFree, e1, e3]

theorem ones_testTier (k : Kind) (mode : BitVec 16) (mod6 : BitVec 3) (hv : modeValid mode = true) :
    testTier k (tierBlocks mode) (ones mode mod6).mem = true := by
  have ht := tierBlocks_mul mode
  have hb := tierBlocks_of_valid hv
  rw [testTier_iff (m := (ones mode mod6).mem) (candidate_wf 1 mode) (by omega) (by omega)]
  exact fun i hi => ones_passes k mode mod6 i (by omega)

theorem witness_larger_tier :
    (ones 0x0301 1).mem.wf ∧ modeValid 0x0301 = true ∧ modeValid 0x0101 = true ∧ tierLanes 0x0101 ≤ tierLanes 0x0301 ∧
      ∃ t t', exec .tstp (ones 0x0301 1) = .next t ∧ exec .tstp { ones 0x0301 1 with mode := 0x0101 } = .next t' ∧
        statusNf t.status = true := by
  refine ⟨candidate_wf _ _, by decide, by decide, by decide, _, _, rfl, rfl, ?_⟩
  have hv : modeValid (ones 0x0301 1).mode = true := by decide
  have ht : testTier .plain (tierBlocks (ones 0x0301 1).mode) (ones 0x0301 1).mem = true :=
    ones_testTier .plain 0x0301 1 (by decide)
  simp only [tierTest, hv, if_true, finishTest, ht, complete_status, setStatusCc_nf, setNf_status, setStatusNf_nf]

theorem witness_tier_loop : (wipedMemory 1).wf ∧ 54 ≤ 54 ∧ 65535 < 2 ^ 16 := ⟨wipedMemory_wf (by decide), by decide⟩

/-- INIT: an invalid mode; each of the three reasons for InvalidInput; and none of them. -/
theorem witness_init :
    blank.mem.wf ∧ modeValid 0x0108 = false ∧ modeValid 0x0101 = true ∧ blank.lsb.toNat % 2 = 0 ∧
      (¬ ((4 : BitVec 3).toNat = 1 ∨ (4 : BitVec 3).toNat = 3 ∨ (4 : BitVec 3).toNat = 5)) ∧
      (575 < tierLanes 0x0101 ∧ primeAt 575 ≤ residueAt 575 (withR 575 [4219] (candidate 101 0)).mem) ∧
      (candidate 101 0).mem.wf ∧
      ¬ ((candidate 101 0).lsb.toNat % 2 = 0 ∨
        ¬ ((5 : BitVec 3).toNat = 1 ∨ (5 : BitVec 3).toNat = 3 ∨ (5 : BitVec 3).toNat = 5) ∨
        ∃ i < tierLanes 0x0101, primeAt i ≤ residueAt i (candidate 101 0).mem) := by
  refine ⟨blank_wf, by decide, by decide, by decide, by decide, ⟨by decide, by decide +kernel⟩, candidate_wf _ _, ?_⟩
  rintro (h | h | ⟨i, hi, h⟩)
  · revert h
    decide
  · revert h
    decide
  · have ht := tierBlocks_mul 0x0101
    have hb := primeAt_bounds (i := i) (by omega)
    rw [candidate_residue _ _ (by omega)] at h
    exact absurd (Nat.mod_lt 101 (by omega : 0 < primeAt i)) (by omega)

theorem witness_init_agrees :
    (candidate 101 0).mem.wf ∧ modeValid 0x0304 = true ∧ 101 % 2 = 1 ∧ (candidate 101 0).lsb = BitVec.ofNat 64 101 ∧
      ∀ i < tierLanes 0x0304, residueAt i (candidate 101 0).mem = 101 % primeAt i :=
  ⟨candidate_wf _ _, by decide, by decide, rfl, fun i hi => candidate_residue _ _ (by
    have ht := tierBlocks_mul 0x0304
    omega)⟩

theorem witness_wipe : blank.mem.wf := blank_wf

/-! ### Witnesses: DRIVE -/

/-- No valid mode; a count above the buffer's two words; a count of 0. -/
theorem witness_drive_stops :
    modeValid blank.mode = false ∧ modeValid (candidate 101 0x0101).mode = true ∧
      (candidate 101 0x0101).mem.out.length < (3 : BitVec 32).toNat ∧
      ¬ (candidate 101 0x0101).mem.out.length < (0 : BitVec 32).toNat := by decide

/-- `MOD6 = 4`, entry step 1, `R[575] = 65535`. -/
theorem witness_drive_carry :
    let s := withR 575 [65535] (candidate 4228 0x0101)
    DriveMayStart 2 s ∧ SomeCarry 0 (tierLanes s.mode) (fun _ => entryStep (modeKind s.mode) s.mod6) s := by
  intro s
  obtain ⟨h1, h2⟩ := candidate_mayStart 4228 0x0101 2 (by decide) (by decide) (by decide)
  exact ⟨⟨withR_keeps_wf h1, h2⟩, ⟨575, by decide, by decide, by decide +kernel⟩⟩

theorem ones_mayStart (mode : BitVec 16) (mod6 : BitVec 3) (hv : modeValid mode = true) (h6 : mod6.toNat < 6) :
    DriveMayStart 1 (ones mode mod6) := by
  obtain ⟨h1, -, h3⟩ := candidate_mayStart 1 mode 1 hv (by decide) (by decide)
  exact ⟨h1, h6, h3⟩

/-- At 6k+1 and at 6k+5, in each tier. -/
theorem witness_drive_plain_records :
    ∀ mode ∈ [(0x0101 : BitVec 16), 0x0201, 0x0301], ∀ mod6 ∈ [(1 : BitVec 3), 5],
      DriveMayStart 1 (ones mode mod6) ∧ modeKind (ones mode mod6).mode = .plain ∧
      InRange (tierLanes (ones mode mod6).mode) (ones mode mod6).mem ∧
      ((ones mode mod6).mod6.toNat = 1 ∨ (ones mode mod6).mod6.toNat = 5) ∧
      ∀ i < tierLanes (ones mode mod6).mode, passes .plain i (residueAt i (ones mode mod6).mem) := by
  have key : ∀ mode mod6, modeValid mode = true → modeKind mode = .plain → mod6.toNat = 1 ∨ mod6.toNat = 5 →
      DriveMayStart 1 (ones mode mod6) ∧ modeKind (ones mode mod6).mode = .plain ∧
      InRange (tierLanes (ones mode mod6).mode) (ones mode mod6).mem ∧
      ((ones mode mod6).mod6.toNat = 1 ∨ (ones mode mod6).mod6.toNat = 5) ∧
      ∀ i < tierLanes (ones mode mod6).mode, passes .plain i (residueAt i (ones mode mod6).mem) :=
    fun mode mod6 hv hk h6 => ⟨ones_mayStart mode mod6 hv (by omega), hk, candidate_inRange 1 mode, h6, fun i hi =>
      ones_passes .plain mode mod6 i (Nat.lt_of_lt_of_le hi (tierBlocks_mul mode).2.2)⟩
  simp only [List.forall_mem_cons]
  refine ⟨⟨key _ _ ?_ ?_ ?_, key _ _ ?_ ?_ ?_, by simp⟩, ⟨key _ _ ?_ ?_ ?_, key _ _ ?_ ?_ ?_, by simp⟩,
    ⟨key _ _ ?_ ?_ ?_, key _ _ ?_ ?_ ?_, by simp⟩, by simp⟩ <;> decide

/-- At 6k+5, for the twin and the safe driver. -/
theorem witness_drive_pair_records :
    ∀ mode ∈ [(0x0102 : BitVec 16), 0x0304], DriveMayStart 1 (ones mode 5) ∧ modeKind (ones mode 5).mode ≠ .plain ∧
      InRange (tierLanes (ones mode 5).mode) (ones mode 5).mem ∧ (ones mode 5).mod6.toNat = 5 ∧
      ∀ i < tierLanes (ones mode 5).mode, passes (modeKind (ones mode 5).mode) i (residueAt i (ones mode 5).mem) := by
  have key : ∀ mode, modeValid mode = true → modeKind mode ≠ .plain → DriveMayStart 1 (ones mode 5) ∧
      modeKind (ones mode 5).mode ≠ .plain ∧ InRange (tierLanes (ones mode 5).mode) (ones mode 5).mem ∧
      (ones mode 5).mod6.toNat = 5 ∧
      ∀ i < tierLanes (ones mode 5).mode, passes (modeKind (ones mode 5).mode) i (residueAt i (ones mode 5).mem) :=
    fun mode hv hk => ⟨ones_mayStart mode 5 hv (by decide), hk, candidate_inRange 1 mode, rfl, fun i hi =>
      ones_passes _ mode 5 i (Nat.lt_of_lt_of_le hi (tierBlocks_mul mode).2.2)⟩
  simp only [List.forall_mem_cons]
  refine ⟨key _ ?_ ?_, key _ ?_ ?_, by simp⟩ <;> decide

/-- A count of the buffer's whole length, in a state in range that agrees with its candidate, for each kind. -/
theorem witness_drive_lists (mode : BitVec 16) (h : modeValid mode = true) :
    DriveMayStart 2 (candidate 101 mode) ∧ InRange (tierLanes (candidate 101 mode).mode) (candidate 101 mode).mem ∧
      Agrees 101 (candidate 101 mode) :=
  ⟨candidate_mayStart _ _ _ h (by decide) (by decide), candidate_inRange _ _, candidate_agrees _ _⟩

theorem witness_drive_kinds :
    modeValid 0x0101 = true ∧ modeKind 0x0101 = .plain ∧ modeValid 0x0302 = true ∧ modeKind 0x0302 = .twin ∧
      modeValid 0x0204 = true ∧ modeKind 0x0204 = .safe := by decide

theorem witness_drive_resumes :
    DriveMayStart 1 (candidate 101 0x0101) ∧ 1 ≤ (1 : BitVec 32).toNat ∧
      (1 : BitVec 32).toNat + (1 : BitVec 32).toNat ≤ (candidate 101 0x0101).mem.out.length ∧
      (1 : BitVec 32).toNat + (1 : BitVec 32).toNat < 2 ^ 32 ∧
      InRange (tierLanes (candidate 101 0x0101).mode) (candidate 101 0x0101).mem :=
  ⟨candidate_mayStart _ _ _ (by decide) (by decide) (by decide), by decide, by decide, by decide, candidate_inRange _ _⟩

/-! ### Witnesses: encoding, steps and the host port -/

theorem witness_decode_encode : (Instr.init 0xFFFF 7).wellFormed = true ∧ (Instr.drive 0xFFFFFFFF).wellFormed = true := by
  decide
theorem witness_encode_decode : decode 0x0766300700000000 = .error .bankCode ∨
    decode 0x0766000700000000 = .ok (.glemask .tmp .tmp 7) := by decide +kernel

theorem witness_idle : blank.host = [] := rfl

theorem witness_command :
    let s := { blank with host := [.write cmdAddress 0x2100000000000000] }
    s.host = .write cmdAddress 0x2100000000000000 :: [] ∧ statusHalt s.status = false ∧
      decode 0x2100000000000000 = .ok .tstp := ⟨rfl, by decide, by decide +kernel⟩

theorem witness_illegal_word :
    statusHalt blank.status = false ∧ legalByTable 0x3100000000000001 = false ∧ legalByTable 0x016020D800000000 = false := by
  decide +kernel

theorem witness_halted :
    let s := { blank with status := 0x42, host := [.write cmdAddress 0x3100000000000000] }
    let r := { blank with status := 0x42, host := [.read 0xF0002] }
    s.host = .write cmdAddress 0x3100000000000000 :: [] ∧ statusHalt s.status = true ∧ r.host = .read 0xF0002 :: [] ∧
      statusHalt r.status = true ∧ (0xF0002 : BitVec 20) ≠ 0xF0001 := by decide

/-- Reads in every space at the last element, and past it. -/
theorem witness_host_read :
    blank.mem.wf ∧ ∀ a ∈ [((0 : BitVec 4), (3455 : BitVec 16)), (0, 3456), (1, 3455), (1, 3456), (2, 3455), (3, 3455), (4, 3455),
      (5, 3455), (6, 63), (6, 64), (7, 63), (7, 64), (8, 1), (8, 2), (9, 0), (14, 0), (15, 0), (15, 8), (15, 9)],
      ({ blank with host := [.read (hostAddress a.1 a.2)] } : State).host = .read (hostAddress a.1 a.2) :: [] :=
  ⟨blank_wf, fun _ _ => rfl⟩

/-- Writes in every space at the last element, and past it, and to the registers, `CMD` apart. -/
theorem witness_host_write :
    blank.mem.wf ∧ statusHalt blank.status = false ∧
      ([((0 : BitVec 4), (3455 : BitVec 16)), (0, 3456), (1, 0), (5, 3455), (6, 63), (6, 64), (7, 63), (8, 1), (8, 2), (9, 0),
        (14, 0), (15, 1), (15, 6), (15, 7), (15, 8), (15, 9)].all fun a => !decide (a.1 = 15 ∧ a.2 = 0)) = true :=
  ⟨blank_wf, by decide, by decide⟩

theorem witness_reset : blank.mem.wf ∧ ({ blank with host := [.reset] } : State).host = .reset :: [] := ⟨blank_wf, rfl⟩

/-- The invariant, with a command pending. -/
theorem witness_invariant :
    RunInv { blank with host := [.write cmdAddress 0x3100000000000000] } ∧
      ∃ t, step { blank with host := [.write cmdAddress 0x3100000000000000] } = .next t :=
  ⟨⟨blank_wf, by decide, .inl rfl, by decide, by decide, by decide, by decide, fun _ => by decide⟩, ⟨_, rfl⟩⟩

/-- Commands that change `MODE`, `NF`, `HALT`, and the outputs. -/
theorem witness_writers :
    (run (.init 0x0101 5) (candidate 101 0)).mode ≠ (candidate 101 0).mode ∧
      statusNf (run (.bztest .r 0) blank).status ≠ statusNf blank.status ∧
      statusHalt (run (.badvs 0 6) (withR 5 [65530] blank)).status ≠ statusHalt (withR 5 [65530] blank).status ∧
      (run (.drive 3) { blank with result := 1 }).result ≠ ({ blank with result := 1 } : State).result ∧
      (run .wipe { blank with mod6Incr := 1 }).mod6Incr ≠ ({ blank with mod6Incr := 1 } : State).mod6Incr := by
  decide +kernel

end Sys2Proof.Tests
end

section
/-! PROOFS. What each command can do to the state, said once (`exec_effect`), whatever the state holds: no hypothesis on
memory or registers. The statements about who writes which register, and the invariant of every run, are read off it. -/

namespace Sys2Proof.Machine

/-! ### Classes of commands -/

/-- The eight group primitives (R80). -/
def isGroup : Instr → Bool
  | .gmul _ _ _ _ | .gshl1add _ _ _ _ | .gmin _ _ _ _ | .gor _ _ _ _ => true
  | .gadds _ _ _ | .gaddv _ _ _ | .glemask _ _ _ | .gfold _ _ _ => true
  | _ => false

/-- BADVS and BADVV (R103, R104). -/
def isBlockAdvance : Instr → Bool
  | .badvs _ _ | .badvv _ => true
  | _ => false

/-- The testers that run over a block or a tier and wipe the scratch (R105 to R107, R124 to R126). -/
def isTester : Instr → Bool
  | .bnfp _ | .bnft _ | .bnfs _ | .tstp | .tstt | .tsts => true
  | _ => false

/-! ### Advances, from any state -/

theorem advanceRange_shape {base n : Nat} {ks : List Lane} {m m' : Memory} (h : advanceRange base n ks m = some m') :
    ∃ r, r.length = m.r.length ∧ m' = { m with r := r } := by
  unfold advanceRange at h
  split at h
  · cases h
  · cases h
    exact ⟨_, overlay_length _ _ _, rfl⟩

theorem advance_shape {k : Nat} {s t : State} (h : advance k s = some t) :
    ∃ r, r.length = s.mem.r.length ∧ t = advanceCounters k { s with mem := { s.mem with r := r } } := by
  unfold advance at h
  split at h
  · cases h
  · rename_i m ha
    cases h
    obtain ⟨r, hr, rfl⟩ := advanceRange_shape ha
    exact ⟨r, hr, rfl⟩

/-! ### The effect of a command -/

/-- The next states a command can answer from `s`, by the way it ends. -/
inductive Effect (s : State) : Instr → State → Prop
  /-- A group primitive writes lanes of its destination bank. -/
  | group {i : Instr} (hi : isGroup i = true) (d : Bank) (g : BitVec 8) (l : List Lane) :
      Effect s i (complete .ok { s with mem := writeGroup d g l s.mem })
  /-- BZTEST writes `NF`. -/
  | zeroTested (d : Bank) (b : BitVec 8) (nf : Bool) : Effect s (.bztest d b) (complete .ok (setNf nf s))
  /-- A block advance that completes writes lanes of `R`. -/
  | blockAdvanced {i : Instr} (hi : isBlockAdvance i = true) (r : List Lane) (hr : r.length = s.mem.r.length) :
      Effect s i (complete .ok { s with mem := { s.mem with r := r } })
  /-- A block advance that aborts. -/
  | blockAborted {i : Instr} (hi : isBlockAdvance i = true) (b : Nat) : Effect s i (abortBlock b s)
  /-- A tester writes `NF` and wipes the scratch. -/
  | tested {i : Instr} (hi : isTester i = true) (nf : Bool) : Effect s i (finishTest nf s)
  /-- A tier-level test without a valid mode. -/
  | testRefused {i : Instr} (hi : isTester i = true) : Effect s i (raise .unsupportedMode s)
  /-- ADV that completes. -/
  | advanced (k : Lane) (r : List Lane) (hr : r.length = s.mem.r.length) :
      Effect s (.adv k) (complete .ok (advanceCounters k.toNat { s with mem := { s.mem with r := r } }))
  /-- ADV that aborts. -/
  | advanceAborted (k : Lane) : Effect s (.adv k) (abortAdvance s)
  /-- ADV without a valid mode. -/
  | advanceRefused (k : Lane) : Effect s (.adv k) (raise .unsupportedMode s)
  /-- INIT that builds the state. -/
  | initialised {mode : BitVec 16} {mod6 : BitVec 3} (hv : modeValid mode = true) (ho : mod6Odd mod6 = true) :
      Effect s (.init mode mod6) (complete .ok { s with mode := mode, mod6 := mod6, offset := 0 })
  /-- INIT that fails one of its checks. -/
  | initRefused (mode : BitVec 16) (mod6 : BitVec 3) {c : Code} (hc : c ≠ .internalInvariant) :
      Effect s (.init mode mod6) (raise c { s with mode := 0 })
  /-- WIPE. -/
  | wiped :
      Effect s .wipe (complete .ok (setNf false { s with
        mem := wipedMemory s.mem.out.length
        lsb := 0
        offset := 0
        mod6 := 0
        mod6Incr := 0
        mode := 0
        result := 0
        outcnt := 0 }))
  /-- DRIVE that ends before its driver starts. -/
  | driveStopped (count : BitVec 32) {c : Code} (hc : c ≠ .internalInvariant) : Effect s (.drive count) (driveStops c s)
  /-- DRIVE that finds the survivors asked for. -/
  | driven {count : BitVec 32} {x : Search} (hv : modeValid s.mode = true) (hcap : count.toNat ≤ s.mem.out.length)
      (hx : runDriver (modeKind s.mode) count.toNat s = .full x) : Effect s (.drive count) (driveDone x)
  /-- DRIVE that aborts. -/
  | driveAborted (count : BitVec 32) : Effect s (.drive count) (abortDrive count.toNat s)

theorem next_inj {s t : State} (h : (.next s : Answer) = .next t) : s = t := Host.Outcome.next.inj h

theorem finishBlockAdvance_effect {i : Instr} (hi : isBlockAdvance i = true) {b base n : Nat} {ks : List Lane}
    {s : State} : Effect s i (finishBlockAdvance b (advanceRange base n ks s.mem) s) := by
  unfold finishBlockAdvance
  split
  · exact .blockAborted hi b
  · rename_i m ha
    obtain ⟨r, hr, rfl⟩ := advanceRange_shape ha
    exact .blockAdvanced hi r hr

theorem tierTest_effect {i : Instr} (hi : isTester i = true) (k : Kind) (s : State) : Effect s i (tierTest k s) := by
  unfold tierTest
  split
  · exact .tested hi _
  · exact .testRefused hi

theorem execAdv_effect {k : Lane} {s t : State} (h : execAdv k s = .next t) : Effect s (.adv k) t := by
  obtain rfl := next_inj h
  split
  · split
    · exact .advanceAborted k
    · rename_i ha
      obtain ⟨r, hr, rfl⟩ := advance_shape ha
      exact .advanced k r hr
  · exact .advanceRefused k

theorem execInit_effect {mode : BitVec 16} {mod6 : BitVec 3} {s t : State} (h : execInit mode mod6 s = .next t) :
    Effect s (.init mode mod6) t := by
  obtain rfl := next_inj h
  split
  · exact .initRefused mode mod6 (by decide)
  · split
    · exact .initRefused mode mod6 (by decide)
    · rename_i hv hc
      simp only [Bool.or_eq_true, decide_eq_true_eq, not_or, Bool.not_eq_false] at hv hc
      exact .initialised hv hc.1.2

theorem execDrive_effect {count : BitVec 32} {s t : State} (h : execDrive count s = .next t) :
    Effect s (.drive count) t := by
  unfold execDrive at h
  split at h
  · obtain rfl := next_inj h
    exact .driveStopped count (by decide)
  · rename_i hv
    split at h
    · obtain rfl := next_inj h
      exact .driveStopped count (by decide)
    · rename_i hcap
      split at h
      · obtain rfl := next_inj h
        exact .driveStopped count (by decide)
      · split at h
        · rename_i x hx
          obtain rfl := next_inj h
          exact .driven (by simpa using hv) (by omega) hx
        · obtain rfl := next_inj h
          exact .driveAborted count
        · cases h

/-- Every next state of a command is one of its effects. -/
theorem exec_effect {i : Instr} {s t : State} (h : exec i s = .next t) : Effect s i t := by
  cases i with
  | gmul d a b g | gshl1add d a b g | gmin d a b g | gor d a b g =>
    obtain rfl := next_inj h
    exact .group rfl d g _
  | gadds d g k | gaddv d a g | glemask d a g | gfold d a g =>
    obtain rfl := next_inj h
    exact .group rfl d g _
  | bztest d b =>
    obtain rfl := next_inj h
    exact .zeroTested d b _
  | badvs b k | badvv b =>
    obtain rfl := next_inj h
    exact finishBlockAdvance_effect rfl
  | bnfp b | bnft b | bnfs b =>
    obtain rfl := next_inj h
    exact .tested rfl _
  | adv k => exact execAdv_effect h
  | tstp | tstt | tsts =>
    obtain rfl := next_inj h
    exact tierTest_effect rfl _ s
  | init mode mod6 => exact execInit_effect h
  | wipe =>
    obtain rfl := next_inj h
    exact .wiped
  | drive count => exact execDrive_effect h

end Sys2Proof.Machine
end

section
/-! PROOFS. The registers that a driver leaves alone, from any state, and who writes `MODE`, `NF`, `HALT` and the
outputs (spec/10_state.md R22 to R29). -/

namespace Sys2Proof.Machine

/-! ### The registers a driver leaves alone -/

/-- `STATUS`, `MODE` and `MOD6_INCR` are unchanged: the registers no pass of a driver touches. -/
structure RegistersKept (s t : State) : Prop where
  status : t.status = s.status
  mode : t.mode = s.mode
  mod6Incr : t.mod6Incr = s.mod6Incr

theorem RegistersKept.refl (s : State) : RegistersKept s s := ⟨rfl, rfl, rfl⟩

theorem RegistersKept.trans {s t u : State} (h : RegistersKept s t) (h' : RegistersKept t u) : RegistersKept s u :=
  ⟨h'.status.trans h.status, h'.mode.trans h.mode, h'.mod6Incr.trans h.mod6Incr⟩

theorem advance_registersKept {k : Nat} {s t : State} (h : advance k s = some t) : RegistersKept s t := by
  obtain ⟨r, -, rfl⟩ := advance_shape h
  exact ⟨rfl, rfl, rfl⟩

theorem recordIf_registersKept (b : Bool) (x : Search) : RegistersKept x.st (recordIf b x).st := by
  obtain ⟨out, h, -⟩ := recordIf_st b x
  rw [h]
  exact ⟨rfl, rfl, rfl⟩

theorem advanceSearch_registersKept {k : Nat} {x y : Search} (h : advanceSearch k x = some y) :
    RegistersKept x.st y.st := by
  unfold advanceSearch at h
  split at h
  · cases h
  · rename_i ha
    cases h
    exact advance_registersKept ha

theorem afterSkip_registersKept {skip : Nat} {m : Memory} {s t : State} (h : afterSkip skip m s = some t) :
    RegistersKept s t := by
  unfold afterSkip at h
  split at h
  · cases h
  · cases h
    exact ⟨rfl, rfl, rfl⟩

theorem plainPass_registersKept {x y : Search} (h : plainPass x = some y) : RegistersKept x.st y.st :=
  (recordIf_registersKept _ x).trans (advanceSearch_registersKept h)

theorem pairPass_registersKept {k : Kind} {x y : Search} (h : pairPass k x = some y) : RegistersKept x.st y.st := by
  unfold pairPass at h
  split at h
  · cases h
  · split at h
    · cases h
    · rename_i t ha
      have ht := afterSkip_registersKept ha
      split at h
      · cases h
        exact ht
      · exact ht.trans ((recordIf_registersKept _ { x with st := t }).trans (advanceSearch_registersKept h))

theorem driverPass_registersKept {k : Kind} {x y : Search} (h : driverPass k x = some y) :
    RegistersKept x.st y.st := by
  cases k with
  | plain => exact plainPass_registersKept h
  | twin | safe => exact pairPass_registersKept h

theorem findNext_registersKept {k : Kind} {n : Nat} {x y : Search} (h : findNext (driverPass k) n x = .full y) :
    RegistersKept x.st y.st := by
  induction n generalizing x with
  | zero => cases h
  | succ n ih =>
    unfold findNext at h
    split at h
    · cases h
    · rename_i z hz
      have hkept := driverPass_registersKept hz
      split at h
      · cases h
        exact hkept
      · exact hkept.trans (ih h)

theorem findMany_registersKept {k : Kind} {n : Nat} {x y : Search} (h : findMany (driverPass k) n x = .full y) :
    RegistersKept x.st y.st := by
  induction n generalizing x with
  | zero =>
    cases h
    exact .refl _
  | succ n ih =>
    unfold findMany at h
    split at h
    · rename_i z hz
      exact (findNext_registersKept hz).trans (ih h)
    · cases h
    · cases h

theorem runDriver_registersKept {k : Kind} {count : Nat} {s : State} {x : Search}
    (h : runDriver k count s = .full x) : RegistersKept s x.st := by
  unfold runDriver at h
  split at h
  · cases h
  · rename_i ha
    exact (advance_registersKept ha).trans (findMany_registersKept h)

/-! ### The registers after the ways a command can end -/

/-- `STATUS` after an abort (R174). -/
def haltedStatus (st : BitVec 64) : BitVec 64 :=
  setStatusHalt true (setStatusCc (codeBits .internalInvariant) st)

@[simp] theorem haltedStatus_nf (st : BitVec 64) : statusNf (haltedStatus st) = statusNf st := by simp [haltedStatus]
@[simp] theorem haltedStatus_halt (st : BitVec 64) : statusHalt (haltedStatus st) = true := by simp [haltedStatus]
@[simp] theorem haltedStatus_cc (st : BitVec 64) :
    statusCc (haltedStatus st) = codeBits .internalInvariant := by simp [haltedStatus]
@[simp] theorem haltedStatus_reservedLow (st : BitVec 64) :
    statusReservedLow (haltedStatus st) = statusReservedLow st := by simp [haltedStatus]
@[simp] theorem haltedStatus_reservedHigh (st : BitVec 64) :
    statusReservedHigh (haltedStatus st) = statusReservedHigh st := by simp [haltedStatus]

@[simp] theorem abortBlock_status (b : Nat) (s : State) : (abortBlock b s).status = haltedStatus s.status := rfl
@[simp] theorem abortBlock_mode (b : Nat) (s : State) : (abortBlock b s).mode = s.mode := rfl
@[simp] theorem abortBlock_mod6Incr (b : Nat) (s : State) : (abortBlock b s).mod6Incr = s.mod6Incr := rfl
@[simp] theorem abortBlock_result (b : Nat) (s : State) : (abortBlock b s).result = s.result := rfl
@[simp] theorem abortBlock_outcnt (b : Nat) (s : State) : (abortBlock b s).outcnt = s.outcnt := rfl
@[simp] theorem abortBlock_out (b : Nat) (s : State) : (abortBlock b s).mem.out = s.mem.out := rfl

@[simp] theorem abortAdvance_status (s : State) : (abortAdvance s).status = haltedStatus s.status := rfl
@[simp] theorem abortAdvance_mode (s : State) : (abortAdvance s).mode = s.mode := rfl
@[simp] theorem abortAdvance_mod6Incr (s : State) : (abortAdvance s).mod6Incr = s.mod6Incr := rfl
@[simp] theorem abortAdvance_result (s : State) : (abortAdvance s).result = s.result := rfl
@[simp] theorem abortAdvance_outcnt (s : State) : (abortAdvance s).outcnt = s.outcnt := rfl
@[simp] theorem abortAdvance_out (s : State) : (abortAdvance s).mem.out = s.mem.out := rfl

@[simp] theorem abortDrive_status (n : Nat) (s : State) : (abortDrive n s).status = haltedStatus s.status := rfl
@[simp] theorem abortDrive_mode (n : Nat) (s : State) : (abortDrive n s).mode = s.mode := rfl
@[simp] theorem abortDrive_mod6Incr (n : Nat) (s : State) : (abortDrive n s).mod6Incr = s.mod6Incr := rfl

@[simp] theorem driveDone_status (x : Search) :
    (driveDone x).status = setStatusCc (codeBits .bufferFull) x.st.status := rfl
@[simp] theorem driveDone_mode (x : Search) : (driveDone x).mode = x.st.mode := rfl
@[simp] theorem driveDone_mod6Incr (x : Search) : (driveDone x).mod6Incr = x.st.mod6Incr := rfl

@[simp] theorem driveStops_mode (c : Code) (s : State) : (driveStops c s).mode = s.mode := raise_mode _ _
@[simp] theorem driveStops_mod6Incr (c : Code) (s : State) : (driveStops c s).mod6Incr = s.mod6Incr :=
  raise_mod6Incr _ _

/-- Every kind but InternalInvariant writes `CC` alone in `STATUS`. -/
theorem raise_status {c : Code} (hc : c ≠ .internalInvariant) (s : State) :
    (raise c s).status = setStatusCc (codeBits c) s.status := by
  rw [raise_eq_complete hc, complete_status]

theorem driveStops_status {c : Code} (hc : c ≠ .internalInvariant) (s : State) :
    (driveStops c s).status = setStatusCc (codeBits c) s.status := raise_status hc _

/-! ### Who writes what -/

/-- Only INIT and WIPE reach `MODE` (R22). -/
theorem Effect.mode_eq {i : Instr} {s t : State} (h : Effect s i t) (hi : ∀ m r, i ≠ .init m r) (hw : i ≠ .wipe) :
    t.mode = s.mode := by
  cases h with
  | group | zeroTested | blockAdvanced | tested | advanced => rfl
  | blockAborted | advanceAborted | driveAborted => simp
  | testRefused | advanceRefused | driveStopped => simp
  | initialised | initRefused => exact absurd rfl (hi _ _)
  | wiped => exact absurd rfl hw
  | driven _ _ hx => simp [(runDriver_registersKept hx).mode]

/-- The commands that write `NF` (R26). -/
def writesNf (i : Instr) : Prop := (∃ d b, i = .bztest d b) ∨ isTester i = true ∨ i = .wipe

/-- `NF` is written by the testers, BZTEST and WIPE alone (R26). -/
theorem Effect.nf_eq {i : Instr} {s t : State} (h : Effect s i t) (hi : ¬ writesNf i) :
    statusNf t.status = statusNf s.status := by
  cases h with
  | group | blockAdvanced | advanced | initialised => simp
  | zeroTested d b => exact absurd (.inl ⟨d, b, rfl⟩) hi
  | blockAborted | advanceAborted | driveAborted => simp
  | tested ht | testRefused ht => exact absurd (.inr (.inl ht)) hi
  | advanceRefused => simp [raise_status]
  | initRefused _ _ hc => simp [raise_status hc]
  | wiped => exact absurd (.inr (.inr rfl)) hi
  | driveStopped _ hc => simp [driveStops_status hc]
  | driven _ _ hx => simp [(runDriver_registersKept hx).status]

/-- The commands that can abort (R174). -/
def mayAbort (i : Instr) : Prop := isBlockAdvance i = true ∨ (∃ k, i = .adv k) ∨ ∃ n, i = .drive n

/-- A command leaves `HALT` alone, or it is one that can abort and has set `HALT` with code 4 (R174). -/
theorem Effect.halt_cases {i : Instr} {s t : State} (h : Effect s i t) :
    statusHalt t.status = statusHalt s.status ∨
      mayAbort i ∧ statusHalt t.status = true ∧ statusCc t.status = codeBits .internalInvariant := by
  cases h with
  | group | zeroTested | blockAdvanced | advanced | initialised | wiped => left; simp
  | tested => left; simp [finishTest]
  | testRefused | advanceRefused => left; simp [raise_status]
  | initRefused _ _ hc => left; simp [raise_status hc]
  | driveStopped _ hc => left; simp [driveStops_status hc]
  | driven _ _ hx => left; simp [(runDriver_registersKept hx).status]
  | blockAborted hb => exact .inr ⟨.inl hb, by simp, by simp⟩
  | advanceAborted k => exact .inr ⟨.inr (.inl ⟨k, rfl⟩), by simp, by simp⟩
  | driveAborted n => exact .inr ⟨.inr (.inr ⟨n, rfl⟩), by simp, by simp⟩

/-- Only DRIVE and WIPE reach the output buffer, `RESULT` and `OUTCNT` (R27 to R29). -/
theorem Effect.outputs_eq {i : Instr} {s t : State} (h : Effect s i t) (hd : ∀ n, i ≠ .drive n) (hw : i ≠ .wipe) :
    t.mem.out = s.mem.out ∧ t.result = s.result ∧ t.outcnt = s.outcnt := by
  cases h with
  | group => simp
  | zeroTested | blockAdvanced | tested | advanced | initialised => exact ⟨rfl, rfl, rfl⟩
  | blockAborted | advanceAborted => simp
  | testRefused | advanceRefused | initRefused => simp
  | wiped => exact absurd rfl hw
  | driveStopped n | driveAborted n | driven => exact absurd rfl (hd _)

/-- Only WIPE reaches `MOD6_INCR` (R24). -/
theorem Effect.mod6Incr_eq {i : Instr} {s t : State} (h : Effect s i t) (hw : i ≠ .wipe) :
    t.mod6Incr = s.mod6Incr := by
  cases h with
  | group | zeroTested | blockAdvanced | tested | advanced | initialised => rfl
  | blockAborted | advanceAborted | driveAborted => simp
  | testRefused | advanceRefused | initRefused | driveStopped => simp
  | wiped => exact absurd rfl hw
  | driven _ _ hx => simp [(runDriver_registersKept hx).mod6Incr]

/-- The testers by name. -/
theorem isTester_cases {i : Instr} (h : isTester i = true) :
    (∃ b, i = .bnfp b) ∨ (∃ b, i = .bnft b) ∨ (∃ b, i = .bnfs b) ∨ i = .tstp ∨ i = .tstt ∨ i = .tsts := by
  cases i <;> simp_all [isTester]

/-- The block advances by name. -/
theorem isBlockAdvance_cases {i : Instr} (h : isBlockAdvance i = true) :
    (∃ b k, i = .badvs b k) ∨ ∃ b, i = .badvv b := by
  cases i <;> simp_all [isBlockAdvance]

/-- Settles O51, by the effects of a command. -/
theorem onlyInitAndWipeWriteMode : Obligations.OnlyInitAndWipeWriteMode := by
  intro i s t h hne
  by_contra hi
  obtain ⟨hinit, hwipe⟩ := not_or.mp hi
  exact hne ((exec_effect h).mode_eq (fun m r he => hinit ⟨m, r, he⟩) hwipe)

/-- Settles O52, by the effects of a command. -/
theorem onlyTestersAndWipeWriteNf : Obligations.OnlyTestersAndWipeWriteNf := by
  intro i s t h
  have heff := exec_effect h
  refine ⟨fun hne => ?_, fun hne => ?_⟩
  · have hw : writesNf i := by
      by_contra hi
      exact hne (heff.nf_eq hi)
    rcases hw with hz | ht | hw
    · exact .inl hz
    · rcases isTester_cases ht with h | h | h | h | h | h <;> simp [h]
    · simp [hw]
  · obtain ⟨habort, hhalt, hcc⟩ := heff.halt_cases.resolve_left hne
    refine ⟨hhalt, hcc, ?_⟩
    rcases habort with hb | ha | hd
    · exact (isBlockAdvance_cases hb).imp id .inl
    · exact .inr (.inr (.inl ha))
    · exact .inr (.inr (.inr hd))

/-- Settles O53, by the effects of a command. -/
theorem onlyDriveAndWipeWriteOutput : Obligations.OnlyDriveAndWipeWriteOutput := by
  intro i s t h
  have heff := exec_effect h
  refine ⟨fun hne => ?_, fun hne => ?_⟩
  · by_contra hi
    obtain ⟨hdrive, hwipe⟩ := not_or.mp hi
    obtain ⟨hout, hresult, houtcnt⟩ := heff.outputs_eq (fun n he => hdrive ⟨n, he⟩) hwipe
    rcases hne with h | h | h
    · exact h hout
    · exact h hresult
    · exact h houtcnt
  · by_contra hw
    exact hne (heff.mod6Incr_eq hw)

end Sys2Proof.Machine
end

section
/-! PROOFS. Every step keeps the invariant of a run (`RunInv`): each change a step can make keeps it, and a step is made
of such changes (`exec_effect` for the commands). -/

namespace Sys2Proof.Machine

/-! ### The invariant of `STATUS` -/

/-- What `RunInv` says of `STATUS` alone (R26, R170, R174). -/
structure StatusInv (st : BitVec 64) : Prop where
  reservedLow : statusReservedLow st = 0
  reservedHigh : statusReservedHigh st = 0
  cc : (statusCc st).toNat ≤ 5
  halt : statusHalt st = true ↔ statusCc st = codeBits .internalInvariant

theorem codeBits_le (c : Code) : (codeBits c).toNat ≤ 5 := by cases c <;> decide

theorem codeBits_eq_internalInvariant {c : Code} (h : codeBits c = codeBits .internalInvariant) :
    c = .internalInvariant := by
  cases c <;> first | rfl | exact absurd h (by decide)

theorem StatusInv.setNf {st : BitVec 64} (h : StatusInv st) (b : Bool) : StatusInv (setStatusNf b st) :=
  ⟨by simpa using h.reservedLow, by simpa using h.reservedHigh, by simpa using h.cc, by simpa using h.halt⟩

/-- A code other than InternalInvariant may be written while the engine is not halted. -/
theorem StatusInv.setCc {st : BitVec 64} (h : StatusInv st) (hrun : statusHalt st = false) {c : Code}
    (hc : c ≠ .internalInvariant) : StatusInv (setStatusCc (codeBits c) st) where
  reservedLow := by simpa using h.reservedLow
  reservedHigh := by simpa using h.reservedHigh
  cc := by simpa using codeBits_le c
  halt := by
    simp only [setStatusCc_halt, setStatusCc_cc, hrun]
    exact iff_of_false Bool.false_ne_true fun he => hc (codeBits_eq_internalInvariant he)

theorem StatusInv.halted {st : BitVec 64} (h : StatusInv st) : StatusInv (haltedStatus st) :=
  ⟨by simpa using h.reservedLow, by simpa using h.reservedHigh, by simpa using codeBits_le .internalInvariant, by simp⟩

/-! ### Changes that keep the invariant -/

theorem RunInv.status {s : State} (h : RunInv s) : StatusInv s.status :=
  ⟨h.reservedLow, h.reservedHigh, h.cc, h.halt⟩

theorem runInv_of_status {s : State} (hm : s.mem.wf) (h6 : s.mod6.toNat < 6)
    (hmode : s.mode = 0 ∨ modeValid s.mode = true) (hst : StatusInv s.status)
    (hout : statusHalt s.status = false → s.outcnt.toNat ≤ s.mem.out.length) : RunInv s :=
  ⟨hm, h6, hmode, hst.reservedLow, hst.reservedHigh, hst.cc, hst.halt, hout⟩

/-- An abort keeps the invariant whatever it leaves in `OUTCNT`. -/
theorem runInv_of_halted {s t : State} (hm : t.mem.wf) (h6 : t.mod6.toNat < 6)
    (hmode : t.mode = 0 ∨ modeValid t.mode = true) (hst : StatusInv s.status) (h : t.status = haltedStatus s.status) :
    RunInv t :=
  runInv_of_status hm h6 hmode (h ▸ hst.halted) fun hrun => by simp [h] at hrun

/-- `RunInv` sees neither the host's actions and last read nor the registers it does not name. -/
theorem RunInv.congr {s t : State} (h : RunInv s) (hm : t.mem = s.mem) (hst : t.status = s.status)
    (h6 : t.mod6 = s.mod6) (hmode : t.mode = s.mode) (hout : t.outcnt = s.outcnt) : RunInv t :=
  runInv_of_status (hm ▸ h.mem) (h6 ▸ h.mod6) (hmode ▸ h.mode) (hst ▸ h.status) (by
    rw [hst, hout, hm]
    exact h.outcnt)

theorem RunInv.withMem {s : State} (h : RunInv s) {m : Memory} (hm : m.wf) (ho : m.out.length = s.mem.out.length) :
    RunInv { s with mem := m } :=
  runInv_of_status hm h.mod6 h.mode h.status fun hrun => ho ▸ h.outcnt hrun

theorem RunInv.withR {s : State} (h : RunInv s) {r : List Lane} (hr : r.length = s.mem.r.length) :
    RunInv { s with mem := { s.mem with r := r } } :=
  h.withMem (withR_wf h.mem hr) rfl

theorem RunInv.withMode {s : State} (h : RunInv s) {mode : BitVec 16} (hmode : mode = 0 ∨ modeValid mode = true) :
    RunInv { s with mode := mode } :=
  runInv_of_status h.mem h.mod6 hmode h.status h.outcnt

theorem RunInv.withMod6 {s : State} (h : RunInv s) {mod6 : BitVec 3} (h6 : mod6.toNat < 6) :
    RunInv { s with mod6 := mod6 } :=
  runInv_of_status h.mem h6 h.mode h.status h.outcnt

theorem RunInv.withOutcnt {s : State} (h : RunInv s) {n : BitVec 32} (hn : n.toNat ≤ s.mem.out.length) :
    RunInv { s with outcnt := n } :=
  runInv_of_status h.mem h.mod6 h.mode h.status fun _ => hn

theorem RunInv.setNf {s : State} (h : RunInv s) (b : Bool) : RunInv (setNf b s) :=
  runInv_of_status h.mem h.mod6 h.mode (h.status.setNf b) fun hrun => h.outcnt (by simpa using hrun)

theorem RunInv.complete {s : State} (h : RunInv s) (hrun : statusHalt s.status = false) {c : Code}
    (hc : c ≠ .internalInvariant) : RunInv (complete c s) :=
  runInv_of_status h.mem h.mod6 h.mode (h.status.setCc hrun hc) fun _ => h.outcnt hrun

theorem RunInv.raise {s : State} (h : RunInv s) (hrun : statusHalt s.status = false) {c : Code}
    (hc : c ≠ .internalInvariant) : RunInv (raise c s) := by
  rw [raise_eq_complete hc]
  exact h.complete hrun hc

theorem RunInv.advanceCounters {s : State} (h : RunInv s) (k : Nat) : RunInv (advanceCounters k s) := by
  refine (h.withMod6 (mod6 := BitVec.ofNat 3 ((s.mod6.toNat + k) % 6)) ?_).congr rfl rfl rfl rfl rfl
  rw [ofNat_mod6]
  exact Nat.mod_lt _ (by decide)

/-! ### Aborts -/

theorem abortBlock_wf {s : State} (h : s.mem.wf) (b : Nat) : (abortBlock b s).mem.wf := loseLanes_wf h _ _

theorem abortAdvance_wf {s : State} (h : s.mem.wf) : (abortAdvance s).mem.wf := loseLanes_wf h _ _

theorem abortDrive_wf {s : State} (h : s.mem.wf) (count : Nat) : (abortDrive count s).mem.wf :=
  loseOutputs_wf (s := loseCounters (loseLanes 0 (tierLanes s.mode) s)) (loseLanes_wf h _ _) count

/-- The free `MOD6` an aborted ADV or DRIVE leaves is at most 5 (R23; log 3). -/
theorem loseCounters_mod6_lt (s : State) : (loseCounters s).mod6.toNat < 6 := by
  have hlt := (Config.unspecMod6 s.draws).isLt
  show (BitVec.ofNat 3 (Config.unspecMod6 s.draws).val).toNat < 6
  rw [BitVec.toNat_ofNat]
  omega

theorem RunInv.abortBlock {s : State} (h : RunInv s) (b : Nat) : RunInv (abortBlock b s) :=
  runInv_of_halted (abortBlock_wf h.mem b) h.mod6 h.mode h.status rfl

theorem RunInv.abortAdvance {s : State} (h : RunInv s) : RunInv (abortAdvance s) :=
  runInv_of_halted (abortAdvance_wf h.mem) (loseCounters_mod6_lt (loseLanes 0 (tierLanes s.mode) s)) h.mode h.status rfl

theorem RunInv.abortDrive {s : State} (h : RunInv s) (count : Nat) : RunInv (abortDrive count s) :=
  runInv_of_halted (abortDrive_wf h.mem count) (loseCounters_mod6_lt (loseLanes 0 (tierLanes s.mode) s)) h.mode
    h.status rfl

/-! ### Commands -/

theorem RunInv.finishTest {s : State} (h : RunInv s) (hrun : statusHalt s.status = false) (nf : Bool) :
    RunInv (finishTest nf s) :=
  ((h.withMem (clearScratch_wf h.mem) rfl).setNf nf).complete (by simpa using hrun) (by decide)

theorem RunInv.driveStops {s : State} (h : RunInv s) (hrun : statusHalt s.status = false) {c : Code}
    (hc : c ≠ .internalInvariant) : RunInv (driveStops c s) :=
  ((h.withOutcnt (n := 0) (Nat.zero_le _)).congr (t := { s with result := 0, outcnt := 0 }) rfl rfl rfl rfl rfl).raise
    hrun hc

/-- The residues modulo 6 at which a driver's loop stands are residues modulo 6. -/
theorem standing_lt {k : Kind} {r : Nat} (h : standing k r) : r < 6 := by
  cases k <;> simp only [standing] at h <;> omega

/-- What a driver that found its survivors leaves has the invariant: `OUTCNT` is the count, within the buffer. -/
theorem RunInv.driveDone {s : State} (h : RunInv s) (hrun : statusHalt s.status = false) {count : BitVec 32}
    {x : Search} (hv : modeValid s.mode = true) (hcap : count.toNat ≤ s.mem.out.length)
    (hx : runDriver (modeKind s.mode) count.toNat s = .full x) : RunInv (driveDone x) := by
  obtain ho | ⟨y, hy, hrunning, hframe, hj⟩ := runDriver_ends (k := modeKind s.mode) (n := count.toNat) h.mem hv h.mod6
  · rw [hx] at ho
    cases ho
  · obtain rfl : x = y := by
      rw [hx] at hy
      exact SearchEnd.full.inj hy
    have hcapacity : x.st.mem.out.length = s.mem.out.length := hframe.capacity
    have hstatus : x.st.status = s.status := hframe.status
    have hx' : RunInv { x.st with mem := clearScratch x.st.mem, outcnt := BitVec.ofNat 32 x.j } := by
      refine runInv_of_status (clearScratch_wf hrunning.wf) (standing_lt hrunning.standing) (.inr hrunning.valid)
        (hstatus ▸ h.status) fun _ => ?_
      show (BitVec.ofNat 32 x.j).toNat ≤ x.st.mem.out.length
      rw [hj, BitVec.ofNat_toNat, BitVec.setWidth_eq, hcapacity]
      exact hcap
    refine (hx'.congr (t := { x.st with mem := clearScratch x.st.mem, result := x.last, outcnt := BitVec.ofNat 32 x.j })
      rfl rfl rfl rfl rfl).raise ?_ (by decide)
    rw [hstatus]
    exact hrun

/-- INIT's values of `mod6` are residues modulo 6. -/
theorem mod6Odd_lt {mod6 : BitVec 3} (h : mod6Odd mod6 = true) : mod6.toNat < 6 := by
  have := (mod6Odd_iff mod6).mp h
  omega

theorem RunInv.wiped {s : State} (h : RunInv s) :
    RunInv { s with
      mem := wipedMemory s.mem.out.length
      lsb := 0
      offset := 0
      mod6 := 0
      mod6Incr := 0
      mode := 0
      result := 0
      outcnt := 0 } := by
  obtain ⟨-, -, -, -, hcap⟩ := h.mem
  exact runInv_of_status (wipedMemory_wf hcap) (show 0 < 6 by decide) (.inl rfl) h.status fun _ => Nat.zero_le _

/-- Every command that runs keeps the invariant. -/
theorem Effect.keeps_runInv {i : Instr} {s t : State} (he : Effect s i t) (h : RunInv s)
    (hrun : statusHalt s.status = false) : RunInv t := by
  cases he with
  | group hi d g l => exact (h.withMem (writeGroup_wf h.mem d g l) (by simp)).complete hrun (by decide)
  | zeroTested d b nf => exact (h.setNf nf).complete (by simpa using hrun) (by decide)
  | blockAdvanced hi r hr => exact (h.withR hr).complete hrun (by decide)
  | blockAborted hi b => exact h.abortBlock b
  | tested hi nf => exact h.finishTest hrun nf
  | testRefused | advanceRefused => exact h.raise hrun (by decide)
  | advanced k r hr => exact ((h.withR hr).advanceCounters k.toNat).complete hrun (by decide)
  | advanceAborted k => exact h.abortAdvance
  | @initialised mode mod6 hv ho =>
    have hs : RunInv { s with mode := mode, mod6 := mod6, offset := 0 } :=
      ((h.withMode (.inr hv)).withMod6 (mod6Odd_lt ho)).congr rfl rfl rfl rfl rfl
    exact hs.complete hrun (by decide)
  | initRefused mode mod6 hc => exact (h.withMode (.inl rfl)).raise hrun hc
  | wiped => exact (h.wiped.setNf false).complete (by simpa using hrun) (by decide)
  | driveStopped count hc => exact h.driveStops hrun hc
  | driven hv hcap hx => exact h.driveDone hrun hv hcap hx
  | driveAborted count => exact h.abortDrive count.toNat

/-! ### Steps -/

theorem RunInv.memWrite {s : State} (h : RunInv s) (addr : BitVec 20) (v : Word64) : RunInv (memWrite addr v s) := by
  obtain ⟨hcap, hstatus, -, houtcnt, hmode, h6, -⟩ := memWrite_frame addr v s
  exact (h.withMem (memWrite_wf h.mem addr v) hcap).congr rfl hstatus h6 hmode houtcnt

theorem RunInv.resetEvent {s : State} (h : RunInv s) : RunInv (resetEvent s) := by
  obtain ⟨-, -, -, -, hcap⟩ := h.mem
  refine runInv_of_status (afterReset_wf _ _ _ _ hcap) (show 0 < 6 by decide) (.inl rfl) ?_ fun _ => Nat.zero_le _
  show StatusInv 0
  exact ⟨by decide, by decide, by decide, by decide⟩

theorem hostAction_keeps_runInv {a : HostAccess} {s t : State} (h : RunInv s) (ha : hostAction a s = .next t) :
    RunInv t := by
  rcases hostAction_cases ha with ⟨addr, -, ht⟩ | ⟨addr, v, -, -, ht⟩ | ⟨v, i, -, hrun, -, ht⟩ |
    ⟨v, e, -, hrun, -, ht⟩ | ⟨addr, v, -, -, -, ht⟩ | ⟨-, ht⟩
  · obtain rfl := next_inj ht
    exact h.congr rfl rfl rfl rfl rfl
  · obtain rfl := next_inj ht
    exact h
  · exact (exec_effect ht.symm).keeps_runInv h hrun
  · obtain rfl := next_inj ht
    exact h.raise hrun (by decide)
  · obtain rfl := next_inj ht
    exact h.memWrite addr v
  · obtain rfl := next_inj ht
    exact h.resetEvent

/-- Settles O48: idling keeps the invariant, and each kind of host action does. -/
theorem stepKeepsInvariant : Obligations.StepKeepsInvariant := by
  intro s t h hstep
  cases hh : s.host with
  | nil =>
    rw [step_nil hh] at hstep
    obtain rfl := next_inj hstep
    exact h
  | cons a rest =>
    rw [step_cons hh] at hstep
    exact hostAction_keeps_runInv (h.congr (t := { s with host := rest }) rfl rfl rfl rfl rfl) hstep

end Sys2Proof.Machine
end

section
/-! PROOFS. ADV keeps the agreement with a candidate (spec/10_state.md R17, R33; 42_state_ops.md R121, R122). -/

namespace Sys2Proof.Machine

/-- ADV in a valid mode, when no lane carries (R122). -/
theorem exec_adv_of_advance {k : Lane} {s t : State} (hv : modeValid s.mode = true) (h : advance k.toNat s = some t) :
    exec (.adv k) s = .next (complete .ok t) := by
  simp only [exec, execAdv, hv, if_true, h]

/-- Settles O19: the tier's advance answers from a state in range (`advance_inRange`), and `LSB` moves with it. -/
theorem advKeepsAgreementAndRange : Obligations.AdvKeepsAgreementAndRange := by
  intro k s q hm hv ha hr hk
  obtain ⟨t, ht, ⟨r, hshape⟩, -, hrange, hres, h6⟩ := advance_inRange hm hr ha.residues ha.mod6 hk
  have hmode : t.mode = s.mode := (advance_registersKept ht).mode
  have hlsb : t.lsb = BitVec.ofNat 64 (q + k.toNat) := by
    rw [hshape, advanceCounters_lsb, ha.lsb, BitVec.ofNat_add]
  rw [← hmode] at hrange hres
  exact ⟨complete .ok t, exec_adv_of_advance hv ht, by simp, ⟨hres, hlsb, h6⟩, hrange⟩

end Sys2Proof.Machine
end

section
/-! PROOFS. The four tables (spec/10_state.md R11 to R14): `PRIMES` omits no prime, `INV` holds the inverses, `LIMIT`
gives the fast-rejection identity, and adding `M2R` subtracts a multiple of the prime. -/

namespace Sys2Proof.Machine

/-! ### PRIMES omits no prime (R11) -/

/-- Between neighbours of a list every number has a common factor with the product of the primes up to 179. -/
def gapsComposite : List Nat → Bool
  | [] => true
  | [_] => true
  | a :: b :: l =>
    ((List.range' (a + 1) (b - (a + 1))).all fun n => !Nat.beq (Nat.gcd n smallPrimorial) 1) && gapsComposite (b :: l)

theorem primeNats_gapsComposite : gapsComposite primeNats = true := by decide +kernel

theorem primeNats_head : primeNats.head? = some 5 := by decide +kernel

theorem primeNats_getLast : primeNats.getLast? = some 32237 := by decide +kernel

/-- The primes from 5 to 179 are entries. -/
theorem primeNats_mem_small : ∀ n < 180, 5 ≤ n → n.Prime → n ∈ primeNats := by decide +kernel

/-- A number within the bounds of such a list, without a common factor with the product, is an entry. -/
theorem mem_of_gapsComposite {l : List Nat} {a z n : Nat} (hl : gapsComposite l = true) (ha : l.head? = some a)
    (hz : l.getLast? = some z) (h1 : a ≤ n) (h2 : n ≤ z) (hn : Nat.gcd n smallPrimorial = 1) : n ∈ l := by
  induction l generalizing a with
  | nil => cases ha
  | cons b l ih =>
    obtain rfl : b = a := by simpa using ha
    cases l with
    | nil =>
      obtain rfl : b = z := by simpa using hz
      simp [Nat.le_antisymm h2 h1]
    | cons c l =>
      simp only [gapsComposite, Bool.and_eq_true, List.all_eq_true, List.mem_range'_1, Bool.not_eq_true',
        ← Bool.not_eq_true, Nat.beq_eq] at hl
      obtain ⟨hgap, hrest⟩ := hl
      by_cases hb : n = b
      · simp [hb]
      · have hc : c ≤ n := by
          by_contra hc
          exact hgap n (by omega) hn
        exact List.mem_cons_of_mem _ (ih hrest rfl (by simpa using hz) hc)

theorem smallPrimorial_dvd_factorial : smallPrimorial ∣ Nat.factorial 179 := by decide +kernel

/-- A prime above 179 has no common factor with the product of the primes up to 179. -/
theorem gcd_smallPrimorial_of_prime {n : Nat} (hn : n.Prime) (h : 179 < n) : Nat.gcd n smallPrimorial = 1 := by
  apply (Nat.Prime.coprime_iff_not_dvd hn).mpr
  intro hdvd
  have := hn.dvd_factorial.mp (hdvd.trans smallPrimorial_dvd_factorial)
  omega

/-- Every prime from 5 to 32237 is an entry. -/
theorem mem_primeNats_of_prime {n : Nat} (hn : n.Prime) (h1 : 5 ≤ n) (h2 : n ≤ 32237) : n ∈ primeNats := by
  by_cases h : n < 180
  · exact primeNats_mem_small n h h1 hn
  · exact mem_of_gapsComposite primeNats_gapsComposite primeNats_head primeNats_getLast h1 h2
      (gcd_smallPrimorial_of_prime hn (by omega))

theorem mem_primeNats_iff {n : Nat} : n ∈ primeNats ↔ ∃ i < 3456, primeAt i = n := by
  constructor
  · intro h
    obtain ⟨i, hi, rfl⟩ := List.getElem_of_mem h
    have hi' : i < 3456 := by rwa [primeNats_length] at hi
    exact ⟨i, hi', by rw [primeAt_eq hi', List.getD_eq_getElem _ _ hi]⟩
  · rintro ⟨i, hi, rfl⟩
    rw [primeAt_eq hi]
    exact primeNats_getD_mem hi

/-- The first three entries and the last. -/
theorem primeNats_ends :
    primeNats.getD 0 0 = 5 ∧ primeNats.getD 1 0 = 7 ∧ primeNats.getD 2 0 = 11 ∧ primeNats.getD 3455 0 = 32237 := by
  decide +kernel

/-- Settles O54: the entries are primes in ascending order, and the gaps between them hold composites alone. -/
theorem primesTableListsThePrimes : Obligations.PrimesTableListsThePrimes := by
  obtain ⟨h0, h1, h2, hlast⟩ := primeNats_ends
  refine ⟨primesTable_length, ?_, ?_, ?_, ?_, fun i j => primeAt_lt, fun n h5 hn => ?_⟩
  · rw [primeAt_eq (by decide), h0]
  · rw [primeAt_eq (by decide), h1]
  · rw [primeAt_eq (by decide), h2]
  · rw [primeAt_eq (by decide), hlast]
  · rw [← mem_primeNats_iff]
    exact ⟨fun hp => mem_primeNats_of_prime hp h5 hn, primeNats_prime⟩

/-! ### INV (R12) -/

theorem invAt_lt (i : Nat) : invAt i < 2 ^ 16 := BitVec.isLt _

/-- A lane of `INV` is odd, being a factor of an odd number. -/
theorem invAt_odd {i : Nat} (hi : i < 3456) : invAt i % 2 = 1 := by
  have hinv := primeAt_mul_invAt hi
  have hodd : (primeAt i * invAt i) % 2 = 1 := by omega
  exact (Nat.odd_mul.mp (Nat.odd_iff.mpr hodd)).2.elim fun c hc => by omega

/-- Settles O55: an odd prime may be cancelled modulo 2^16. -/
theorem invTableHoldsInverses : Obligations.InvTableHoldsInverses := by
  intro i hi
  have hinv := primeAt_mul_invAt hi
  refine ⟨invAt_odd hi, fun x hx => ⟨fun h => ?_, fun h => h ▸ hinv⟩⟩
  have hcoprime : Nat.Coprime (2 ^ 16) (primeAt i) :=
    Nat.Coprime.pow_left 16 (Nat.coprime_two_left.mpr (Nat.odd_iff.mpr (primeAt_bounds hi).2.2.1))
  have hmod : x ≡ invAt i [MOD 2 ^ 16] := Nat.ModEq.cancel_left_of_coprime hcoprime (h.trans hinv.symm)
  exact Nat.ModEq.eq_of_lt_of_lt hmod hx (invAt_lt i)

/-! ### LIMIT (R13) -/

/-- Settles O56: the identity is what the plain tester compares, for the lane value `a` itself. -/
theorem fastRejectionIdentity : Obligations.FastRejectionIdentity := by
  intro i hi
  refine ⟨limitAt_eq hi, fun a ha => ?_⟩
  have hpasses : limitAt i < a * invAt i % 2 ^ 16 ↔ a % primeAt i ≠ 0 := by
    simpa [passes, secondValue, firstProduct, factorFree] using
      passes_iff_factorFree (k := .plain) (q := a) hi ha rfl
  rw [Nat.dvd_iff_mod_eq_zero, ← Nat.not_lt, hpasses, not_not]

/-! ### M2R (R14) -/

/-- `2^15` is no multiple of an odd number above 1, so `MULT` lies strictly below it. -/
theorem two_pow_mod_primeAt_pos {i : Nat} (hi : i < 3456) : 0 < 2 ^ 15 % primeAt i := by
  obtain ⟨hge, -, hodd, -⟩ := primeAt_bounds hi
  by_contra h
  have hdvd : primeAt i ∣ 2 ^ 15 := Nat.dvd_of_mod_eq_zero (by omega)
  have htwo := (Nat.prime_dvd_prime_iff_eq (primeAt_prime hi) Nat.prime_two).mp ((primeAt_prime hi).dvd_of_dvd_pow hdvd)
  omega

/-- Settles O57: with `MULT = 2^15 - 2^15 mod p` every clause is linear arithmetic. -/
theorem foldSubtractsMultiple : Obligations.FoldSubtractsMultiple := by
  intro i hi
  obtain ⟨-, hbelow, -, -⟩ := primeAt_bounds hi
  have hm2r := m2rAt_eq hi
  have hpos := two_pow_mod_primeAt_pos hi
  have hlt : 2 ^ 15 % primeAt i < primeAt i := Nat.mod_lt _ (primeAt_prime hi).pos
  have hdiv := Nat.div_add_mod (2 ^ 15) (primeAt i)
  have hmod : primeAt i * (2 ^ 15 / primeAt i) % primeAt i = 0 := Nat.mul_mod_right _ _
  have hsub : ∀ v, 2 ^ 15 ≤ v → (v - primeAt i * (2 ^ 15 / primeAt i)) % primeAt i = v % primeAt i :=
    fun v hv => Nat.sub_mul_mod (by omega)
  refine ⟨_, rfl, hm2r, ?_, hmod, ?_, ?_, ?_, ?_, fun v h1 h2 => ⟨?_, ?_, ?_, hsub v h1, ?_⟩⟩
  all_goals omega

end Sys2Proof.Machine
end

section
/-! PROOFS. What the host reads and writes at every address (spec/20_memory.md R40 to R42; 10_state.md R25). -/

namespace Sys2Proof.Machine

/-! ### The address map -/

/-- A space is that of a bank, the output buffer, the registers, or unmapped (R41). -/
theorem space_cases (space : BitVec 4) :
    (∃ b, space = codeOfBank b) ∨ space = 8 ∨ space = 15 ∨ (bankOfCode space = none ∧ space ≠ 8 ∧ space ≠ 15) := by
  cases hb : bankOfCode space with
  | some b => exact .inl ⟨b, (codeOfBank_of_bankOfCode hb).symm⟩
  | none =>
    by_cases h8 : space = 8
    · exact .inr (.inl h8)
    · by_cases h15 : space = 15
      · exact .inr (.inr (.inl h15))
      · exact .inr (.inr (.inr ⟨rfl, h8, h15⟩))

theorem codeOfBank_inj {b c : Bank} : codeOfBank b = codeOfBank c ↔ b = c :=
  ⟨fun h => by simpa using congrArg bankOfCode h, fun h => h ▸ rfl⟩

theorem codeOfBank_ne_out (b : Bank) : codeOfBank b ≠ 8 := by cases b <;> decide

theorem codeOfBank_ne_csr (b : Bank) : codeOfBank b ≠ 15 := by cases b <;> decide

theorem ne_codeOfBank_of_none {space : BitVec 4} (h : bankOfCode space = none) (b : Bank) : space ≠ codeOfBank b := by
  rintro rfl
  simp at h

/-- The spaces 0 to 5 are those of the banks that are not scratch (R40). -/
theorem exists_bank_of_space_le {space : BitVec 4} (h : space.toNat ≤ 5) :
    ∃ b, space = codeOfBank b ∧ b.scratch = false := by
  have hsome : ∀ c : BitVec 4, c.toNat ≤ 5 → (bankOfCode c).isSome = true := by decide
  obtain ⟨b, hb⟩ := Option.isSome_iff_exists.mp (hsome space h)
  obtain rfl := codeOfBank_of_bankOfCode hb
  exact ⟨b, rfl, by revert h; cases b <;> decide⟩

/-- An index past the end of a bank reads as 0 (R41). -/
theorem laneAt_past_end {b : Bank} {i : Nat} {m : Memory} (h : (bankLanes b m).length ≤ i) : laneAt b i m = 0 := by
  simp [laneAt, List.getD_eq_getElem?_getD, h]

section
variable (s : State) (index : BitVec 16)

/-! ### Reads -/

theorem memRead_bank (b : Bank) :
    memRead (hostAddress (codeOfBank b) index) s = (laneAt b index.toNat s.mem).setWidth 64 := by
  simp only [memRead, spaceOf_hostAddress, indexOf_hostAddress, bankOfCode_codeOfBank]

theorem memRead_out : memRead (hostAddress 8 index) s = s.mem.out.getD index.toNat 0 := by
  simp only [memRead, spaceOf_hostAddress, indexOf_hostAddress, show bankOfCode 8 = none by decide, if_true]

theorem memRead_csr : memRead (hostAddress 15 index) s = readCsr index.toNat s := by
  simp only [memRead, spaceOf_hostAddress, indexOf_hostAddress, show bankOfCode 15 = none by decide,
    show (15 : BitVec 4) ≠ 8 by decide, if_true, if_false]

theorem memRead_unmapped {space : BitVec 4} (h : bankOfCode space = none) (h8 : space ≠ 8) (h15 : space ≠ 15) :
    memRead (hostAddress space index) s = 0 := by
  simp only [memRead, spaceOf_hostAddress, h, if_neg h8, if_neg h15]

theorem memRead_past_end {b : Bank} (h : (bankLanes b s.mem).length ≤ index.toNat) :
    memRead (hostAddress (codeOfBank b) index) s = 0 := by
  rw [memRead_bank, laneAt_past_end h]
  rfl

/-- The registers as the host reads them, as numbers (R25). -/
theorem readCsr_toNat (n : Nat) :
    (readCsr n s).toNat =
      if n = 1 then s.status.toNat else if n = 2 then s.result.toNat else if n = 3 then s.outcnt.toNat
      else if n = 4 then s.mode.toNat else if n = 5 then s.mod6.toNat else if n = 6 then s.mod6Incr.toNat
      else if n = 7 then s.lsb.toNat else if n = 8 then s.offset.toNat else 0 := by
  unfold readCsr
  split
  case h_4 | h_5 | h_6 | h_7 =>
    rw [BitVec.toNat_setWidth_of_le (by decide)]
    simp
  case h_10 _ h1 h2 h3 h4 h5 h6 h7 h8 =>
    rw [if_neg h1, if_neg h2, if_neg h3, if_neg h4, if_neg h5, if_neg h6, if_neg h7, if_neg h8]
    rfl
  all_goals simp

/-! ### Writes -/

theorem hostAction_write {addr : BitVec 20} {v : Word64} (hrun : statusHalt s.status = false) (hc : addr ≠ cmdAddress) :
    hostAction (.write addr v) s = .next (memWrite addr v s) := by
  simp [hostAction, hrun, hc]

variable (v : Word64)

theorem memWrite_bank (b : Bank) :
    memWrite (hostAddress (codeOfBank b) index) v s =
      { s with mem := setBank b ((bankLanes b s.mem).set index.toNat (v.setWidth 16)) s.mem } := by
  simp only [memWrite, spaceOf_hostAddress, indexOf_hostAddress, bankOfCode_codeOfBank]

theorem memWrite_out :
    memWrite (hostAddress 8 index) v s = { s with mem := { s.mem with out := s.mem.out.set index.toNat v } } := by
  simp only [memWrite, spaceOf_hostAddress, indexOf_hostAddress, show bankOfCode 8 = none by decide, if_true]

theorem memWrite_csr : memWrite (hostAddress 15 index) v s = writeCsr index.toNat v s := by
  simp only [memWrite, spaceOf_hostAddress, indexOf_hostAddress, show bankOfCode 15 = none by decide,
    show (15 : BitVec 4) ≠ 8 by decide, if_true, if_false]

theorem memWrite_unmapped {space : BitVec 4} (h : bankOfCode space = none) (h8 : space ≠ 8) (h15 : space ≠ 15) :
    memWrite (hostAddress space index) v s = s := by
  simp only [memWrite, spaceOf_hostAddress, h, if_neg h8, if_neg h15]

/-- The registers a host write reaches: `MOD6_INCR`, `LSB`, `OFFSET` (R25). -/
theorem writeCsr_eq (n : Nat) :
    writeCsr n v s = { s with
      mod6Incr := if n = 6 then v.setWidth 3 else s.mod6Incr
      lsb := if n = 7 then v else s.lsb
      offset := if n = 8 then v else s.offset } := by
  unfold writeCsr
  split
  case h_4 h6 h7 h8 => rw [if_neg h6, if_neg h7, if_neg h8]
  all_goals simp

theorem writeCsr_mem (n : Nat) : (writeCsr n v s).mem = s.mem := by rw [writeCsr_eq]

theorem set_getD {α : Type} (l : List α) (j i : Nat) (x d : α) :
    (l.set j x).getD i d = if j = i ∧ i < l.length then x else l.getD i d := by
  by_cases hj : j = i
  · by_cases hi : i < l.length <;> simp [List.getD_eq_getElem?_getD, hj, hi]
  · simp [List.getD_eq_getElem?_getD, hj]

/-- A lane after an element of a bank is set: a write to a table is dropped (R42). -/
theorem laneAt_setBank_set (b c : Bank) (j i : Nat) (x : Lane) (m : Memory) :
    laneAt b i (setBank c ((bankLanes c m).set j x) m) =
      if b.writable = true ∧ c = b ∧ j = i ∧ i < (bankLanes b m).length then x else laneAt b i m := by
  by_cases hc : c = b
  · subst hc
    by_cases hw : c.writable = true
    · simp only [laneAt, bankLanes_setBank_self hw, set_getD, hw, true_and]
    · rw [setBank_readOnly (by simpa using hw), if_neg (fun h => hw h.1)]
  · rw [laneAt, bankLanes_setBank_other (Ne.symm hc), if_neg (fun h => hc h.2.1), laneAt]

/-- A lane after a host write. -/
theorem laneAt_memWrite (space : BitVec 4) (b : Bank) (i : Nat) :
    laneAt b i (memWrite (hostAddress space index) v s).mem =
      if b.writable = true ∧ space = codeOfBank b ∧ index.toNat = i ∧ i < (bankLanes b s.mem).length then v.setWidth 16
      else laneAt b i s.mem := by
  rcases space_cases space with ⟨c, rfl⟩ | rfl | rfl | ⟨hn, h8, h15⟩
  · rw [memWrite_bank, laneAt_setBank_set]
    simp only [codeOfBank_inj]
  · rw [memWrite_out, if_neg (fun h => codeOfBank_ne_out b h.2.1.symm)]
    cases b <;> rfl
  · rw [memWrite_csr, writeCsr_mem, if_neg (fun h => codeOfBank_ne_csr b h.2.1.symm)]
  · rw [memWrite_unmapped s index v hn h8 h15, if_neg (fun h => ne_codeOfBank_of_none hn b h.2.1)]

/-- An entry of the output buffer after a host write. -/
theorem out_memWrite (space : BitVec 4) (i : Nat) :
    (memWrite (hostAddress space index) v s).mem.out.getD i 0 =
      if space = 8 ∧ index.toNat = i ∧ i < s.mem.out.length then v else s.mem.out.getD i 0 := by
  rcases space_cases space with ⟨c, rfl⟩ | rfl | rfl | ⟨hn, h8, h15⟩
  · simp only [memWrite_bank, setBank_out, codeOfBank_ne_out, false_and, if_false]
  · simp only [memWrite_out, set_getD, true_and]
  · simp only [memWrite_csr, writeCsr_mem, show (15 : BitVec 4) ≠ 8 by decide, false_and, if_false]
  · simp only [memWrite_unmapped s index v hn h8 h15, h8, false_and, if_false]

/-- The registers after a host write. -/
theorem csrs_memWrite (space : BitVec 4) :
    (memWrite (hostAddress space index) v s).mod6Incr =
        (if space = 15 ∧ index = 6 then v.setWidth 3 else s.mod6Incr) ∧
      (memWrite (hostAddress space index) v s).lsb = (if space = 15 ∧ index = 7 then v else s.lsb) ∧
      (memWrite (hostAddress space index) v s).offset = (if space = 15 ∧ index = 8 then v else s.offset) := by
  rcases space_cases space with ⟨c, rfl⟩ | rfl | rfl | ⟨hn, h8, h15⟩
  · simp only [memWrite_bank, codeOfBank_ne_csr, false_and, if_false, and_self]
  · simp only [memWrite_out, show (8 : BitVec 4) ≠ 15 by decide, false_and, if_false, and_self]
  · have hindex : ∀ n < 2 ^ 16, index.toNat = n ↔ (15 : BitVec 4) = 15 ∧ index = BitVec.ofNat 16 n := fun n hn => by
      simp only [true_and, ← BitVec.toNat_inj, BitVec.toNat_ofNat]
      omega
    rw [memWrite_csr, writeCsr_eq]
    exact ⟨if_congr (hindex 6 (by decide)) rfl rfl, if_congr (hindex 7 (by decide)) rfl rfl,
      if_congr (hindex 8 (by decide)) rfl rfl⟩
  · simp only [memWrite_unmapped s index v hn h8 h15, h15, false_and, if_false, and_self]

end

/-! ### The tables as the host reads them -/

theorem laneAt_primes (i : Nat) (m : Memory) : (laneAt .primes i m).toNat = primeAt i := rfl
theorem laneAt_inv (i : Nat) (m : Memory) : (laneAt .inv i m).toNat = invAt i := rfl
theorem laneAt_limit (i : Nat) (m : Memory) : (laneAt .limit i m).toNat = limitAt i := rfl
theorem laneAt_m2r (i : Nat) (m : Memory) : (laneAt .m2r i m).toNat = m2rAt i := rfl

/-- Settles O45, by the kind of space the address names. -/
theorem hostReadReturnsElement : Obligations.HostReadReturnsElement := by
  intro s space index rest hm hhost
  refine ⟨memRead (hostAddress space index) { s with host := rest }, step_cons hhost, ?_, ?_, ?_, ?_⟩
  · rcases space_cases space with ⟨b, rfl⟩ | rfl | rfl | ⟨hn, h8, h15⟩
    · rw [memRead_bank, BitVec.toNat_setWidth_of_le (by decide)]
      cases b <;> simp [codeOfBank, laneAt_primes, laneAt_inv, laneAt_limit, laneAt_m2r]
    · rw [memRead_out]
      simp
    · rw [memRead_csr, readCsr_toNat]
      simp [← BitVec.toNat_inj]
    · have hne := ne_codeOfBank_of_none hn
      rw [memRead_unmapped _ _ hn h8 h15, if_neg (show space ≠ 0 from hne .r), if_neg (show space ≠ 1 from hne .primes),
        if_neg (show space ≠ 2 from hne .inv), if_neg (show space ≠ 3 from hne .limit),
        if_neg (show space ≠ 4 from hne .m2r), if_neg (show space ≠ 5 from hne .kv),
        if_neg (show space ≠ 6 from hne .tmp), if_neg (show space ≠ 7 from hne .tmp2), if_neg h8, if_neg h15]
      rfl
  · intro hspace hindex
    obtain ⟨b, rfl, hb⟩ := exists_bank_of_space_le hspace
    exact memRead_past_end _ _ (by simpa [bankLanes_length hm, hb] using hindex)
  · rintro (rfl | rfl) hindex
    · exact memRead_past_end (b := .tmp) _ _ (by simpa [bankLanes_length hm, Bank.scratch] using hindex)
    · exact memRead_past_end (b := .tmp2) _ _ (by simpa [bankLanes_length hm, Bank.scratch] using hindex)
  · rintro rfl hindex
    rw [memRead_out]
    simp [List.getD_eq_getElem?_getD, hindex]

/-- Settles O46: each element after a write to any space (`laneAt_memWrite`, `out_memWrite`, `csrs_memWrite`). -/
theorem hostWriteStoresElement : Obligations.HostWriteStoresElement := by
  intro s space index v rest hm hhost hrun hcmd
  have hne : hostAddress space index ≠ cmdAddress := fun h => hcmd ((hostAddress_eq_cmd_iff space index).mp h)
  obtain ⟨hcap, hstatus, hresult, houtcnt, hmode, hmod6, hhost', hread, hdraws⟩ :=
    memWrite_frame (hostAddress space index) v { s with host := rest }
  obtain ⟨hincr, hlsb, hoffset⟩ := csrs_memWrite { s with host := rest } index v space
  refine ⟨memWrite (hostAddress space index) v { s with host := rest },
    (step_cons hhost).trans (hostAction_write _ hrun hne), memWrite_wf (s := { s with host := rest }) hm _ _,
    fun b i => ?_, out_memWrite _ index v space, hcap, ?_, hlsb,
    hoffset, hstatus, hresult, houtcnt, hmode, hmod6, hhost', hread, hdraws⟩
  · rw [laneAt_memWrite, apply_ite BitVec.toNat, BitVec.toNat_setWidth]
  · rw [hincr, apply_ite BitVec.toNat, BitVec.toNat_setWidth]

end Sys2Proof.Machine
end

section
/-! PROOFS. The host port while the engine is halted (spec/20_memory.md R42; 60_exceptions.md R174): writes are dropped,
and reads do not see `STATUS` but at its own address. -/

namespace Sys2Proof.Machine

/-- The address of `CSR[1]` is that of `STATUS` (R25). -/
theorem hostAddress_status : hostAddress 15 1 = 0xF0001 := by decide

/-- The registers other than `STATUS` read the same whatever `STATUS` holds (R25). -/
theorem readCsr_withStatus {n : Nat} (h : n ≠ 1) (s : State) (st : BitVec 64) :
    readCsr n { s with status := st } = readCsr n s := by
  apply BitVec.eq_of_toNat_eq
  simp only [readCsr_toNat, if_neg h]

/-- A read of any element but `STATUS` does not depend on `STATUS`, by the kind of space the address names (R41). -/
theorem memRead_withStatus {addr : BitVec 20} (h : addr ≠ 0xF0001) (s : State) (st : BitVec 64) :
    memRead addr { s with status := st } = memRead addr s := by
  obtain ⟨space, index, rfl⟩ : ∃ space index, addr = hostAddress space index := ⟨_, _, (hostAddress_parts addr).symm⟩
  rcases space_cases space with ⟨b, rfl⟩ | rfl | rfl | ⟨hn, h8, h15⟩
  · simp only [memRead_bank]
  · simp only [memRead_out]
  · have hindex : index.toNat ≠ 1 := by
      intro hi
      obtain rfl : index = 1 := BitVec.eq_of_toNat_eq hi
      exact h hostAddress_status
    simp only [memRead_csr, readCsr_withStatus hindex]
  · simp only [memRead_unmapped _ index hn h8 h15]

/-- A write is dropped while `HALT = 1`, a command among them (R42, R174). -/
theorem hostAction_write_of_halt {s : State} (h : statusHalt s.status = true) (addr : BitVec 20) (v : Word64) :
    hostAction (.write addr v) s = .next s := by
  simp only [hostAction, h, if_true]

theorem step_read {s : State} {addr : BitVec 20} {rest : List HostAccess} (h : s.host = .read addr :: rest) :
    step s = .next { s with host := rest, hostRead := memRead addr { s with host := rest } } :=
  step_cons h

/-- Settles O44: a halted write is dropped (`hostAction_write_of_halt`), and what a read answers does not depend on
`STATUS`, `HALT` included (`memRead_withStatus`). -/
theorem haltedDropsWrites : Obligations.HaltedDropsWrites := by
  refine ⟨fun s addr v rest hhost hhalt => ?_, fun s addr rest hhost haddr => ?_⟩
  · exact (step_cons hhost).trans (hostAction_write_of_halt (s := { s with host := rest }) hhalt addr v)
  · have hrunning := step_read (s := { s with status := setStatusHalt false s.status }) hhost
    have hread := memRead_withStatus haddr { s with host := rest } (setStatusHalt false s.status)
    exact ⟨_, _, step_read hhost, hrunning, hread.symm, rfl⟩

end Sys2Proof.Machine
end

section
/-! PROOFS. The encoding of commands (spec/30_encoding.md R60 to R69). Each format of R61 is described by the words it
packs: its decoder accepts exactly the packings of well-formed operands (`decodeG3_eq_ok_iff` and its siblings). The
statements follow by going through the 21 commands once per direction (`encode_of_decoderFor`, `decoderFor_encode`). -/

namespace Sys2Proof

/-! ### Words by their fields -/

theorem packWord_eq_iff {op : BitVec 8} {d a b z : BitVec 4} {idx : BitVec 8} {imm : BitVec 32} {w : Word64} :
    packWord op d a b z idx imm = w ↔
      opField w = op ∧ dField w = d ∧ aField w = a ∧ bField w = b ∧ zField w = z ∧ idxField w = idx ∧
        immField w = imm := by
  constructor
  · rintro rfl
    simp
  · rintro ⟨rfl, rfl, rfl, rfl, rfl, rfl, rfl⟩
    exact packWord_fields w

theorem bankOfCode_eq_some_iff {c : BitVec 4} {b : Bank} : bankOfCode c = some b ↔ c = codeOfBank b :=
  ⟨fun h => (codeOfBank_of_bankOfCode h).symm, fun h => h ▸ bankOfCode_codeOfBank b⟩

/-! ### Immediates (R64) -/

theorem exists_imm16_iff {imm : BitVec 32} : (∃ k, imm = imm16 k) ↔ imm.toNat < 2 ^ 16 := by
  constructor
  · rintro ⟨k, rfl⟩
    exact (imm16_toNat k).trans_lt k.isLt
  · intro h
    refine ⟨imm.extractLsb' 0 16, BitVec.eq_of_toNat_eq ?_⟩
    rw [imm16_toNat, BitVec.extractLsb'_toNat, Nat.shiftRight_zero, Nat.mod_eq_of_lt h]

theorem initImm_mode (mode : BitVec 16) (mod6 : BitVec 3) :
    (0#13 ++ mod6 ++ mode : BitVec 32).extractLsb' 0 16 = mode := by
  apply BitVec.eq_of_toNat_eq
  rw [BitVec.extractLsb'_toNat, initImm_toNat, Nat.shiftRight_zero]
  omega

theorem initImm_mod6 (mode : BitVec 16) (mod6 : BitVec 3) :
    (0#13 ++ mod6 ++ mode : BitVec 32).extractLsb' 16 3 = mod6 := by
  apply BitVec.eq_of_toNat_eq
  rw [BitVec.extractLsb'_toNat, initImm_toNat, Nat.shiftRight_eq_div_pow]
  omega

/-- An immediate below 2^19 is the one INIT packs from its two parts. -/
theorem initImm_of_lt {imm : BitVec 32} (h : imm.toNat < 2 ^ 19) :
    (0#13 ++ imm.extractLsb' 16 3 ++ imm.extractLsb' 0 16 : BitVec 32) = imm := by
  apply BitVec.eq_of_toNat_eq
  rw [initImm_toNat, BitVec.extractLsb'_toNat, BitVec.extractLsb'_toNat, Nat.shiftRight_eq_div_pow, Nat.shiftRight_zero]
  omega

/-! ### What the decoder of each format accepts (R65) -/

section
variable {w : Word64} {i j : Instr}

theorem ite_error_eq_ok_iff {c : Prop} [Decidable c] {e : DecodeError} {x : Except DecodeError Instr} :
    (if c then .error e else x) = .ok i ↔ ¬ c ∧ x = .ok i := by
  by_cases hc : c <;> simp [hc]

theorem checkGroup_eq_ok_iff {d : Bank} {banks : List Bank} {g : BitVec 8} :
    checkGroup d banks g j = .ok i ↔ (d.writable && groupIndexOk banks g) = true ∧ j = i := by
  simp [checkGroup, ite_error_eq_ok_iff, and_assoc]

theorem checkBlock_eq_ok_iff {b : BitVec 8} : checkBlock b j = .ok i ↔ blockIndexOk b = true ∧ j = i := by
  simp [checkBlock, ite_error_eq_ok_iff]

variable {op : BitVec 8}

theorem decodeG3_eq_ok_iff {mk : Bank → Bank → Bank → BitVec 8 → Instr} :
    opField w = op ∧ decodeG3 mk w = .ok i ↔
      ∃ d a b g, mk d a b g = i ∧ (d.writable && groupIndexOk [d, a, b] g) = true ∧
        packWord op (codeOfBank d) (codeOfBank a) (codeOfBank b) 0 g 0 = w := by
  constructor
  · rintro ⟨hop, h⟩
    obtain ⟨hzero, h⟩ := ite_error_eq_ok_iff.mp h
    split at h
    next d a b hd ha hb =>
      obtain ⟨hwf, hi⟩ := checkGroup_eq_ok_iff.mp h
      simp only [bankOfCode_eq_some_iff] at hd ha hb
      exact ⟨d, a, b, idxField w, hi, hwf, packWord_eq_iff.mpr (by simp_all)⟩
    next => cases h
  · rintro ⟨d, a, b, g, rfl, hwf, rfl⟩
    simp [decodeG3, checkGroup_eq_ok_iff, -Bool.and_eq_true, hwf]

theorem decodeG2_eq_ok_iff {mk : Bank → Bank → BitVec 8 → Instr} :
    opField w = op ∧ decodeG2 mk w = .ok i ↔
      ∃ d a g, mk d a g = i ∧ (d.writable && groupIndexOk [d, a] g) = true ∧
        packWord op (codeOfBank d) (codeOfBank a) 0 0 g 0 = w := by
  constructor
  · rintro ⟨hop, h⟩
    obtain ⟨hzero, h⟩ := ite_error_eq_ok_iff.mp h
    split at h
    next d a hd ha =>
      obtain ⟨hwf, hi⟩ := checkGroup_eq_ok_iff.mp h
      simp only [bankOfCode_eq_some_iff] at hd ha
      exact ⟨d, a, idxField w, hi, hwf, packWord_eq_iff.mpr (by simp_all)⟩
    next => cases h
  · rintro ⟨d, a, g, rfl, hwf, rfl⟩
    simp [decodeG2, checkGroup_eq_ok_iff, -Bool.and_eq_true, hwf]

theorem decodeGI_eq_ok_iff {mk : Bank → BitVec 8 → Lane → Instr} :
    opField w = op ∧ decodeGI mk w = .ok i ↔
      ∃ d g k, mk d g k = i ∧ (d.writable && groupIndexOk [d] g) = true ∧
        packWord op (codeOfBank d) 0 0 0 g (imm16 k) = w := by
  constructor
  · rintro ⟨hop, h⟩
    obtain ⟨hzero, h⟩ := ite_error_eq_ok_iff.mp h
    simp only [not_or, ne_eq, not_not] at hzero
    obtain ⟨hz, ha, hb, himm⟩ := hzero
    split at h
    next d hd =>
      obtain ⟨hwf, hi⟩ := checkGroup_eq_ok_iff.mp h
      exact ⟨d, idxField w, _, hi, hwf,
        packWord_eq_iff.mpr ⟨hop, bankOfCode_eq_some_iff.mp hd, ha, hb, hz, rfl, (imm16_of_high himm).symm⟩⟩
    next => cases h
  · rintro ⟨d, g, k, rfl, hwf, rfl⟩
    simp [decodeGI, checkGroup_eq_ok_iff, -Bool.and_eq_true, hwf]

theorem decodeB1_eq_ok_iff {mk : Bank → BitVec 8 → Instr} :
    opField w = op ∧ decodeB1 mk w = .ok i ↔
      ∃ d b, mk d b = i ∧ (d.scratch || blockIndexOk b) = true ∧ packWord op (codeOfBank d) 0 0 0 b 0 = w := by
  constructor
  · rintro ⟨hop, h⟩
    obtain ⟨hzero, h⟩ := ite_error_eq_ok_iff.mp h
    split at h
    next d hd =>
      have hword : packWord op (codeOfBank d) 0 0 0 (idxField w) 0 = w := by
        rw [bankOfCode_eq_some_iff] at hd
        exact packWord_eq_iff.mpr (by simp_all)
      split at h
      next hscratch => exact ⟨d, idxField w, Except.ok.inj h, by simp [hscratch], hword⟩
      next =>
        obtain ⟨hblock, hi⟩ := checkBlock_eq_ok_iff.mp h
        exact ⟨d, idxField w, hi, by simp [hblock], hword⟩
    next => cases h
  · rintro ⟨d, b, rfl, hwf, rfl⟩
    cases hscratch : d.scratch <;> simp_all [decodeB1, checkBlock_eq_ok_iff]

theorem decodeB0_eq_ok_iff {mk : BitVec 8 → Instr} :
    opField w = op ∧ decodeB0 mk w = .ok i ↔
      ∃ b, mk b = i ∧ blockIndexOk b = true ∧ packWord op 0 0 0 0 b 0 = w := by
  constructor
  · rintro ⟨hop, h⟩
    obtain ⟨hzero, h⟩ := ite_error_eq_ok_iff.mp h
    obtain ⟨hblock, hi⟩ := checkBlock_eq_ok_iff.mp h
    exact ⟨idxField w, hi, hblock, packWord_eq_iff.mpr (by simp_all)⟩
  · rintro ⟨b, rfl, hblock, rfl⟩
    simp [decodeB0, checkBlock_eq_ok_iff, hblock]

theorem decodeBI_eq_ok_iff {mk : BitVec 8 → Lane → Instr} :
    opField w = op ∧ decodeBI mk w = .ok i ↔
      ∃ b k, mk b k = i ∧ blockIndexOk b = true ∧ packWord op 0 0 0 0 b (imm16 k) = w := by
  constructor
  · rintro ⟨hop, h⟩
    obtain ⟨hzero, h⟩ := ite_error_eq_ok_iff.mp h
    simp only [not_or, ne_eq, not_not] at hzero
    obtain ⟨hz, hd, ha, hb, himm⟩ := hzero
    obtain ⟨hblock, hi⟩ := checkBlock_eq_ok_iff.mp h
    exact ⟨idxField w, _, hi, hblock, packWord_eq_iff.mpr ⟨hop, hd, ha, hb, hz, rfl, (imm16_of_high himm).symm⟩⟩
  · rintro ⟨b, k, rfl, hblock, rfl⟩
    simp [decodeBI, checkBlock_eq_ok_iff, hblock]

theorem decodeS_eq_ok_iff {n : Nat} (mk : BitVec 32 → Instr) :
    opField w = op ∧ decodeS n (mk (immField w)) w = .ok i ↔
      ∃ imm, mk imm = i ∧ imm.toNat < 2 ^ n ∧ packWord op 0 0 0 0 0 imm = w := by
  constructor
  · rintro ⟨hop, h⟩
    obtain ⟨hzero, hi⟩ := ite_error_eq_ok_iff.mp h
    simp only [not_or, ne_eq, not_not, not_le] at hzero
    obtain ⟨hz, hd, ha, hb, hidx, hlt⟩ := hzero
    exact ⟨immField w, Except.ok.inj hi, hlt, packWord_eq_iff.mpr ⟨hop, hd, ha, hb, hz, hidx, rfl⟩⟩
  · rintro ⟨imm, rfl, hlt, rfl⟩
    simp [decodeS, hlt]

/-- The commands without operands: the case of no immediate bit. -/
theorem decodeS0_eq_ok_iff :
    opField w = op ∧ decodeS 0 j w = .ok i ↔ j = i ∧ packWord op 0 0 0 0 0 0 = w := by
  refine (decodeS_eq_ok_iff fun _ => j).trans ⟨?_, fun ⟨hi, hword⟩ => ⟨0, hi, by decide, hword⟩⟩
  rintro ⟨imm, hi, hlt, hword⟩
  obtain rfl : imm = 0 := BitVec.eq_of_toNat_eq (Nat.lt_one_iff.mp hlt)
  exact ⟨hi, hword⟩

end

/-! ### The decoder by opcode (R66) -/

/-- The format decoder that `decode` runs for the opcode of a command. -/
def decoderFor : Instr → Word64 → Except DecodeError Instr
  | .gmul _ _ _ _ => decodeG3 .gmul
  | .gshl1add _ _ _ _ => decodeG3 .gshl1add
  | .gmin _ _ _ _ => decodeG3 .gmin
  | .gor _ _ _ _ => decodeG3 .gor
  | .gadds _ _ _ => decodeGI .gadds
  | .gaddv _ _ _ => decodeG2 .gaddv
  | .glemask _ _ _ => decodeG2 .glemask
  | .gfold _ _ _ => decodeG2 .gfold
  | .bztest _ _ => decodeB1 .bztest
  | .badvs _ _ => decodeBI .badvs
  | .badvv _ => decodeB0 .badvv
  | .bnfp _ => decodeB0 .bnfp
  | .bnft _ => decodeB0 .bnft
  | .bnfs _ => decodeB0 .bnfs
  | .adv _ => fun w => decodeS 16 (.adv ((immField w).extractLsb' 0 16)) w
  | .tstp => decodeS 0 .tstp
  | .tstt => decodeS 0 .tstt
  | .tsts => decodeS 0 .tsts
  | .init _ _ => fun w => decodeS 19 (.init ((immField w).extractLsb' 0 16) ((immField w).extractLsb' 16 3)) w
  | .wipe => decodeS 0 .wipe
  | .drive _ => fun w => decodeS 32 (.drive (immField w)) w

theorem decode_of_opField {w : Word64} {j : Instr} (h : opField w = opcodeOf j) : decode w = decoderFor j w := by
  unfold decode
  rw [h]
  cases j <;> rfl

/-- One command for each row of the opcode table, in its order (R66). -/
def oneOfEach : List Instr :=
  [.gmul .r .r .r 0, .gshl1add .r .r .r 0, .gmin .r .r .r 0, .gor .r .r .r 0, .gadds .r 0 0, .gaddv .r .r 0,
    .glemask .r .r 0, .gfold .r .r 0, .bztest .r 0, .badvs 0 0, .badvv 0, .bnfp 0, .bnft 0, .bnfs 0, .adv 0, .tstp, .tstt,
    .tsts, .init 0 0, .wipe, .drive 0]

/-- An accepted word has the opcode of some row. -/
theorem exists_opcodeOf_of_decode {w : Word64} {i : Instr} (h : decode w = .ok i) :
    ∃ j ∈ oneOfEach, opField w = opcodeOf j := by
  by_contra hnone
  have hne : ∀ j ∈ oneOfEach, (opField w).toNat ≠ (opcodeOf j).toNat :=
    fun j hj heq => hnone ⟨j, hj, BitVec.eq_of_toNat_eq heq⟩
  simp only [oneOfEach, List.forall_mem_cons, opcodeOf] at hne
  unfold decode at h
  split at h <;> simp_all

/-! ### Decoding and encoding -/

/-- What the format decoder of a command accepts is well-formed and encodes to the word it was read from. -/
theorem encode_of_decoderFor {w : Word64} {i j : Instr} (h : opField w = opcodeOf j ∧ decoderFor j w = .ok i) :
    i.wellFormed = true ∧ encode i = w := by
  cases j with
  | gmul | gshl1add | gmin | gor =>
    obtain ⟨d, a, b, g, rfl, hwf, hword⟩ := decodeG3_eq_ok_iff.mp h
    exact ⟨hwf, hword⟩
  | gaddv | glemask | gfold =>
    obtain ⟨d, a, g, rfl, hwf, hword⟩ := decodeG2_eq_ok_iff.mp h
    exact ⟨hwf, hword⟩
  | gadds =>
    obtain ⟨d, g, k, rfl, hwf, hword⟩ := decodeGI_eq_ok_iff.mp h
    exact ⟨hwf, hword⟩
  | bztest =>
    obtain ⟨d, b, rfl, hwf, hword⟩ := decodeB1_eq_ok_iff.mp h
    exact ⟨hwf, hword⟩
  | badvs =>
    obtain ⟨b, k, rfl, hwf, hword⟩ := decodeBI_eq_ok_iff.mp h
    exact ⟨hwf, hword⟩
  | badvv | bnfp | bnft | bnfs =>
    obtain ⟨b, rfl, hwf, hword⟩ := decodeB0_eq_ok_iff.mp h
    exact ⟨hwf, hword⟩
  | adv =>
    obtain ⟨imm, rfl, hlt, hword⟩ := (decodeS_eq_ok_iff fun imm => .adv (imm.extractLsb' 0 16)).mp h
    obtain ⟨k, rfl⟩ := exists_imm16_iff.mpr hlt
    exact ⟨rfl, (congrArg (packWord 0x20 0 0 0 0 0) (congrArg imm16 (imm16_low k))).trans hword⟩
  | init =>
    obtain ⟨imm, rfl, hlt, hword⟩ :=
      (decodeS_eq_ok_iff fun imm => .init (imm.extractLsb' 0 16) (imm.extractLsb' 16 3)).mp h
    exact ⟨rfl, (congrArg (packWord 0x30 0 0 0 0 0) (initImm_of_lt hlt)).trans hword⟩
  | drive =>
    obtain ⟨imm, rfl, hlt, hword⟩ := (decodeS_eq_ok_iff .drive).mp h
    exact ⟨rfl, hword⟩
  | tstp | tstt | tsts | wipe =>
    obtain ⟨rfl, hword⟩ := decodeS0_eq_ok_iff.mp h
    exact ⟨rfl, hword⟩

/-- The format decoder of a well-formed command reads its word back. -/
theorem decoderFor_encode {i : Instr} (h : i.wellFormed = true) :
    opField (encode i) = opcodeOf i ∧ decoderFor i (encode i) = .ok i := by
  cases i with
  | gmul d a b g | gshl1add d a b g | gmin d a b g | gor d a b g =>
    exact decodeG3_eq_ok_iff.mpr ⟨d, a, b, g, rfl, h, rfl⟩
  | gaddv d a g | glemask d a g | gfold d a g => exact decodeG2_eq_ok_iff.mpr ⟨d, a, g, rfl, h, rfl⟩
  | gadds d g k => exact decodeGI_eq_ok_iff.mpr ⟨d, g, k, rfl, h, rfl⟩
  | bztest d b => exact decodeB1_eq_ok_iff.mpr ⟨d, b, rfl, h, rfl⟩
  | badvs b k => exact decodeBI_eq_ok_iff.mpr ⟨b, k, rfl, h, rfl⟩
  | badvv b | bnfp b | bnft b | bnfs b => exact decodeB0_eq_ok_iff.mpr ⟨b, rfl, h, rfl⟩
  | adv k =>
    exact (decodeS_eq_ok_iff fun imm => .adv (imm.extractLsb' 0 16)).mpr
      ⟨imm16 k, by simp, exists_imm16_iff.mp ⟨k, rfl⟩, rfl⟩
  | init mode mod6 =>
    have hlt : (0#13 ++ mod6 ++ mode : BitVec 32).toNat < 2 ^ 19 := by
      rw [initImm_toNat]
      omega
    exact (decodeS_eq_ok_iff fun imm => .init (imm.extractLsb' 0 16) (imm.extractLsb' 16 3)).mpr
      ⟨_, congrArg₂ Instr.init (initImm_mode mode mod6) (initImm_mod6 mode mod6), hlt, rfl⟩
  | drive count => exact (decodeS_eq_ok_iff .drive).mpr ⟨count, rfl, count.isLt, rfl⟩
  | tstp | tstt | tsts | wipe => exact decodeS0_eq_ok_iff.mpr ⟨rfl, rfl⟩

/-- The decoder reads a word as a command exactly when the command is well-formed and the word is its encoding. -/
theorem decode_eq_ok_iff {w : Word64} {i : Instr} : decode w = .ok i ↔ i.wellFormed = true ∧ encode i = w := by
  constructor
  · intro h
    obtain ⟨j, -, hop⟩ := exists_opcodeOf_of_decode h
    exact encode_of_decoderFor ⟨hop, (decode_of_opField hop).symm.trans h⟩
  · rintro ⟨hwf, rfl⟩
    obtain ⟨hop, hread⟩ := decoderFor_encode hwf
    exact (decode_of_opField hop).trans hread

/-- Settles O37, by what each format's decoder reads from a packed word (`decoderFor_encode`). -/
theorem decodeEncode : Obligations.DecodeEncode :=
  fun _ hwf => decode_eq_ok_iff.mpr ⟨hwf, rfl⟩

/-- Settles O38, by what each format's decoder accepts (`encode_of_decoderFor`). -/
theorem encodeDecode : Obligations.EncodeDecode :=
  fun _ _ => decode_eq_ok_iff.mp

/-- Settles O40: each word is the encoding of its command, which is well-formed. -/
theorem specWordsDecode : Obligations.SpecWordsDecode := by
  refine ⟨?_, ?_, ?_, ?_, ?_, ?_, ?_, ?_, ?_, ?_⟩ <;> exact decode_eq_ok_iff.mpr (by decide)

end Sys2Proof
end

section
/-! PROOFS. The opcode table (spec/30_encoding.md R65, R66). The row of each format accepts the words that the format's
decoder accepts (`accepts_rowG3_iff` and its siblings), since both accept the packings of the same operands. -/

namespace Sys2Proof

open Claims

/-! ### The numbers of the opcode table, by fields -/

/-- The immediate bits from `n` up: the part of `imm` that a row masks when it uses the low `n` bits. -/
def immAbove (n : Nat) : BitVec 32 := BitVec.allOnes 32 <<< n

theorem and_immAbove_eq_zero_iff {imm : BitVec 32} {n : Nat} : imm &&& immAbove n = 0 ↔ imm.toNat < 2 ^ n := by
  have hlt : imm.toNat / 2 ^ n * 2 ^ n < 2 ^ 32 := (Nat.div_mul_le_self _ _).trans_lt imm.isLt
  rw [immAbove, ← BitVec.shiftLeft_ushiftRight, ← BitVec.toNat_inj, BitVec.toNat_shiftLeft, BitVec.toNat_ushiftRight,
    Nat.shiftLeft_eq, Nat.shiftRight_eq_div_pow, Nat.mod_eq_of_lt hlt]
  simp

/-- A word that matches a row and meets its constraints (R66). -/
def accepts (r : Row) (w : Word64) : Prop := w &&& r.mask = r.pattern ∧ checkHolds r.check w = true

/-- The row of an opcode, whose format masks the given bits of `d`, `a`, `b`, `idx` and `imm`, and all of `z`. -/
def maskedRow (op : BitVec 8) (d a b : BitVec 4) (idx : BitVec 8) (imm : BitVec 32) (c : RowCheck) : Row :=
  ⟨packWord op 0 0 0 0 0 0, packWord (.allOnes 8) d a b (.allOnes 4) idx imm, c⟩

theorem and_packWord (w : Word64) (op : BitVec 8) (d a b z : BitVec 4) (idx : BitVec 8) (imm : BitVec 32) :
    w &&& packWord op d a b z idx imm = packWord (opField w &&& op) (dField w &&& d) (aField w &&& a) (bField w &&& b)
      (zField w &&& z) (idxField w &&& idx) (immField w &&& imm) := by
  obtain ⟨hop, hd, ha, hb, hz, hidx, himm⟩ := packWord_eq_iff.mp (Eq.refl (packWord op d a b z idx imm))
  refine (packWord_eq_iff.mpr ⟨?_, ?_, ?_, ?_, ?_, ?_, ?_⟩).symm
  · exact BitVec.extractLsb'_and.trans (congrArg _ hop)
  · exact BitVec.extractLsb'_and.trans (congrArg _ hd)
  · exact BitVec.extractLsb'_and.trans (congrArg _ ha)
  · exact BitVec.extractLsb'_and.trans (congrArg _ hb)
  · exact BitVec.extractLsb'_and.trans (congrArg _ hz)
  · exact BitVec.extractLsb'_and.trans (congrArg _ hidx)
  · exact BitVec.extractLsb'_and.trans (congrArg _ himm)

section
variable {op : BitVec 8} {w : Word64}

theorem accepts_maskedRow_iff {d a b : BitVec 4} {idx : BitVec 8} {imm : BitVec 32} {c : RowCheck} :
    accepts (maskedRow op d a b idx imm c) w ↔
      (opField w = op ∧ dField w &&& d = 0 ∧ aField w &&& a = 0 ∧ bField w &&& b = 0 ∧ zField w = 0 ∧
        idxField w &&& idx = 0 ∧ immField w &&& imm = 0) ∧ checkHolds c w = true := by
  simp only [accepts, maskedRow, and_packWord, packWord_eq_iff, BitVec.and_allOnes, packWord_op, packWord_d, packWord_a,
    packWord_b, packWord_z, packWord_idx, packWord_imm, eq_comm]

/-! ### The constraints of a row, by banks (R65) -/

theorem bits_eq_extractLsb' (w : Word64) (hi lo : Nat) : bits w hi lo = (w.extractLsb' lo (hi - lo + 1)).toNat := by
  rw [bits, BitVec.extractLsb'_toNat, Nat.shiftRight_eq_div_pow]

theorem bits_d : bits w 55 52 = (dField w).toNat := bits_eq_extractLsb' w 55 52
theorem bits_a : bits w 51 48 = (aField w).toNat := bits_eq_extractLsb' w 51 48
theorem bits_b : bits w 47 44 = (bField w).toNat := bits_eq_extractLsb' w 47 44
theorem bits_idx : bits w 39 32 = (idxField w).toNat := bits_eq_extractLsb' w 39 32

theorem exists_codeOfBank_of_le {c : BitVec 4} (h : c.toNat ≤ 7) : ∃ b, c = codeOfBank b := by
  have hsome : ∀ c : BitVec 4, c.toNat ≤ 7 → (bankOfCode c).isSome = true := by decide
  obtain ⟨b, hb⟩ := Option.isSome_iff_exists.mp (hsome c h)
  exact ⟨b, bankOfCode_eq_some_iff.mp hb⟩

theorem le_of_destinationCode {n : Nat} (h : destinationCode n = true) : n ≤ 7 := by
  simp only [destinationCode, Bool.or_eq_true, beq_iff_eq] at h
  omega

@[simp] theorem codeOfBank_le (b : Bank) : (codeOfBank b).toNat ≤ 7 := by cases b <;> decide

@[simp] theorem destinationCode_codeOfBank (b : Bank) : destinationCode (codeOfBank b).toNat = b.writable := by
  cases b <;> rfl

/-- The scratch banks are those of codes 6 and 7 (R63). -/
@[simp] theorem six_le_codeOfBank_iff (b : Bank) : 6 ≤ (codeOfBank b).toNat ↔ b.scratch = true := by
  cases b <;> decide

theorem checkHolds_g3_iff : checkHolds .g3 w = true ↔
    ∃ d a b, dField w = codeOfBank d ∧ aField w = codeOfBank a ∧ bField w = codeOfBank b ∧
      (d.writable && groupIndexOk [d, a, b] (idxField w)) = true := by
  simp only [checkHolds, bits_d, bits_a, bits_b, bits_idx, Bool.and_eq_true, decide_eq_true_eq]
  constructor
  · rintro ⟨⟨⟨ha, hb⟩, hd⟩, hidx⟩
    obtain ⟨d, hd'⟩ := exists_codeOfBank_of_le (le_of_destinationCode hd)
    obtain ⟨a, ha'⟩ := exists_codeOfBank_of_le ha
    obtain ⟨b, hb'⟩ := exists_codeOfBank_of_le hb
    refine ⟨d, a, b, hd', ha', hb', ?_⟩
    simp_all [groupIndexOk, or_comm, and_assoc]
  · rintro ⟨d, a, b, hd, ha, hb, hwrite, hidx⟩
    simp_all [groupIndexOk, or_comm, and_assoc]

theorem checkHolds_g2_iff : checkHolds .g2 w = true ↔
    ∃ d a, dField w = codeOfBank d ∧ aField w = codeOfBank a ∧
      (d.writable && groupIndexOk [d, a] (idxField w)) = true := by
  simp only [checkHolds, bits_d, bits_a, bits_idx, Bool.and_eq_true, decide_eq_true_eq]
  constructor
  · rintro ⟨⟨ha, hd⟩, hidx⟩
    obtain ⟨d, hd'⟩ := exists_codeOfBank_of_le (le_of_destinationCode hd)
    obtain ⟨a, ha'⟩ := exists_codeOfBank_of_le ha
    refine ⟨d, a, hd', ha', ?_⟩
    simp_all [groupIndexOk, or_comm]
  · rintro ⟨d, a, hd, ha, hwrite, hidx⟩
    simp_all [groupIndexOk, or_comm]

theorem checkHolds_gi_iff : checkHolds .gi w = true ↔
    ∃ d, dField w = codeOfBank d ∧ (d.writable && groupIndexOk [d] (idxField w)) = true := by
  simp only [checkHolds, bits_d, bits_idx, Bool.and_eq_true]
  constructor
  · rintro ⟨hd, hidx⟩
    obtain ⟨d, hd'⟩ := exists_codeOfBank_of_le (le_of_destinationCode hd)
    refine ⟨d, hd', ?_⟩
    simp_all [groupIndexOk, or_comm]
  · rintro ⟨d, hd, hwrite, hidx⟩
    simp_all [groupIndexOk, or_comm]

theorem checkHolds_b1_iff : checkHolds .b1 w = true ↔
    ∃ d, dField w = codeOfBank d ∧ (d.scratch || blockIndexOk (idxField w)) = true := by
  simp only [checkHolds, bits_d, bits_idx, Bool.and_eq_true, decide_eq_true_eq]
  constructor
  · rintro ⟨hd, hidx⟩
    obtain ⟨d, hd'⟩ := exists_codeOfBank_of_le hd
    refine ⟨d, hd', ?_⟩
    simp_all [blockIndexOk, or_comm]
  · rintro ⟨d, hd, hidx⟩
    simp_all [blockIndexOk, or_comm]

theorem checkHolds_block : checkHolds .block w = blockIndexOk (idxField w) := by
  rw [checkHolds, bits_idx, blockIndexOk]

/-! ### The row of each format accepts what its decoder accepts -/

theorem accepts_rowG3_iff {mk : Bank → Bank → Bank → BitVec 8 → Instr} :
    accepts (maskedRow op 0 0 0 0 (.allOnes 32) .g3) w ↔ ∃ i, opField w = op ∧ decodeG3 mk w = .ok i := by
  simp only [accepts_maskedRow_iff, checkHolds_g3_iff, decodeG3_eq_ok_iff, packWord_eq_iff, BitVec.and_allOnes]
  constructor
  · rintro ⟨⟨hop, -, -, -, hz, -, himm⟩, d, a, b, hd, ha, hb, hwf⟩
    exact ⟨_, d, a, b, _, rfl, hwf, hop, hd, ha, hb, hz, rfl, himm⟩
  · rintro ⟨_, d, a, b, g, -, hwf, hop, hd, ha, hb, hz, rfl, himm⟩
    exact ⟨⟨hop, BitVec.and_zero, BitVec.and_zero, BitVec.and_zero, hz, BitVec.and_zero, himm⟩,
      d, a, b, hd, ha, hb, hwf⟩

theorem accepts_rowG2_iff {mk : Bank → Bank → BitVec 8 → Instr} :
    accepts (maskedRow op 0 0 (.allOnes 4) 0 (.allOnes 32) .g2) w ↔
      ∃ i, opField w = op ∧ decodeG2 mk w = .ok i := by
  simp only [accepts_maskedRow_iff, checkHolds_g2_iff, decodeG2_eq_ok_iff, packWord_eq_iff, BitVec.and_allOnes]
  constructor
  · rintro ⟨⟨hop, -, -, hb, hz, -, himm⟩, d, a, hd, ha, hwf⟩
    exact ⟨_, d, a, _, rfl, hwf, hop, hd, ha, hb, hz, rfl, himm⟩
  · rintro ⟨_, d, a, g, -, hwf, hop, hd, ha, hb, hz, rfl, himm⟩
    exact ⟨⟨hop, BitVec.and_zero, BitVec.and_zero, hb, hz, BitVec.and_zero, himm⟩, d, a, hd, ha, hwf⟩

theorem accepts_rowGI_iff {mk : Bank → BitVec 8 → Lane → Instr} :
    accepts (maskedRow op 0 (.allOnes 4) (.allOnes 4) 0 (immAbove 16) .gi) w ↔
      ∃ i, opField w = op ∧ decodeGI mk w = .ok i := by
  simp only [accepts_maskedRow_iff, checkHolds_gi_iff, decodeGI_eq_ok_iff, packWord_eq_iff, BitVec.and_allOnes,
    and_immAbove_eq_zero_iff, ← exists_imm16_iff]
  constructor
  · rintro ⟨⟨hop, -, ha, hb, hz, -, k, himm⟩, d, hd, hwf⟩
    exact ⟨_, d, _, k, rfl, hwf, hop, hd, ha, hb, hz, rfl, himm⟩
  · rintro ⟨_, d, g, k, -, hwf, hop, hd, ha, hb, hz, rfl, himm⟩
    exact ⟨⟨hop, BitVec.and_zero, ha, hb, hz, BitVec.and_zero, k, himm⟩, d, hd, hwf⟩

theorem accepts_rowB1_iff {mk : Bank → BitVec 8 → Instr} :
    accepts (maskedRow op 0 (.allOnes 4) (.allOnes 4) 0 (.allOnes 32) .b1) w ↔
      ∃ i, opField w = op ∧ decodeB1 mk w = .ok i := by
  simp only [accepts_maskedRow_iff, checkHolds_b1_iff, decodeB1_eq_ok_iff, packWord_eq_iff, BitVec.and_allOnes]
  constructor
  · rintro ⟨⟨hop, -, ha, hb, hz, -, himm⟩, d, hd, hwf⟩
    exact ⟨_, d, _, rfl, hwf, hop, hd, ha, hb, hz, rfl, himm⟩
  · rintro ⟨_, d, b, -, hwf, hop, hd, ha, hb, hz, rfl, himm⟩
    exact ⟨⟨hop, BitVec.and_zero, ha, hb, hz, BitVec.and_zero, himm⟩, d, hd, hwf⟩

theorem accepts_rowB0_iff {mk : BitVec 8 → Instr} :
    accepts (maskedRow op (.allOnes 4) (.allOnes 4) (.allOnes 4) 0 (.allOnes 32) .block) w ↔
      ∃ i, opField w = op ∧ decodeB0 mk w = .ok i := by
  simp only [accepts_maskedRow_iff, checkHolds_block, decodeB0_eq_ok_iff, packWord_eq_iff, BitVec.and_allOnes]
  constructor
  · rintro ⟨⟨hop, hd, ha, hb, hz, -, himm⟩, hblock⟩
    exact ⟨_, _, rfl, hblock, hop, hd, ha, hb, hz, rfl, himm⟩
  · rintro ⟨_, b, -, hblock, hop, hd, ha, hb, hz, rfl, himm⟩
    exact ⟨⟨hop, hd, ha, hb, hz, BitVec.and_zero, himm⟩, hblock⟩

theorem accepts_rowBI_iff {mk : BitVec 8 → Lane → Instr} :
    accepts (maskedRow op (.allOnes 4) (.allOnes 4) (.allOnes 4) 0 (immAbove 16) .block) w ↔
      ∃ i, opField w = op ∧ decodeBI mk w = .ok i := by
  simp only [accepts_maskedRow_iff, checkHolds_block, decodeBI_eq_ok_iff, packWord_eq_iff, BitVec.and_allOnes,
    and_immAbove_eq_zero_iff, ← exists_imm16_iff]
  constructor
  · rintro ⟨⟨hop, hd, ha, hb, hz, -, k, himm⟩, hblock⟩
    exact ⟨_, _, k, rfl, hblock, hop, hd, ha, hb, hz, rfl, himm⟩
  · rintro ⟨_, b, k, -, hblock, hop, hd, ha, hb, hz, rfl, himm⟩
    exact ⟨⟨hop, hd, ha, hb, hz, BitVec.and_zero, k, himm⟩, hblock⟩

theorem accepts_rowS_iff {n : Nat} (mk : BitVec 32 → Instr) :
    accepts (maskedRow op (.allOnes 4) (.allOnes 4) (.allOnes 4) (.allOnes 8) (immAbove n) .none) w ↔
      ∃ i, opField w = op ∧ decodeS n (mk (immField w)) w = .ok i := by
  simp only [accepts_maskedRow_iff, decodeS_eq_ok_iff, packWord_eq_iff, BitVec.and_allOnes, and_immAbove_eq_zero_iff]
  constructor
  · rintro ⟨⟨hop, hd, ha, hb, hz, hidx, himm⟩, -⟩
    exact ⟨_, _, rfl, himm, hop, hd, ha, hb, hz, hidx, rfl⟩
  · rintro ⟨_, imm, -, himm, hop, hd, ha, hb, hz, hidx, rfl⟩
    exact ⟨⟨hop, hd, ha, hb, hz, hidx, himm⟩, rfl⟩

end

/-! ### The table by command -/

/-- The row of the opcode table for a command (R66). -/
def rowOf (i : Instr) : Row :=
  match i with
  | .gmul _ _ _ _ | .gshl1add _ _ _ _ | .gmin _ _ _ _ | .gor _ _ _ _ =>
    maskedRow (opcodeOf i) 0 0 0 0 (.allOnes 32) .g3
  | .gaddv _ _ _ | .glemask _ _ _ | .gfold _ _ _ => maskedRow (opcodeOf i) 0 0 (.allOnes 4) 0 (.allOnes 32) .g2
  | .gadds _ _ _ => maskedRow (opcodeOf i) 0 (.allOnes 4) (.allOnes 4) 0 (immAbove 16) .gi
  | .bztest _ _ => maskedRow (opcodeOf i) 0 (.allOnes 4) (.allOnes 4) 0 (.allOnes 32) .b1
  | .badvs _ _ => maskedRow (opcodeOf i) (.allOnes 4) (.allOnes 4) (.allOnes 4) 0 (immAbove 16) .block
  | .badvv _ | .bnfp _ | .bnft _ | .bnfs _ =>
    maskedRow (opcodeOf i) (.allOnes 4) (.allOnes 4) (.allOnes 4) 0 (.allOnes 32) .block
  | .adv _ => maskedRow (opcodeOf i) (.allOnes 4) (.allOnes 4) (.allOnes 4) (.allOnes 8) (immAbove 16) .none
  | .init _ _ => maskedRow (opcodeOf i) (.allOnes 4) (.allOnes 4) (.allOnes 4) (.allOnes 8) (immAbove 19) .none
  | .drive _ => maskedRow (opcodeOf i) (.allOnes 4) (.allOnes 4) (.allOnes 4) (.allOnes 8) (immAbove 32) .none
  | .tstp | .tstt | .tsts | .wipe =>
    maskedRow (opcodeOf i) (.allOnes 4) (.allOnes 4) (.allOnes 4) (.allOnes 8) (immAbove 0) .none

theorem rows_eq_map_rowOf : rows = oneOfEach.map rowOf := by decide

theorem legalByTable_iff {w : Word64} : legalByTable w = true ↔ ∃ j ∈ oneOfEach, accepts (rowOf j) w := by
  simp [legalByTable, rows_eq_map_rowOf, accepts]

theorem accepts_rowOf_iff {j : Instr} {w : Word64} :
    accepts (rowOf j) w ↔ ∃ i, opField w = opcodeOf j ∧ decoderFor j w = .ok i := by
  cases j with
  | gmul | gshl1add | gmin | gor => exact accepts_rowG3_iff
  | gaddv | glemask | gfold => exact accepts_rowG2_iff
  | gadds => exact accepts_rowGI_iff
  | bztest => exact accepts_rowB1_iff
  | badvs => exact accepts_rowBI_iff
  | badvv | bnfp | bnft | bnfs => exact accepts_rowB0_iff
  | adv => exact accepts_rowS_iff fun imm => .adv (imm.extractLsb' 0 16)
  | init => exact accepts_rowS_iff fun imm => .init (imm.extractLsb' 0 16) (imm.extractLsb' 16 3)
  | drive => exact accepts_rowS_iff .drive
  | tstp => exact accepts_rowS_iff fun _ => .tstp
  | tstt => exact accepts_rowS_iff fun _ => .tstt
  | tsts => exact accepts_rowS_iff fun _ => .tsts
  | wipe => exact accepts_rowS_iff fun _ => .wipe

/-- Settles O39: the opcode selects one command on both sides, and its row accepts what its decoder accepts. -/
theorem decoderAcceptsTableWords : Obligations.DecoderAcceptsTableWords := by
  intro w
  rw [legalByTable_iff]
  constructor
  · rintro ⟨i, h⟩
    obtain ⟨j, hj, hop⟩ := exists_opcodeOf_of_decode h
    exact ⟨j, hj, accepts_rowOf_iff.mpr ⟨i, hop, (decode_of_opField hop).symm.trans h⟩⟩
  · rintro ⟨j, -, hrow⟩
    obtain ⟨i, hop, hread⟩ := accepts_rowOf_iff.mp hrow
    exact ⟨i, (decode_of_opField hop).trans hread⟩

end Sys2Proof
end

section
/-! PROOFS. A command at the host port (spec/30_encoding.md R60; 60_exceptions.md R176). -/

namespace Sys2Proof.Machine

/-- A legal word written to `CMD` while `HALT = 0` is executed (R60, R176). -/
theorem hostAction_command {w : Word64} {i : Instr} {s : State} (hrun : statusHalt s.status = false)
    (hd : decode w = .ok i) : hostAction (.write cmdAddress w) s = exec i s := by
  simp [hostAction, hrun, issue, hd]

/-- Settles O42: the step takes the write off the list, and the port executes what the word decodes to. -/
theorem stepRunsDecodedCommand : Obligations.StepRunsDecodedCommand :=
  fun _ _ _ _ hhost hrun hd => (step_cons hhost).trans (hostAction_command hrun hd)

end Sys2Proof.Machine
end

section
/-! PROOFS. The eight group primitives (spec/40_group_primitives.md R80 to R88). Each is a lane function of two group
operands (`group2`), GADDS with both sources its destination, so one lemma says what all of them do to the state
(`group2_effect`), and each statement adds its lane function as a number. -/

namespace Sys2Proof.Machine

open Sys2Proof.Claims

/-- A command that leaves `STATUS` alone until it ends writes `CC` alone there (R170). -/
theorem statusIs_complete {s t : State} (h : t.status = s.status) (c : Code) :
    StatusIs s (complete c t) (statusNf s.status) (statusHalt s.status) c := by
  simp [StatusIs, h]

/-- The effect of a two-source group primitive on banks that have the group, by its lane function (R80). -/
theorem group2_effect {f : Lane → Lane → Lane} {F : Nat → Nat} {d a b : Bank} {g : BitVec 8} {s : State}
    {banks : List Bank} (hwf : (d.writable && groupIndexOk banks g) = true) (hbanks : [d, a, b] ⊆ banks)
    (hm : s.mem.wf)
    (hF : ∀ l, (f (laneAt a (groupBase a g + l) s.mem) (laneAt b (groupBase b g + l) s.mem)).toNat = F l) :
    GroupEffect s (group2 f d a b g s) d g F := by
  obtain ⟨hw, hg⟩ := Bool.and_eq_true_iff.mp hwf
  have hgd := groupIndexOk_mem hg (hbanks (by simp : d ∈ _))
  have hga := groupIndexOk_mem hg (hbanks (by simp : a ∈ _))
  have hgb := groupIndexOk_mem hg (hbanks (by simp : b ∈ _))
  have hlanes : ∀ l < 16, (laneAt d (groupBase d g + l) (group2 f d a b g s).mem).toNat = F l :=
    fun l hl => (congrArg BitVec.toNat (group2_lane hm hw hgd hga hgb hl)).trans (hF l)
  have hkept : LanesKept (lanesOf d (groupBase d g) 16) s (group2 f d a b g s) :=
    fun _ _ hout => group2_outside hm hga hgb hout
  exact ⟨hlanes, hkept, writeGroup_out _ _ _ _, writeGroup_wf hm _ _ _, ⟨rfl, rfl, rfl, rfl, rfl, rfl, rfl⟩,
    ⟨rfl, rfl, rfl⟩, statusIs_complete rfl .ok⟩

/-- GADDS is a two-source primitive that takes its destination for both (R85). -/
theorem execGadds_eq_group2 (d : Bank) (g : BitVec 8) (k : Lane) (s : State) :
    execGadds d g k s = .next (group2 (fun v _ => laneAdd v k) d d d g s) := by
  rw [execGadds, group2, List.zipWith_self]

/-- Settles O1 (R81), with `laneMul` as a number. -/
theorem gmulMultipliesLanes : Obligations.GmulMultipliesLanes :=
  fun _ _ _ _ _ hwf hm => ⟨rfl, _, rfl, group2_effect hwf (by simp) hm fun _ => laneMul_toNat _ _⟩

/-- Settles O2 (R82), with `laneShl1Add` as a number. -/
theorem gshl1addDoublesFirstAddsSecond : Obligations.Gshl1addDoublesFirstAddsSecond :=
  fun _ _ _ _ _ hwf hm => ⟨rfl, _, rfl, group2_effect hwf (by simp) hm fun _ => laneShl1Add_toNat _ _⟩

/-- Settles O3 (R83), with `laneMin` as a number. -/
theorem gminTakesUnsignedMinimum : Obligations.GminTakesUnsignedMinimum :=
  fun _ _ _ _ _ hwf hm => ⟨rfl, _, rfl, group2_effect hwf (by simp) hm fun _ => laneMin_toNat _ _⟩

/-- Settles O4 (R84), with `laneOr` as a number. -/
theorem gorOrsLanes : Obligations.GorOrsLanes :=
  fun _ _ _ _ _ hwf hm => ⟨rfl, _, rfl, group2_effect hwf (by simp) hm fun _ => laneOr_toNat _ _⟩

/-- Settles O5 (R85): `execGadds_eq_group2`, with `laneAdd` as a number. -/
theorem gaddsAddsScalar : Obligations.GaddsAddsScalar :=
  fun d g k s hwf hm =>
    ⟨rfl, _, execGadds_eq_group2 d g k s, group2_effect hwf (by simp) hm fun _ => laneAdd_toNat _ k⟩

/-- Settles O6 (R86): the first source is `D` itself, the lane function `laneAdd`. -/
theorem gaddvAddsVector : Obligations.GaddvAddsVector :=
  fun _ _ _ _ hwf hm => ⟨rfl, _, rfl, group2_effect hwf (by simp) hm fun _ => laneAdd_toNat _ _⟩

/-- Settles O7 (R87): the first source is `D` itself, the lane function `laneLeMask`. -/
theorem glemaskMasksByThreshold : Obligations.GlemaskMasksByThreshold :=
  fun _ _ _ _ hwf hm => ⟨rfl, _, rfl, group2_effect hwf (by simp) hm fun _ => laneLeMask_toNat _ _⟩

/-- Settles O8 (R88): the first source is `D` itself, the lane function `laneFold`. -/
theorem gfoldAddsToHighLanes : Obligations.GfoldAddsToHighLanes :=
  fun _ _ _ _ hwf hm => ⟨rfl, _, rfl, group2_effect hwf (by simp) hm fun _ => laneFold_toNat _ _⟩

end Sys2Proof.Machine
end

section
/-! PROOFS. BZTEST (spec/41_block_primitives.md R101, R102). -/

namespace Sys2Proof.Machine

open Sys2Proof.Claims

/-- `ZeroTest` of a block operand, on any bank and in any memory: a lane that the bank does not have reads as 0. -/
theorem zeroTest_readBlock_iff (d : Bank) (b : BitVec 8) (m : Memory) :
    zeroTest (readBlock d b m) = true ↔ ∀ j < 64, laneAt d (blockBase d b + j) m = 0 := by
  have hlane : ∀ j < 64, (readBlock d b m).getD j 0 = laneAt d (blockBase d b + j) m :=
    fun j hj => slice_getD _ _ _ _ _ hj
  have hlen : (readBlock d b m).length ≤ 64 := by simp [readBlock]
  rw [zeroTest_iff]
  constructor
  · intro h j hj
    rw [← hlane j hj]
    by_cases hin : j < (readBlock d b m).length
    · exact h j hin
    · exact List.getD_eq_default _ _ (Nat.le_of_not_lt hin)
  · intro h j hj
    rw [hlane j (by omega), h j (by omega)]

/-- A command that writes `NF` and ends leaves the rest of `STATUS` but `CC` alone (R26, R170). -/
theorem statusIs_complete_setNf {s t : State} (h : t.status = s.status) (nf : Bool) (c : Code) :
    StatusIs s (complete c (setNf nf t)) nf (statusHalt s.status) c := by
  simp [StatusIs, h]

/-- Settles O9 (R102): `NF` is the zero test of the block's lanes. -/
theorem bztestSetsNfWhenBlockZero : Obligations.BztestSetsNfWhenBlockZero :=
  fun d b s _ => ⟨rfl, _, _, rfl, zeroTest_readBlock_iff d b s.mem, statusIs_complete_setNf rfl _ .ok, rfl,
    ⟨rfl, rfl, rfl, rfl, rfl, rfl, rfl⟩, ⟨rfl, rfl, rfl⟩⟩

end Sys2Proof.Machine
end

section
/-! PROOFS. BADVS and BADVV (spec/41_block_primitives.md R103, R104; 60_exceptions.md R174). Both advance a block by a
list of increments and finish alike, so what they do, with and without a carry, is said once for any increments.
BADVS as a sequence of group commands is then a matter of effects alone: what the commands of the four groups do adds
up to the effect of BADVS, and that effect fixes the state. -/

namespace Sys2Proof.Machine

open Sys2Proof.Claims

/-! ### The increments of a block -/

/-- The increments `ks` of block `b` are, as numbers, `k i` for lane `i` of the vector. -/
structure BlockIncrements (b : Nat) (ks : List Lane) (k : Nat → Nat) : Prop where
  length : ks.length = 64
  lane : ∀ j < 64, (ks.getD j 0).toNat = k (64 * b + j)

/-- BADVS adds the same `k` to every lane (R103). -/
theorem blockIncrements_scalar (b : Nat) (k : Lane) :
    BlockIncrements b (List.replicate 64 (BitVec.ofNat 16 k.toNat)) fun _ => k.toNat where
  length := List.length_replicate
  lane j hj := by rw [replicate_getD _ hj, BitVec.ofNat_toNat, BitVec.setWidth_eq]

/-- BADVV adds to each lane its lane of `KV` (R104). -/
theorem blockIncrements_vector {b : Nat} {m : Memory} (hm : m.wf) (hb : b ≤ 53) :
    BlockIncrements b (slice (64 * b) 64 m.kv) fun i => (laneAt .kv i m).toNat where
  length := by rw [slice_length, hm.2.1]; omega
  lane j hj := congrArg BitVec.toNat (slice_getD _ _ _ _ _ hj)

/-! ### A block advance, by whether a lane carries -/

/-- A state that differs in lanes of one range of `R` keeps all others. -/
theorem lanesKept_withR {base n : Nat} {r : List Lane} {s t : State} (ht : t.mem = { s.mem with r := r })
    (h : ∀ i, i < base ∨ base + n ≤ i → r.getD i 0 = s.mem.r.getD i 0) : LanesKept (lanesOf .r base n) s t := by
  intro c i hout
  rw [ht]
  cases c
  case r =>
    apply h
    by_contra hin
    exact hout ⟨rfl, by omega, by omega⟩
  all_goals rfl

section
variable {b : Nat} {ks : List Lane} {k : Nat → Nat} {s : State}

/-- Without a carry a block advance completes, and the lanes are advanced (R103, R104). -/
theorem blockAdvance_effect (hm : s.mem.wf) (hb : b ≤ 53) (hks : BlockIncrements b ks k)
    (hno : NoCarry (64 * b) (64 * b + 64) k s) :
    BlockAdvanceEffect b k s (finishBlockAdvance b (advanceRange (64 * b) 64 ks s.mem) s) := by
  have hfits : ∀ j < 64, residueAt (64 * b + j) s.mem + (ks.getD j 0).toNat < 2 ^ 16 := fun j hj => by
    rw [hks.lane j hj]
    exact hno _ (by omega) (by omega)
  obtain ⟨m, ha⟩ := advanceRange_exists hm (by omega) hks.length hfits
  obtain ⟨-, hlanes, hothers, hshape, hwf⟩ := advanceRange_some hm (by omega) hks.length ha
  have hadvanced : LanesAdvanced (64 * b) (64 * b + 64) k s (complete .ok { s with mem := m }) := by
    intro i hlo hhi
    obtain ⟨j, rfl⟩ := Nat.exists_eq_add_of_le hlo
    rw [← hks.lane j (by omega)]
    exact hlanes j (by omega)
  rw [ha]
  exact ⟨hadvanced, lanesKept_withR hshape hothers, by rw [finishBlockAdvance, complete_mem, hshape], hwf,
    ⟨rfl, rfl, rfl, rfl, rfl, rfl, rfl⟩, ⟨rfl, rfl, rfl⟩, statusIs_complete rfl .ok⟩

/-- The abort of a block advance leaves everything outside the block but `STATUS` alone (R174). -/
theorem abortBlock_effect (hm : s.mem.wf) (b : Nat) : BlockAbortEffect b s (abortBlock b s) := by
  have hkept : LanesKept (lanesOf .r (64 * b) 64) s (abortBlock b s) :=
    lanesKept_withR rfl fun i hi => overlay_getD_outside _ _ _ _ _ (by simpa [unspecLanes] using hi)
  exact ⟨hkept, rfl, loseLanes_wf hm _ _, ⟨rfl, rfl, rfl, rfl, rfl, rfl, rfl⟩, rfl, rfl, by simp [StatusIs]⟩

/-- With a carry in some lane a block advance aborts (R103, R104, R174). -/
theorem blockAdvance_abort (hm : s.mem.wf) (hb : b ≤ 53) (hks : BlockIncrements b ks k)
    (hc : SomeCarry (64 * b) (64 * b + 64) k s) :
    BlockAbortEffect b s (finishBlockAdvance b (advanceRange (64 * b) 64 ks s.mem) s) := by
  obtain ⟨i, hlo, hhi, hcarry⟩ := hc
  obtain ⟨j, rfl⟩ := Nat.exists_eq_add_of_le hlo
  rw [← hks.lane j (by omega)] at hcarry
  rw [(advanceRange_none_iff hm (by omega) hks.length).mpr ⟨j, by omega, hcarry⟩]
  exact abortBlock_effect hm b

/-- An advance without a carry moves the residue of a lane by its increment (R14, R103). -/
theorem residueAt_mod_of_blockAdvanceEffect {t : State} (h : BlockAdvanceEffect b k s t) (hb : b ≤ 53)
    (hno : NoCarry (64 * b) (64 * b + 64) k s) {i : Nat} (hlo : 64 * b ≤ i) (hhi : i < 64 * b + 64) :
    residueAt i t.mem % primeAt i = (residueAt i s.mem + k i) % primeAt i := by
  rw [h.1 i hlo hhi]
  exact advancedLane_mod (by omega) (hno i hlo hhi)

end

/-- The block index of a legal block command is at most 53 (R65). -/
theorem le_of_blockIndexOk {b : BitVec 8} (h : blockIndexOk b = true) : b.toNat ≤ 53 := of_decide_eq_true h

/-- Settles O10 (R103, R174): the block advance by the same `k` in every lane. -/
theorem badvsAddsAndFoldsBlock : Obligations.BadvsAddsAndFoldsBlock :=
  fun b k _ hwf hm =>
    have hks := blockIncrements_scalar b.toNat k
    ⟨rfl, fun hno => ⟨_, rfl, blockAdvance_effect hm (le_of_blockIndexOk hwf) hks hno⟩,
      fun hc => ⟨_, rfl, blockAdvance_abort hm (le_of_blockIndexOk hwf) hks hc⟩⟩

/-- Settles O11 (R104, R174): the block advance by the lanes of `KV`. -/
theorem badvvAddsVectorAndFoldsBlock : Obligations.BadvvAddsVectorAndFoldsBlock :=
  fun _ _ hwf hm =>
    have hks := blockIncrements_vector hm (le_of_blockIndexOk hwf)
    ⟨rfl, fun hno => ⟨_, rfl, blockAdvance_effect hm (le_of_blockIndexOk hwf) hks hno⟩,
      fun hc => ⟨_, rfl, blockAdvance_abort hm (le_of_blockIndexOk hwf) hks hc⟩⟩

/-- Settles O12: the effect of each advance moves the residues (R14), and `S` may stand for `KV[i]` in a sum. -/
theorem blockAdvancesKeepResidues : Obligations.BlockAdvancesKeepResidues := by
  intro b k s hb hm kv
  refine ⟨fun hno => ?_, fun hno => ?_⟩
  · have heffect := blockAdvance_effect hm hb (blockIncrements_scalar b.toNat k) hno
    exact ⟨_, rfl, fun i hlo hhi => residueAt_mod_of_blockAdvanceEffect heffect hb hno hlo hhi⟩
  · have heffect := blockAdvance_effect hm hb (blockIncrements_vector hm hb) hno
    refine ⟨_, rfl, fun i S hlo hhi hS => ?_⟩
    have hsum : residueAt i s.mem + kv i ≡ residueAt i s.mem + S [MOD primeAt i] := Nat.ModEq.add_left _ hS
    exact (residueAt_mod_of_blockAdvanceEffect heffect hb hno hlo hhi).trans hsum

/-! ### Advances of ranges of lanes -/

/-- The lanes `R[base .. base + n - 1]` are advanced by `k`, the code is `Ok` and nothing else changes; for a block
this is `BlockAdvanceEffect`. -/
def RangeAdvanced (base n k : Nat) (s t : State) : Prop :=
  LanesAdvanced base (base + n) (fun _ => k) s t ∧ LanesKept (lanesOf .r base n) s t ∧
    t.mem.out = s.mem.out ∧ t.mem.wf ∧ CsrsKept s t ∧ ModelKept s t ∧
    StatusIs s t (statusNf s.status) (statusHalt s.status) .ok

theorem blockAdvanceEffect_iff {b k : Nat} {s t : State} :
    BlockAdvanceEffect b (fun _ => k) s t ↔ RangeAdvanced (64 * b) 64 k s t := Iff.rfl

theorem csrsKept_trans {s t u : State} (h : CsrsKept s t) (h' : CsrsKept t u) : CsrsKept s u := by
  obtain ⟨h1, h2, h3, h4, h5, h6, h7⟩ := h
  obtain ⟨h1', h2', h3', h4', h5', h6', h7'⟩ := h'
  exact ⟨h1'.trans h1, h2'.trans h2, h3'.trans h3, h4'.trans h4, h5'.trans h5, h6'.trans h6, h7'.trans h7⟩

theorem modelKept_trans {s t u : State} (h : ModelKept s t) (h' : ModelKept t u) : ModelKept s u := by
  obtain ⟨h1, h2, h3⟩ := h
  obtain ⟨h1', h2', h3'⟩ := h'
  exact ⟨h1'.trans h1, h2'.trans h2, h3'.trans h3⟩

/-- Two commands that leave `NF` and `HALT` alone: the last code stands. -/
theorem statusIs_trans {s t u : State} {c c' : Code} (h : StatusIs s t (statusNf s.status) (statusHalt s.status) c)
    (h' : StatusIs t u (statusNf t.status) (statusHalt t.status) c') :
    StatusIs s u (statusNf s.status) (statusHalt s.status) c' := by
  obtain ⟨hnf, hhalt, -, hlow, hhigh⟩ := h
  obtain ⟨hnf', hhalt', hcc', hlow', hhigh'⟩ := h'
  exact ⟨hnf'.trans hnf, hhalt'.trans hhalt, hcc', hlow'.trans hlow, hhigh'.trans hhigh⟩

/-- The fields of `STATUS` fix it. -/
theorem statusIs_unique {s t u : State} {nf halt : Bool} {c : Code} (h : StatusIs s t nf halt c)
    (h' : StatusIs s u nf halt c) : t.status = u.status := by
  obtain ⟨hnf, hhalt, hcc, hlow, hhigh⟩ := h
  obtain ⟨hnf', hhalt', hcc', hlow', hhigh'⟩ := h'
  exact status_ext (hnf.trans hnf'.symm) (hhalt.trans hhalt'.symm) (hlow.trans hlow'.symm) (hcc.trans hcc'.symm)
    (hhigh.trans hhigh'.symm)

/-- States with the registers of one state are equal when memory and `STATUS` are. -/
theorem eq_of_registersKept {s t u : State} (hc : CsrsKept s t) (hc' : CsrsKept s u) (hk : ModelKept s t)
    (hk' : ModelKept s u) (hmem : t.mem = u.mem) (hstatus : t.status = u.status) : t = u := by
  obtain ⟨h1, h2, h3, h4, h5, h6, h7⟩ := hc
  obtain ⟨h1', h2', h3', h4', h5', h6', h7'⟩ := hc'
  obtain ⟨h8, h9, h10⟩ := hk
  obtain ⟨h8', h9', h10'⟩ := hk'
  cases t
  cases u
  simp_all

/-- A lane of `R` outside the range written reads as before. -/
theorem residueAt_of_lanesKept {base n i : Nat} {s t : State} (h : LanesKept (lanesOf .r base n) s t)
    (hi : i < base ∨ base + n ≤ i) : residueAt i t.mem = residueAt i s.mem :=
  congrArg BitVec.toNat (h .r i fun ⟨_, hlo, hhi⟩ => by omega)

/-- Ranges one behind the other advance as one range. -/
theorem RangeAdvanced.trans {base n n' k : Nat} {s t u : State} (h : RangeAdvanced base n k s t)
    (h' : RangeAdvanced (base + n) n' k t u) : RangeAdvanced base (n + n') k s u := by
  obtain ⟨hlanes, hkept, hout, -, hcsrs, hmodel, hstatus⟩ := h
  obtain ⟨hlanes', hkept', hout', hwf, hcsrs', hmodel', hstatus'⟩ := h'
  refine ⟨fun i hlo hhi => ?_, fun c i houtside => ?_, hout'.trans hout, hwf,
    csrsKept_trans hcsrs hcsrs', modelKept_trans hmodel hmodel', statusIs_trans hstatus hstatus'⟩
  · by_cases hi : i < base + n
    · rw [residueAt_of_lanesKept hkept' (.inl hi), hlanes i hlo hi]
    · rw [hlanes' i (by omega) (by omega), residueAt_of_lanesKept hkept (.inr (by omega))]
  · rw [hkept' c i fun ⟨hc, hlo, hhi⟩ => houtside ⟨hc, by omega, by omega⟩,
      hkept c i fun ⟨hc, hlo, hhi⟩ => houtside ⟨hc, hlo, by omega⟩]

/-- The effect of an advance fixes the state it leaves. -/
theorem RangeAdvanced.unique {base n k : Nat} {s t u : State} (h : RangeAdvanced base n k s t)
    (h' : RangeAdvanced base n k s u) : t = u := by
  obtain ⟨hlanes, hkept, hout, hwf, hcsrs, hmodel, hstatus⟩ := h
  obtain ⟨hlanes', hkept', hout', hwf', hcsrs', hmodel', hstatus'⟩ := h'
  have hreads : ∀ c i, laneAt c i t.mem = laneAt c i u.mem := by
    intro c i
    by_cases hin : lanesOf .r base n c i
    · obtain ⟨rfl, hlo, hhi⟩ := hin
      exact BitVec.eq_of_toNat_eq ((hlanes i hlo hhi).trans (hlanes' i hlo hhi).symm)
    · exact (hkept c i hin).trans (hkept' c i hin).symm
  have houts : t.mem.out = u.mem.out := hout.trans hout'.symm
  have hmem : t.mem = u.mem :=
    Memory.eq_of_reads hwf hwf' (congrArg List.length houts) hreads fun i => by rw [houts]
  exact eq_of_registersKept hcsrs hcsrs' hmodel hmodel' hmem (statusIs_unique hstatus hstatus')

/-! ### The group commands of a block -/

/-- GADDS R then GFOLD R, M2R on each of the `n + 1` groups from `g` on (R103). -/
def groupSequence (k : Lane) : BitVec 8 → Nat → List Instr
  | g, 0 => [.gadds .r g k, .gfold .r .m2r g]
  | g, n + 1 => .gadds .r g k :: .gfold .r .m2r g :: groupSequence k (g + 1) n

theorem runCommands_cons {i : Instr} {is : List Instr} {s t : State} (h : exec i s = .next t) :
    runCommands (i :: is) s = runCommands is t := by
  rw [runCommands, h]

/-- GADDS R then GFOLD R, M2R on one group without a carry advance its lanes (R85, R88, R103). -/
theorem group_advanced {g : BitVec 8} {k : Lane} {s : State} (hm : s.mem.wf) (hg : g.toNat ≤ 215)
    (hno : NoCarry (16 * g.toNat) (16 * g.toNat + 16) (fun _ => k.toNat) s) :
    ∃ t u, exec (.gadds .r g k) s = .next t ∧ exec (.gfold .r .m2r g) t = .next u ∧
      RangeAdvanced (16 * g.toNat) 16 k.toNat s u := by
  have hadds : (Instr.gadds .r g k).wellFormed = true := by simp [Instr.wellFormed, Bank.writable, groupIndexOk, hg]
  have hfolds : (Instr.gfold .r .m2r g).wellFormed = true := by simp [Instr.wellFormed, Bank.writable, groupIndexOk, hg]
  obtain ⟨-, t, ht, hadded, hkept, hout, hwf, hcsrs, hmodel, hstatus⟩ := gaddsAddsScalar .r g k s hadds hm
  obtain ⟨-, u, hu, hfolded, hkept', hout', hwf', hcsrs', hmodel', hstatus'⟩ :=
    gfoldAddsToHighLanes .r .m2r g t hfolds hwf
  refine ⟨t, u, ht, hu, fun i hlo hhi => ?_, fun c i houtside => ?_, hout'.trans hout, hwf',
    csrsKept_trans hcsrs hcsrs', modelKept_trans hmodel hmodel', statusIs_trans hstatus hstatus'⟩
  · obtain ⟨l, rfl⟩ := Nat.exists_eq_add_of_le hlo
    have hsum : operand .r g l t = residueAt (16 * g.toNat + l) s.mem + k.toNat :=
      (hadded l (by omega)).trans (Nat.mod_eq_of_lt (hno _ hlo hhi))
    refine (hfolded l (by omega)).trans ?_
    simp only [hsum]
    rfl
  · exact (hkept' c i houtside).trans (hkept c i houtside)

/-- The group commands of groups in a row advance all their lanes, when none carries. -/
theorem groupSequence_advances {k : Lane} (n : Nat) {g : BitVec 8} {s : State} (hm : s.mem.wf)
    (hg : g.toNat + n ≤ 215) (hno : NoCarry (16 * g.toNat) (16 * g.toNat + 16 * (n + 1)) (fun _ => k.toNat) s) :
    ∃ u, runCommands (groupSequence k g n) s = .next u ∧ RangeAdvanced (16 * g.toNat) (16 * (n + 1)) k.toNat s u := by
  induction n generalizing g s with
  | zero =>
    obtain ⟨t, u, ht, hu, hadv⟩ := group_advanced hm hg hno
    exact ⟨u, by rw [groupSequence, runCommands_cons ht, runCommands_cons hu, runCommands], hadv⟩
  | succ n ih =>
    obtain ⟨t, u, ht, hu, hadv⟩ := group_advanced hm (by omega) fun i hlo hhi => hno i hlo (by omega)
    have ⟨_, hkept, _, hwf, _⟩ := hadv
    have hnext : (g + 1).toNat = g.toNat + 1 := BitVec.toNat_add_of_lt (y := 1) (by simp; omega)
    have hno' : NoCarry (16 * (g + 1).toNat) (16 * (g + 1).toNat + 16 * (n + 1)) (fun _ => k.toNat) u := by
      intro i hlo hhi
      rw [residueAt_of_lanesKept hkept (.inr (by omega))]
      exact hno i (by omega) (by omega)
    obtain ⟨v, hv, hrest⟩ := ih hwf (by omega) hno'
    rw [hnext, Nat.mul_add] at hrest
    refine ⟨v, by rw [groupSequence, runCommands_cons ht, runCommands_cons hu, hv], ?_⟩
    rw [show 16 * (n + 1 + 1) = 16 + 16 * (n + 1) by omega]
    exact hadv.trans hrest

/-- Settles O17: BADVS and the commands of groups `4b .. 4b + 3` have one effect, which fixes the state. -/
theorem blockAdvanceIsGroupSequence : Obligations.BlockAdvanceIsGroupSequence := by
  intro b k s hwf hm hno
  have hb := le_of_blockIndexOk hwf
  obtain ⟨t, ht, hadvanced⟩ := (badvsAddsAndFoldsBlock b k s hwf hm).2.1 hno
  have hbase : 16 * (4 * b).toNat = 64 * b.toNat := by rw [BitVec.toNat_mul_of_lt] <;> simp <;> omega
  obtain ⟨u, hu, hgroups⟩ := groupSequence_advances (k := k) 3 (g := 4 * b) hm (by omega) (by rwa [hbase])
  rw [hbase] at hgroups
  rw [ht, RangeAdvanced.unique (blockAdvanceEffect_iff.mp hadvanced) hgroups, ← hu]
  simp only [groupSequence, BitVec.add_assoc]
  rfl

end Sys2Proof.Machine
end

section
/-! PROOFS. BNFP, BNFT and BNFS (spec/41_block_primitives.md R105 to R108). The second value of a tester is the first
product of another number, so the identity of R13 decides both comparisons. -/

namespace Sys2Proof.Machine

open Sys2Proof.Claims

/-! ### What a lane decides (R108) -/

/-- The second 16-bit number that a kind tests for the lane value `v`; the plain tester has only `v`. -/
def secondNumber (k : Kind) (v : Nat) : Nat :=
  match k with
  | .plain => v
  | .twin => (v + 2) % 2 ^ 16
  | .safe => (2 * v + 1) % 2 ^ 16

theorem secondNumber_lt {k : Kind} {v : Nat} (hv : v < 2 ^ 16) : secondNumber k v < 2 ^ 16 := by
  cases k with
  | plain => exact hv
  | twin | safe => exact Nat.mod_lt _ (by decide)

/-- The second value is the first product of the second number (R106, R107). -/
theorem secondValue_eq_firstProduct (k : Kind) (i v : Nat) :
    secondValue k i v = firstProduct i (secondNumber k v) := by
  cases k with
  | plain => rfl
  | twin =>
    simp only [secondValue, firstProduct, secondNumber, Nat.mod_mul_mod, Nat.add_mod_mod]
    congr 1
    ring
  | safe =>
    simp only [secondValue, firstProduct, secondNumber, Nat.mod_mul_mod]
    rw [Nat.add_mod, Nat.mul_mod_mod, ← Nat.add_mod]
    congr 1
    ring

theorem noDivisor_iff (k : Kind) (p v : Nat) : noDivisor k p v ↔ ¬ p ∣ v ∧ ¬ p ∣ secondNumber k v := by
  cases k with
  | plain => exact (and_self_iff).symm
  | twin | safe => rfl

section
variable {i v : Nat} (hi : i < 3456) (hv : v < 2 ^ 16)
include hi hv

/-- The fast rejection of R13, for the product that every tester forms. -/
theorem firstProduct_le_limitAt_iff : firstProduct i v ≤ limitAt i ↔ primeAt i ∣ v :=
  ((fastRejectionIdentity i hi).2 v hv).symm

theorem secondValue_le_limitAt_iff (k : Kind) : secondValue k i v ≤ limitAt i ↔ primeAt i ∣ secondNumber k v := by
  rw [secondValue_eq_firstProduct]
  exact firstProduct_le_limitAt_iff hi (secondNumber_lt hv)

/-- A lane passes exactly when the prime divides no number that the kind forms from it. -/
theorem passes_iff_noDivisor (k : Kind) : passes k i v ↔ noDivisor k (primeAt i) v := by
  rw [noDivisor_iff, ← firstProduct_le_limitAt_iff hi hv, ← secondValue_le_limitAt_iff hi hv, Nat.not_le, Nat.not_le]
  exact Nat.lt_min

end

/-- Settles O16: the lane clauses by the identity of R13; in the example `2 * 32771 + 1` wraps to 7. -/
theorem testerLanesDecideDivisibility : Obligations.TesterLanesDecideDivisibility := by
  have hseven : primeAt 1 = 7 := primesTableListsThePrimes.2.2.1
  refine ⟨fun i hi v hv => ⟨secondValue_le_limitAt_iff hi hv .twin, secondValue_le_limitAt_iff hi hv .safe,
    fun k => min_le_iff, passes_iff_noDivisor hi hv, fun k q he hq => passes_iff_factorFree hi he hq⟩,
    hseven, by decide, ?_⟩
  rw [passes_iff_noDivisor (by decide) (by decide), hseven]
  exact fun ⟨_, hsecond⟩ => hsecond (by decide)

/-! ### The end of a tester -/

section
variable {k : Kind} {lo hi : Nat} {nf : Bool} {s : State}

/-- A tester that ends with `NF` saying that every lane of its range passes (R105 to R107, R109). -/
theorem finishTest_effect (hm : s.mem.wf) (hrange : hi ≤ 3456)
    (hnf : nf = true ↔ ∀ i, lo ≤ i → i < hi → passes k i (residueAt i s.mem)) :
    TestEffect k lo hi s (finishTest nf s) := by
  have hdivisor : nf = true ↔ ∀ i, lo ≤ i → i < hi → noDivisor k (primeAt i) (residueAt i s.mem) :=
    hnf.trans <| forall_congr' fun i => forall_congr' fun _ => forall_congr' fun hlt =>
      passes_iff_noDivisor (by omega) (BitVec.isLt _) k
  have hkept : LanesKept scratchLanes s (finishTest nf s) := fun c i hout =>
    clearScratch_other (fun hc => hout (.inl hc)) (fun hc => hout (.inr hc)) s.mem i
  exact ⟨⟨nf, statusIs_complete_setNf rfl nf .ok, hnf, hdivisor⟩, clearScratch_zero s.mem, hkept, rfl,
    clearScratch_wf hm, ⟨rfl, rfl, rfl, rfl, rfl, rfl, rfl⟩, ⟨rfl, rfl, rfl⟩⟩

/-- What `NF` says of a candidate after a tester (R105, R108). -/
theorem testMeaning_of_testEffect {t : State} (h : TestEffect k lo hi s t) (hrange : hi ≤ 3456) :
    TestMeaning k lo hi s t := by
  obtain ⟨⟨nf, ⟨rfl, -⟩, hpasses, -⟩, -⟩ := h
  intro q hq he
  exact hpasses.trans <| forall_congr' fun i => forall_congr' fun hlo => forall_congr' fun hlt =>
    passes_iff_factorFree (by omega) (he i hlo hlt) (hq i hlo hlt)

end

/-- The effect of a block tester of any kind. -/
theorem blockTest_effect (k : Kind) {b : BitVec 8} {s : State} (hb : b.toNat ≤ 53) (hm : s.mem.wf) :
    TestEffect k (64 * b.toNat) (64 * b.toNat + 64) s (finishTest (noFactor k b.toNat s.mem) s) :=
  finishTest_effect hm (by omega) (noFactor_iff hm (by omega))

/-- Settles O13 (R105): the mask lane by the fast rejection, the effect and its meaning from the lanes. -/
theorem bnfpTestsBlockPlain : Obligations.BnfpTestsBlockPlain := by
  intro b s hwf hm
  have hb := le_of_blockIndexOk hwf
  have heffect := blockTest_effect .plain hb hm
  have hmask : ∀ i v, i < 3456 → v < 2 ^ 16 → (¬ passes .plain i v ↔ primeAt i ∣ v) := fun i v hi hv =>
    (not_congr (passes_iff_noDivisor hi hv .plain)).trans not_not
  exact ⟨rfl, hmask, _, rfl, heffect, testMeaning_of_testEffect heffect (by omega)⟩

/-- Settles O14 (R106): the block tester's effect, for the twin kind. -/
theorem bnftTestsBlockTwin : Obligations.BnftTestsBlockTwin :=
  fun _ _ hwf hm => ⟨rfl, _, rfl, blockTest_effect .twin (le_of_blockIndexOk hwf) hm⟩

/-- Settles O15 (R107): the block tester's effect, for the safe kind. -/
theorem bnfsTestsBlockSafe : Obligations.BnfsTestsBlockSafe :=
  fun _ _ hwf hm => ⟨rfl, _, rfl, blockTest_effect .safe (le_of_blockIndexOk hwf) hm⟩

end Sys2Proof.Machine
end

section
/-! PROOFS. ADV (spec/42_state_ops.md R120 to R122; 60_exceptions.md R174), and the tier's advance as the loop of block
advances (R121, R103). An advance of blocks in a row is a relation of memories that composes and that fixes the
memory it leaves. -/

namespace Sys2Proof.Machine

open Sys2Proof.Claims

/-- No tier has more lanes than `R` (R22). -/
theorem tierLanes_le (m : BitVec 16) : tierLanes m ≤ 3456 := (tierBlocks_mul m).2.2

/-! ### Refusals (R120, R170) -/

/-- A code written to `STATUS.CC` is all that `complete` does (R170). -/
theorem onlyCc_complete (c : Code) (s : State) : OnlyCc s (complete c s) c :=
  ⟨statusIs_complete rfl c, rfl, ⟨rfl, rfl, rfl, rfl, rfl, rfl, rfl⟩, ⟨rfl, rfl, rfl⟩⟩

/-- Every kind but InternalInvariant only sets the code (R170 to R175). -/
theorem onlyCc_raise {c : Code} (hc : c ≠ .internalInvariant) (s : State) : OnlyCc s (raise c s) c := by
  rw [raise_eq_complete hc]
  exact onlyCc_complete c s

/-! ### Advances of blocks in a row (R103) -/

/-- No lane of the blocks `b .. b + n - 1` carries when `k` is added, and `m'` is `m` with these lanes advanced. -/
structure BlocksAdvanced (b n k : Nat) (m m' : Memory) : Prop where
  fits : ∀ i, 64 * b ≤ i → i < 64 * (b + n) → residueAt i m + k < 2 ^ 16
  lanes : ∀ i, 64 * b ≤ i → i < 64 * (b + n) → residueAt i m' = advancedLane i (residueAt i m) k
  others : ∀ i, i < 64 * b ∨ 64 * (b + n) ≤ i → m'.r.getD i 0 = m.r.getD i 0
  shape : m' = { m with r := m'.r }
  wf : m'.wf

/-- Blocks behind those advanced keep their lanes. -/
theorem BlocksAdvanced.residueAt_behind {b n k i : Nat} {m m' : Memory} (h : BlocksAdvanced b n k m m')
    (hi : 64 * (b + n) ≤ i) : residueAt i m' = residueAt i m :=
  congrArg BitVec.toNat (h.others i (.inr hi))

/-- Blocks one behind the other advance as blocks in a row. -/
theorem BlocksAdvanced.trans {b n n' k : Nat} {m m' m'' : Memory} (h : BlocksAdvanced b n k m m')
    (h' : BlocksAdvanced (b + n) n' k m' m'') : BlocksAdvanced b (n + n') k m m'' where
  fits i hlo hhi := by
    by_cases hi : i < 64 * (b + n)
    · exact h.fits i hlo hi
    · rw [← h.residueAt_behind (by omega)]
      exact h'.fits i (by omega) (by omega)
  lanes i hlo hhi := by
    by_cases hi : i < 64 * (b + n)
    · rw [← h.lanes i hlo hi]
      exact congrArg BitVec.toNat (h'.others i (.inl hi))
    · rw [h'.lanes i (by omega) (by omega), h.residueAt_behind (by omega)]
  others i hi := (h'.others i (by omega)).trans (h.others i (by omega))
  shape := by rw [h'.shape, h.shape]
  wf := h'.wf

/-- An advance fixes the memory it leaves. -/
theorem BlocksAdvanced.unique {b n k : Nat} {m m' m'' : Memory} (h : BlocksAdvanced b n k m m')
    (h' : BlocksAdvanced b n k m m'') : m' = m'' := by
  have hr : m'.r = m''.r := by
    refine eq_of_getD 0 (h.wf.1.trans h'.wf.1.symm) fun i _ => ?_
    by_cases hi : i < 64 * b ∨ 64 * (b + n) ≤ i
    · exact (h.others i hi).trans (h'.others i hi).symm
    · exact BitVec.eq_of_toNat_eq ((h.lanes i (by omega) (by omega)).trans (h'.lanes i (by omega) (by omega)).symm)
  rw [h.shape, h'.shape, hr]

section
variable {b n k : Nat} {m : Memory} (hm : m.wf) (hk : k < 2 ^ 16)
include hm hk

/-- What `AdvBlockScalar` over blocks in a row answers, as a relation. -/
theorem advBlocksScalar_eq_some_iff {m' : Memory} (hr : b + n ≤ 54) :
    advBlocksScalar b n k m = some m' ↔ BlocksAdvanced b n k m m' := by
  have sound : ∀ {u}, advBlocksScalar b n k m = some u → BlocksAdvanced b n k m u := fun h =>
    have ⟨fits, lanes, others, shape, wf⟩ := advBlocksScalar_some hm hr hk h
    ⟨fits, lanes, others, shape, wf⟩
  refine ⟨sound, fun h => ?_⟩
  cases ha : advBlocksScalar b n k m with
  | none =>
    obtain ⟨i, hlo, hhi, hcarry⟩ := (advBlocksScalar_none_iff hm hr hk).mp ha
    exact absurd (h.fits i hlo hhi) (by omega)
  | some u => rw [(sound ha).unique h]

/-- Blocks in a row may be advanced in two goes, a carry in either being the abort of both (R121). -/
theorem advBlocksScalar_add {n' : Nat} (hr : b + (n + n') ≤ 54) :
    advBlocksScalar b (n + n') k m = (advBlocksScalar b n k m).bind (advBlocksScalar (b + n) n' k) := by
  cases h : advBlocksScalar b n k m with
  | none =>
    obtain ⟨i, hlo, hhi, hcarry⟩ := (advBlocksScalar_none_iff hm (by omega) hk).mp h
    exact (advBlocksScalar_none_iff hm hr hk).mpr ⟨i, hlo, by omega, hcarry⟩
  | some m' =>
    have hfirst := (advBlocksScalar_eq_some_iff hm hk (by omega)).mp h
    rw [Option.bind_some]
    cases h' : advBlocksScalar (b + n) n' k m' with
    | none =>
      obtain ⟨i, hlo, hhi, hcarry⟩ := (advBlocksScalar_none_iff hfirst.wf (by omega) hk).mp h'
      rw [hfirst.residueAt_behind hlo] at hcarry
      exact (advBlocksScalar_none_iff hm hr hk).mpr ⟨i, by omega, by omega, hcarry⟩
    | some m'' =>
      have hsecond := (advBlocksScalar_eq_some_iff hfirst.wf hk (by omega)).mp h'
      exact (advBlocksScalar_eq_some_iff hm hk hr).mpr (hfirst.trans hsecond)

/-- No block advanced is nothing changed. -/
theorem advBlocksScalar_zero (hb : b ≤ 54) : advBlocksScalar b 0 k m = some m :=
  (advBlocksScalar_eq_some_iff hm hk hb).mpr
    ⟨fun _ _ _ => by omega, fun _ _ _ => by omega, fun _ _ => rfl, rfl, hm⟩

end

/-- Settles O25, by induction on the number of blocks: the last block of the row is the last round of the loop. -/
theorem tierAdvanceIsBlockLoop : Obligations.TierAdvanceIsBlockLoop := by
  intro nb k m hm hnb hk
  induction nb with
  | zero => exact advBlocksScalar_zero hm hk (by omega)
  | succ n ih =>
    rw [advBlocksScalar_add hm hk (by omega), ih (by omega), List.range_succ, List.foldlM_append, Nat.zero_add]
    simp only [List.foldlM_cons, List.foldlM_nil, bind_pure]
    rfl

/-! ### ADV (R122) -/

theorem exec_adv_of_invalid {k : Lane} {s : State} (hv : modeValid s.mode = false) :
    exec (.adv k) s = .next (raise .unsupportedMode s) := by
  simp only [exec, execAdv, hv, Bool.false_eq_true, if_false]

/-- ADV in a valid mode, when some lane carries (R122, R174). -/
theorem exec_adv_of_carry {k : Lane} {s : State} (hv : modeValid s.mode = true) (h : advance k.toNat s = none) :
    exec (.adv k) s = .next (abortAdvance s) := by
  simp only [exec, execAdv, hv, if_true, h]

/-- The abort of ADV leaves the lanes that the tier does not have alone (R174). -/
theorem abortAdvance_lanesKept (s : State) : LanesKept (lanesOf .r 0 (tierLanes s.mode)) s (abortAdvance s) :=
  lanesKept_withR rfl fun i hi => overlay_getD_outside _ _ _ _ _ (by simpa [unspecLanes] using hi)

theorem abortAdvance_statusIs (s : State) :
    StatusIs s (abortAdvance s) (statusNf s.status) true .internalInvariant := by
  simp [StatusIs]

/-- Without a carry in its lanes the tier's advance answers (R121). -/
theorem advance_of_noCarry {k : Nat} {s : State} (hm : s.mem.wf) (hk : k < 2 ^ 16)
    (hno : NoCarry 0 (tierLanes s.mode) (fun _ => k) s) : ∃ t, advance k s = some t := by
  cases h : advance k s with
  | some t => exact ⟨t, rfl⟩
  | none =>
    obtain ⟨i, hi, hcarry⟩ := (advance_none_iff hm hk).mp h
    exact absurd (hno i (Nat.zero_le i) hi) (Nat.not_lt.mpr hcarry)

/-- Settles O18: the tier's advance answers or does not, by whether a lane carries. -/
theorem advAdvancesTier : Obligations.AdvAdvancesTier := by
  refine fun k s hm => ⟨rfl, fun hv => ?_, fun hv hno => ?_, fun hv hc => ?_⟩
  · exact ⟨_, exec_adv_of_invalid hv, onlyCc_raise (by decide) s⟩
  · obtain ⟨t, ht⟩ := advance_of_noCarry hm k.isLt hno
    obtain ⟨r, rfl, hwf, -, hlanes, hothers⟩ := advance_some hm k.isLt ht
    exact ⟨_, exec_adv_of_advance hv ht, fun i _ hi => hlanes i hi, by simp, by simp, ofNat_mod6 _,
      lanesKept_withR rfl fun i hi => hothers i (by omega), rfl, hwf, rfl, rfl, rfl, rfl, ⟨rfl, rfl, rfl⟩,
      statusIs_complete rfl .ok⟩
  · obtain ⟨i, -, hi, hcarry⟩ := hc
    have hnone := (advance_none_iff hm k.isLt).mpr ⟨i, hi, hcarry⟩
    exact ⟨_, exec_adv_of_carry hv hnone, abortAdvance_lanesKept s, rfl, abortAdvance_wf hm, rfl, rfl, rfl, rfl, rfl,
      rfl, abortAdvance_statusIs s⟩

end Sys2Proof.Machine
end

section
/-! PROOFS. TSTP, TSTT and TSTS (spec/42_state_ops.md R120, R123 to R126): one lemma for the refusal, the effect and the
meaning of the tier's test, whatever the kind. -/

namespace Sys2Proof.Machine

open Sys2Proof.Claims

section
variable (k : Kind) {s : State}

/-- Without a valid mode a tier test only sets code 2 (R120). -/
theorem tierTest_refuses (hv : modeValid s.mode = false) : OnlyCc s (tierTest k s) .unsupportedMode := by
  rw [tierTest, if_neg (Bool.eq_false_iff.mp hv)]
  exact onlyCc_raise (by decide) s

/-- In a valid mode a tier test is a tester over the lanes of the tier (R123, R124). -/
theorem tierTest_testEffect (hm : s.mem.wf) (hv : modeValid s.mode = true) :
    TestEffect k 0 (tierLanes s.mode) s (tierTest k s) := by
  obtain ⟨hblocks, h54, -⟩ := tierBlocks_mul s.mode
  have hpos : 1 ≤ tierBlocks s.mode := by
    rcases tierBlocks_of_valid hv with h | h | h <;> omega
  have hnf : testTier k (tierBlocks s.mode) s.mem = true ↔
      ∀ i, 0 ≤ i → i < tierLanes s.mode → passes k i (residueAt i s.mem) := by
    simp only [testTier_iff hm hpos h54, hblocks, Nat.zero_le, true_implies]
  rw [tierTest, if_pos hv]
  exact finishTest_effect hm (tierLanes_le s.mode) hnf

/-- What `NF` says of the candidate after a tier test (R124 to R126). -/
theorem tierTest_testMeaning (hm : s.mem.wf) (hv : modeValid s.mode = true) :
    TestMeaning k 0 (tierLanes s.mode) s (tierTest k s) :=
  testMeaning_of_testEffect (tierTest_testEffect k hm hv) (tierLanes_le s.mode)

end

/-- Settles O20 (R124): the tier's test, for the plain kind. -/
theorem tstpTestsTierPlain : Obligations.TstpTestsTierPlain :=
  fun _ hm => ⟨rfl, fun hv => ⟨_, rfl, tierTest_refuses .plain hv⟩,
    fun hv => ⟨_, rfl, tierTest_testEffect .plain hm hv, tierTest_testMeaning .plain hm hv⟩⟩

/-- Settles O21 (R125): the tier's test, for the twin kind. -/
theorem tsttTestsTierTwin : Obligations.TsttTestsTierTwin :=
  fun _ hm => ⟨rfl, fun hv => ⟨_, rfl, tierTest_refuses .twin hv⟩,
    fun hv => ⟨_, rfl, tierTest_testEffect .twin hm hv, tierTest_testMeaning .twin hm hv⟩⟩

/-- Settles O22 (R126): the tier's test, for the safe kind. -/
theorem tstsTestsTierSafe : Obligations.TstsTestsTierSafe :=
  fun _ hm => ⟨rfl, fun hv => ⟨_, rfl, tierTest_refuses .safe hv⟩,
    fun hv => ⟨_, rfl, tierTest_testEffect .safe hm hv, tierTest_testMeaning .safe hm hv⟩⟩

end Sys2Proof.Machine
end

section
/-! PROOFS. INIT and WIPE (spec/42_state_ops.md R127, R128; 70_reset_and_hazards.md R192). -/

namespace Sys2Proof.Machine

open Sys2Proof.Claims

/-! ### INIT (R127) -/

/-- What makes INIT answer InvalidInput in a valid mode (R127). -/
def InitInvalid (mode : BitVec 16) (mod6 : BitVec 3) (s : State) : Prop :=
  s.lsb.toNat % 2 = 0 ∨ ¬ (mod6.toNat = 1 ∨ mod6.toNat = 3 ∨ mod6.toNat = 5) ∨
    ∃ i < tierLanes mode, primeAt i ≤ residueAt i s.mem

section
variable {mode : BitVec 16} {mod6 : BitVec 3} {s : State}

/-- The checks that INIT runs find exactly that. -/
theorem initChecks_iff (hm : s.mem.wf) :
    (s.lsb.getLsbD 0 = false || mod6Odd mod6 = false || someLaneUnreduced (tierLanes mode) s.mem) = true ↔
      InitInvalid mode mod6 s := by
  have hodd : mod6Odd mod6 = false ↔ ¬ (mod6.toNat = 1 ∨ mod6.toNat = 3 ∨ mod6.toNat = 5) := by
    rw [← mod6Odd_iff, Bool.not_eq_true]
  simp only [Bool.or_eq_true, decide_eq_true_eq, lsbBit_false_iff, hodd,
    someLaneUnreduced_iff hm (tierLanes_le mode), or_assoc, InitInvalid]

theorem exec_init_of_invalidMode (hv : modeValid mode = false) :
    exec (.init mode mod6) s = .next (raise .unsupportedMode { s with mode := 0 }) := by
  rw [exec, execInit, if_pos hv]

theorem exec_init_of_invalid (hm : s.mem.wf) (hv : modeValid mode = true) (h : InitInvalid mode mod6 s) :
    exec (.init mode mod6) s = .next (raise .invalidInput { s with mode := 0 }) := by
  rw [exec, execInit, if_neg (by simp [hv]), if_pos ((initChecks_iff hm).mpr h)]

theorem exec_init_of_valid (hm : s.mem.wf) (hv : modeValid mode = true) (h : ¬ InitInvalid mode mod6 s) :
    exec (.init mode mod6) s = .next (complete .ok { s with mode := mode, mod6 := mod6, offset := 0 }) := by
  rw [exec, execInit, if_neg (by simp [hv]), if_neg fun hc => h ((initChecks_iff hm).mp hc)]

end

/-- Settles O26: the three outcomes of INIT, each of which only sets a code besides the registers that it names. -/
theorem initChecksAndBuildsState : Obligations.InitChecksAndBuildsState :=
  fun _ _ _ hm => ⟨rfl, fun hv => ⟨_, exec_init_of_invalidMode hv, onlyCc_raise (by decide) _⟩,
    fun hv hbad => ⟨_, exec_init_of_invalid hm hv hbad, onlyCc_raise (by decide) _⟩,
    fun hv hgood => ⟨_, exec_init_of_valid hm hv hgood, onlyCc_complete .ok _⟩⟩

/-- The residues and the low bits of an odd number pass the checks of INIT (R127, R192). -/
theorem not_initInvalid_of_loaded {mode : BitVec 16} {s : State} {q : Nat} (hodd : q % 2 = 1)
    (hlsb : s.lsb = BitVec.ofNat 64 q) (hlanes : ∀ i < tierLanes mode, residueAt i s.mem = q % primeAt i) :
    ¬ InitInvalid mode (BitVec.ofNat 3 (q % 6)) s := by
  rintro (heven | hmod6 | ⟨i, hi, hunreduced⟩)
  · rw [hlsb, BitVec.toNat_ofNat] at heven
    omega
  · rw [ofNat_mod6] at hmod6
    omega
  · have hpos := (primeAt_prime (hi.trans_le (tierLanes_le mode))).pos
    rw [hlanes i hi] at hunreduced
    exact absurd (Nat.mod_lt q hpos) (Nat.not_lt.mpr hunreduced)

/-- Settles O27: the loaded state passes INIT's checks, and INIT adds the mode and `Q mod 6` to it. -/
theorem initAgreesWithLoadedCandidate : Obligations.InitAgreesWithLoadedCandidate := by
  intro mode s q hm hv hodd hlsb hlanes
  have hres : Residues q (tierLanes mode) s.mem := fun i hi => by rw [hlanes i hi, Nat.mod_mod]
  have hrange : InRange (tierLanes mode) s.mem := fun i hi => by
    have hbounds := primeAt_bounds (hi.trans_le (tierLanes_le mode))
    rw [hlanes i hi]
    exact (Nat.mod_lt q (by omega)).trans (by omega)
  exact ⟨_, exec_init_of_valid hm hv (not_initInvalid_of_loaded hodd hlsb hlanes), by simp, rfl,
    ⟨hres, hlsb, ofNat_mod6 q⟩, hrange⟩

/-! ### WIPE (R128) -/

/-- Settles O28: the wiped memory reads as 0 in every writable space, and the registers are written one by one. -/
theorem wipeZeroesState : Obligations.WipeZeroesState := by
  intro s hm
  obtain ⟨-, -, -, -, hcap⟩ := hm
  have hwf : (wipedMemory s.mem.out.length).wf := wipedMemory_wf hcap
  have hlane := fun b i => wipedMemory_lane b i s.mem.out.length s.mem
  have hzero : ∀ b i, b.writable = true → laneAt b i (wipedMemory s.mem.out.length) = 0 :=
    fun b i hb => (hlane b i).trans (if_pos hb)
  have htables : ∀ b i, b.writable = false → laneAt b i (wipedMemory s.mem.out.length) = laneAt b i s.mem :=
    fun b i hb => (hlane b i).trans (if_neg (by simp [hb]))
  exact ⟨rfl, _, rfl, hwf, hzero, htables, wipedMemory_out_length _, wipedMemory_out _, rfl, rfl, rfl, rfl, rfl, rfl,
    rfl, statusIs_complete_setNf rfl false .ok, ⟨rfl, rfl, rfl⟩⟩

end Sys2Proof.Machine
end

section
/-! PROOFS. DRIVE as a whole (spec/43_drivers.md R141): the ends at which the driver does not start, and what a driver
that filled its buffer leaves behind, whatever words it recorded. -/

namespace Sys2Proof.Machine

open Sys2Proof.Claims

/-! ### Words written to the front of the output buffer -/

section
variable {α : Type} {words old : List α}

/-- Words that fit replace the front of the buffer. -/
theorem overlay_zero_eq_append (h : words.length ≤ old.length) :
    overlay 0 words old = words ++ old.drop words.length := by
  induction words generalizing old with
  | nil => simp [overlay_nil]
  | cons w words ih =>
    cases old with
    | nil => simp at h
    | cons o old => simp [overlay, ih (Nat.le_of_succ_le_succ h)]

/-- The front of the buffer is then those words. -/
theorem take_overlay_zero (h : words.length ≤ old.length) : (overlay 0 words old).take words.length = words := by
  rw [overlay_zero_eq_append h, List.take_left]

/-- Words are written in two goes, the second behind the first. -/
theorem overlay_append (base : Nat) (words words' old : List α) :
    overlay base (words ++ words') old = overlay (base + words.length) words' (overlay base words old) := by
  induction words generalizing base old with
  | nil => simp [overlay_nil]
  | cons w words ih =>
    rw [List.cons_append, overlay_cons_set, ih, overlay_cons_set, List.length_cons, Nat.add_assoc, Nat.add_comm 1]

end

/-! ### The ends of DRIVE (R141) -/

/-- How DRIVE answers once its driver has ended (R141, R174). -/
def driverAnswer (count : BitVec 32) (s : State) : SearchEnd → Answer
  | .full x => .next (driveDone x)
  | .overflow => .next (abortDrive count.toNat s)
  | .unfinished => .fault .driveUnfinished

section
variable {count : BitVec 32} {s : State}

theorem exec_drive_of_invalidMode (hv : modeValid s.mode = false) :
    exec (.drive count) s = .next (driveStops .unsupportedMode s) := if_pos hv

section
variable (hv : ¬ modeValid s.mode = false)
include hv

theorem exec_drive_of_overCapacity (hcap : s.mem.out.length < count.toNat) :
    exec (.drive count) s = .next (driveStops .invalidInput s) := (if_neg hv).trans (if_pos hcap)

theorem exec_drive_of_zero (hcap : ¬ s.mem.out.length < count.toNat) (hzero : count = 0) :
    exec (.drive count) s = .next (driveStops .bufferFull s) :=
  (if_neg hv).trans ((if_neg hcap).trans (if_pos hzero))

theorem exec_drive_of_checks (hcap : ¬ s.mem.out.length < count.toNat) (hzero : ¬ count = 0) :
    exec (.drive count) s = driverAnswer count s (runDriver (modeKind s.mode) count.toNat s) := by
  refine (if_neg hv).trans ((if_neg hcap).trans ((if_neg hzero).trans ?_))
  cases runDriver (modeKind s.mode) count.toNat s <;> rfl

end

/-- A DRIVE that may start is past the three checks. -/
theorem exec_drive_of_start (h : DriveMayStart count s) :
    exec (.drive count) s = driverAnswer count s (runDriver (modeKind s.mode) count.toNat s) := by
  obtain ⟨-, -, hv, hpos, hcap⟩ := h
  exact exec_drive_of_checks (by simp [hv]) (Nat.not_lt.mpr hcap) fun hzero =>
    absurd (hzero ▸ hpos) (by decide)

theorem exec_drive_of_full {x : Search} (h : DriveMayStart count s)
    (hx : runDriver (modeKind s.mode) count.toNat s = .full x) : exec (.drive count) s = .next (driveDone x) :=
  (exec_drive_of_start h).trans (congrArg (driverAnswer count s) hx)

end

/-- Settles O29: DRIVE checks the mode, the capacity and the count in this order, and each end only writes a code. -/
theorem driveStopsBeforeDriver : Obligations.DriveStopsBeforeDriver := by
  intro count s stops
  have hends : ∀ {c : Code}, c ≠ .internalInvariant → exec (.drive count) s = .next (driveStops c s) → stops c :=
    fun hc h => ⟨_, h, onlyCc_raise hc _⟩
  split
  · next hv => exact hends (by decide) (exec_drive_of_invalidMode hv)
  · next hv =>
    split
    · next hcap => exact hends (by decide) (exec_drive_of_overCapacity hv hcap)
    · next hcap => exact fun hzero => hends (by decide) (exec_drive_of_zero hv hcap hzero)

/-! ### What a driver that filled its buffer leaves (R141) -/

@[simp] theorem driveDone_mem (x : Search) : (driveDone x).mem = clearScratch x.st.mem := rfl
@[simp] theorem driveDone_result (x : Search) : (driveDone x).result = x.last := rfl
@[simp] theorem driveDone_outcnt (x : Search) : (driveDone x).outcnt = BitVec.ofNat 32 x.j := rfl
@[simp] theorem driveDone_mod6 (x : Search) : (driveDone x).mod6 = x.st.mod6 := rfl
@[simp] theorem driveDone_lsb (x : Search) : (driveDone x).lsb = x.st.lsb := rfl
@[simp] theorem driveDone_offset (x : Search) : (driveDone x).offset = x.st.offset := rfl

/-- A driver's hidden state before its first pass (R143, R145). -/
def searchFrom (s : State) : Search := { st := s, j := 0, last := 0 }

/-- A search from `s` that has recorded exactly these words. -/
structure Filled (words : List Word64) (s : State) (x : Search) : Prop where
  wf : x.st.mem.wf
  frame : SearchFrame (searchFrom s) x
  j : x.j = words.length
  out : x.st.mem.out = overlay 0 words s.mem.out
  last : x.last = words.getLast?.getD 0

namespace Filled

variable {words : List Word64} {s : State} {x : Search} (h : Filled words s x)
include h

theorem lanesKept : LanesKept (fun b i => (b = .r ∧ i < tierLanes s.mode) ∨ scratchLanes b i) s (driveDone x) := by
  intro b i hout
  obtain ⟨hlane, hscratch⟩ := not_or.mp hout
  refine (clearScratch_other (hscratch <| .inl ·) (hscratch <| .inr ·) x.st.mem i).trans ?_
  cases b with
  | r => exact h.frame.lanes i (Nat.not_lt.mp fun hi => hlane ⟨rfl, hi⟩)
  | kv => exact congrArg (·.getD i 0) h.frame.kv
  | tmp => exact absurd (.inl rfl) hscratch
  | tmp2 => exact absurd (.inr rfl) hscratch
  | primes | inv | limit | m2r => rfl

theorem driveFrame : DriveFrame words.length s (driveDone x) := by
  have hout : ∀ j, words.length ≤ j → x.st.mem.out.getD j 0 = s.mem.out.getD j 0 := fun j hj => by
    rw [h.out, overlay_getD_outside _ _ _ _ _ (.inr (by omega))]
  exact ⟨h.lanesKept, clearScratch_zero _, h.frame.capacity, hout, clearScratch_wf h.wf, h.frame.mode,
    h.frame.mod6Incr, ⟨h.frame.host, h.frame.hostRead, h.frame.draws⟩, statusIs_complete h.frame.status .bufferFull⟩

theorem take_out (hcap : words.length ≤ s.mem.out.length) : (driveDone x).mem.out.take words.length = words := by
  rw [driveDone_mem, clearScratch_out, h.out, take_overlay_zero hcap]

theorem driveResults (hpos : 1 ≤ words.length) (hcap : words.length ≤ s.mem.out.length)
    (h32 : words.length < 2 ^ 32) : DriveResults words.length (driveDone x) := by
  refine ⟨?_, by rw [driveDone_outcnt, h.j, BitVec.toNat_ofNat, Nat.mod_eq_of_lt h32]⟩
  rw [driveDone_result, driveDone_mem, clearScratch_out, h.last, h.out, overlay_zero_eq_append hcap,
    List.getD_eq_getElem?_getD, List.getElem?_append_left (by omega), List.getLast?_eq_getElem?]

end Filled

/-! ### A driver from a state in range -/

section
variable {count : BitVec 32} {s : State} {q : Nat}

/-- A DRIVE that may start, from a state in range that stands for `q`, searches the `d` candidates from `q` on and
records the survivors among them. -/
theorem runDriver_filled (h : DriveMayStart count s) (hr : InRange (tierLanes s.mode) s.mem)
    (hq : Residues q (tierLanes s.mode) s.mem) (h6 : s.mod6.toNat = q % 6) :
    ∃ x d, runDriver (modeKind s.mode) count.toNat s = .full x ∧ Stands (modeKind s.mode) (q + d) x.st ∧
      x.st.lsb = s.lsb + BitVec.ofNat 64 d ∧ x.st.offset = s.offset + BitVec.ofNat 64 d ∧
      (recordedWords (modeKind s.mode) (tierLanes s.mode) q s.lsb d).length = count.toNat ∧
      Filled (recordedWords (modeKind s.mode) (tierLanes s.mode) q s.lsb d) s x := by
  obtain ⟨hm, -, hv, -, -⟩ := h
  obtain ⟨x, d, hx, hstands, hframe, hj, hlsb, hoffset, hlength, hout, hlast⟩ :=
    runDriver_inRange (k := modeKind s.mode) (n := count.toNat) hm hv hr hq h6
  exact ⟨x, d, hx, hstands, hlsb, hoffset, hlength, hstands.running.wf, hframe, hj.trans hlength.symm, hout, hlast⟩

/-- The lanes of any state in range stand for some candidate (R152). -/
theorem exists_runDriver_filled (h : DriveMayStart count s) (hr : InRange (tierLanes s.mode) s.mem) :
    ∃ x q words, runDriver (modeKind s.mode) count.toNat s = .full x ∧ Stands (modeKind s.mode) q x.st ∧
      words.length = count.toNat ∧ Filled words s x := by
  obtain ⟨-, h6, -⟩ := id h
  obtain ⟨q, hq, hmod⟩ := exists_candidate s.mem (tierLanes_le s.mode) s.mod6.toNat h6
  obtain ⟨x, d, hx, hstands, -, -, hlength, hfilled⟩ := runDriver_filled h hr hq hmod.symm
  exact ⟨x, q + d, _, hx, hstands, hlength, hfilled⟩

/-- Settles O33: the driver records as many words as asked for, and stands for a candidate in range afterwards. -/
theorem driveFillsBufferFromRange : Obligations.DriveFillsBufferFromRange := by
  intro count s h hr
  obtain ⟨x, q, words, hx, hstands, hlength, hfilled⟩ := exists_runDriver_filled h hr
  refine ⟨rfl, _, exec_drive_of_full h hx, ?_⟩
  obtain ⟨-, -, -, hpos, hcap⟩ := h
  have h32 := count.isLt
  rw [← hlength] at hpos hcap h32 ⊢
  exact ⟨hfilled.driveResults hpos hcap h32, hfilled.driveFrame, hstands.range⟩

/-- A DRIVE of any kind, from a state in range that agrees with `q`, lists the survivors (R147, R148, R151). -/
theorem drive_listsSurvivors (h : DriveMayStart count s) (hr : InRange (tierLanes s.mode) s.mem) (hq : Agrees q s) :
    ∃ t n, exec (.drive count) s = .next t ∧ Agrees (q + n) t ∧ t.offset = s.offset + BitVec.ofNat 64 n ∧
      t.mem.out.take count.toNat = survivorWords (modeKind s.mode) (tierLanes s.mode) q n := by
  obtain ⟨x, d, hx, hstands, hlsb, hoffset, hlength, hfilled⟩ := runDriver_filled h hr hq.residues hq.mod6
  rw [hq.lsb, recordedWords_eq_survivorWords] at hlength hfilled
  have hagrees : Agrees (q + d) (driveDone x) :=
    ⟨hstands.residues, by rw [driveDone_lsb, hlsb, hq.lsb, BitVec.ofNat_add], hstands.mod6⟩
  refine ⟨_, d, exec_drive_of_full h hx, hagrees, hoffset, ?_⟩
  obtain ⟨-, -, -, -, hcap⟩ := h
  rw [← hlength] at hcap ⊢
  exact hfilled.take_out hcap

end

/-- Settles O34: the list of survivors of the plain kind. -/
theorem plainDriveListsSurvivors : Obligations.PlainDriveListsSurvivors :=
  fun _ _ _ h hk hr hq => hk ▸ drive_listsSurvivors h hr hq

/-- Settles O35: the list of survivors of the twin and the safe kind. -/
theorem pairDriveListsSurvivors : Obligations.PairDriveListsSurvivors :=
  fun _ _ _ h _ hr hq => drive_listsSurvivors h hr hq

end Sys2Proof.Machine
end

section
/-! PROOFS. One pass of a driver at a candidate that passes (spec/43_drivers.md R142 to R146, R150), and DRIVE resumed
(R147): in range, a driver that stands at a candidate it visits needs no entry step. -/

namespace Sys2Proof.Machine

open Sys2Proof.Claims

/-- A driver in range that stands at a candidate it visits goes straight into its loop (R142, R144). -/
theorem runDriver_of_standing {k : Kind} {n : Nat} {s : State} (hs : Running k s)
    (hr : InRange (tierLanes s.mode) s.mem) : runDriver k n s = findMany (driverPass k) n (searchFrom s) := by
  unfold runDriver
  rw [entryStep_of_standing hs.standing, advance_zero hs.wf hr (standing_lt hs.standing)]
  rfl

/-! ### One entry (R150) -/

theorem searchBound_pos : 0 < Config.searchBound :=
  Nat.zero_lt_of_lt (searchBound_large (Nat.zero_le 3456))

/-- A loop for one survivor ends with the pass that records it. -/
theorem findMany_one {pass : Search → Option Search} {x y : Search} (h : pass x = some y) (hj : x.j < y.j) :
    findMany pass 1 x = .full y := by
  obtain ⟨n, hn⟩ := Nat.exists_eq_succ_of_ne_zero searchBound_pos.ne'
  simp only [findMany, hn, findNext, h, if_pos hj]

/-- `DRIVE #1` from a state in range whose first pass records the candidate and advances by `k`. -/
theorem driveOne_records {s : State} {k : Nat} (h : DriveMayStart 1 s) (hr : InRange (tierLanes s.mode) s.mem)
    (hst : standing (modeKind s.mode) s.mod6.toNat) (hk : k ≤ 16411)
    (hpass : driverPass (modeKind s.mode) (searchFrom s) = advanceSearch k (record (searchFrom s))) :
    ∃ t, exec (.drive 1) s = .next t ∧ t.mem.out.getD 0 0 = s.lsb ∧ DriveResults 1 t ∧ DriveFrame 1 s t ∧
      LanesAdvanced 0 (tierLanes s.mode) (fun _ => k) s t ∧ t.lsb.toNat = (s.lsb.toNat + k) % 2 ^ 64 ∧
      t.offset.toNat = (s.offset.toNat + k) % 2 ^ 64 ∧ t.mod6.toNat = (s.mod6.toNat + k) % 6 := by
  obtain ⟨hm, -, hv, -, hcap⟩ := id h
  have hrun : Running (modeKind s.mode) s := ⟨hm, hv, hst⟩
  have hrecorded : (record (searchFrom s)).st.mem.wf := withOut_wf hm (List.length_set ..)
  obtain ⟨t, ht⟩ := advance_exists (s := (record (searchFrom s)).st) hrecorded hr hk
  obtain ⟨r, hshape, hwf, -, hlanes, -⟩ := advance_some hrecorded (by omega) ht
  have hy : advanceSearch k (record (searchFrom s)) = some { record (searchFrom s) with st := t } := by
    simp only [advanceSearch, ht]
  obtain ⟨-, hframe, -⟩ := driverPass_some (x := searchFrom s) hrun (hpass.trans hy)
  have hout : t.mem.out = overlay 0 [s.lsb] s.mem.out := by
    rw [overlay_cons_set, overlay_nil, hshape]
    rfl
  have hfilled : Filled [s.lsb] s { record (searchFrom s) with st := t } :=
    ⟨hwf, hframe.frame, rfl, hout, rfl⟩
  have hresults := hfilled.driveResults (Nat.le_refl 1) hcap (show 1 < 2 ^ 32 by decide)
  have hx : runDriver (modeKind s.mode) 1 s = .full { record (searchFrom s) with st := t } :=
    (runDriver_of_standing hrun hr).trans (findMany_one (hpass.trans hy) Nat.zero_lt_one)
  refine ⟨_, exec_drive_of_full h hx, hresults.1.symm, hresults, hfilled.driveFrame, fun i _ hi => hlanes i hi, ?_⟩
  rw [driveDone_lsb, driveDone_offset, driveDone_mod6, hshape]
  exact ⟨by simp [searchFrom], by simp [searchFrom, record], ofNat_mod6 _⟩

/-- Every lane of the tier passing is the tier's test (R123). -/
theorem testTier_of_passes {k : Kind} {s : State} (hm : s.mem.wf) (hv : modeValid s.mode = true)
    (h : ∀ i < tierLanes s.mode, passes k i (residueAt i s.mem)) : testTier k (tierBlocks s.mode) s.mem = true := by
  have hb := tierBlocks_mul s.mode
  have hpos := tierBlocks_of_valid hv
  exact (testTier_iff hm (by omega) hb.2.1).mpr fun i hi => h i (by omega)

/-- At a candidate that passes a pass records and goes on by 4 or 2 (R143, R150). -/
theorem plainPass_of_passes {x : Search} (hp : testTier .plain (tierBlocks x.st.mode) x.st.mem = true) :
    plainPass x = advanceSearch (if x.st.mod6.toNat = 1 then 4 else 2) (record x) := by
  have hmod6 : x.st.mod6 = 1 ↔ x.st.mod6.toNat = 1 := BitVec.toNat_inj.symm
  simp only [plainPass, hp, recordIf_true, hmod6]

/-- Settles O31: the pass of R143 at a candidate that passes. -/
theorem plainDriveRecordsPassingCandidate : Obligations.PlainDriveRecordsPassingCandidate := by
  intro s h hk hr h6 hp k
  obtain ⟨hm, -, hv, -⟩ := id h
  have hstep : k ≤ 16411 := by
    simp only [k]
    split <;> omega
  refine driveOne_records h hr (by rw [hk]; exact h6) hstep ?_
  rw [hk]
  exact plainPass_of_passes (x := searchFrom s) (testTier_of_passes hm hv hp)

/-- In range, an advance of blocks by 0 changes nothing. -/
theorem advBlocksScalar_by_zero {b n : Nat} {m : Memory} (hm : m.wf) (hb : b + n ≤ 54)
    (hr : ∀ i < 64 * (b + n), residueAt i m < 2 ^ 15) : advBlocksScalar b n 0 m = some m :=
  (advBlocksScalar_eq_some_iff hm (by omega) hb).mpr
    ⟨fun i _ hi => by have := hr i hi; omega, fun i _ hi => (advancedLane_zero (hr i hi)).symm, fun _ _ => rfl, rfl, hm⟩

theorem advanceCounters_zero {s : State} (h6 : s.mod6.toNat < 6) : advanceCounters 0 s = s := by
  have hmod6 : BitVec.ofNat 3 ((s.mod6.toNat + 0) % 6) = s.mod6 :=
    BitVec.eq_of_toNat_eq ((ofNat_mod6 _).trans (Nat.mod_eq_of_lt h6))
  simp only [advanceCounters, hmod6, BitVec.add_zero]

/-- Where block 0 passes there is nothing to skip (R145). -/
theorem fastSkip_of_noFactor {k : Kind} {m : Memory} (h : noFactor k 0 m = true) (n skip : Nat) :
    fastSkip k n m skip = some (m, skip) := by
  cases n with
  | zero => rfl
  | succ n => simp only [fastSkip, h, Bool.true_or, if_true]

/-- At a candidate that passes a pass records and goes on by 6 (R145, R150). -/
theorem pairPass_of_passes {k : Kind} {x : Search} (hm : x.st.mem.wf) (hv : modeValid x.st.mode = true)
    (h6 : x.st.mod6.toNat < 6) (hr : InRange (tierLanes x.st.mode) x.st.mem)
    (hp : testTier k (tierBlocks x.st.mode) x.st.mem = true) : pairPass k x = advanceSearch 6 (record x) := by
  have hb := tierBlocks_mul x.st.mode
  have hpos := tierBlocks_of_valid hv
  obtain ⟨hfirst, hothers⟩ := Bool.and_eq_true_iff.mp hp
  have hafter : afterSkip 0 x.st.mem x.st = some x.st := by
    simp only [afterSkip, advBlocksScalar_by_zero (b := 1) (n := tierBlocks x.st.mode - 1) hm (by omega)
      fun i hi => hr i (by omega)]
    rw [advanceCounters_zero h6]
  simp only [pairPass, fastSkip_of_noFactor hfirst, hafter, hothers, recordIf_true]
  rfl

/-- Settles O32: the pass of R145 at a candidate that passes. -/
theorem pairDriveRecordsPassingCandidate : Obligations.PairDriveRecordsPassingCandidate := by
  intro s h hk hr h6 hp
  obtain ⟨hm, -, hv, -⟩ := id h
  have hpass : pairPass (modeKind s.mode) (searchFrom s) = advanceSearch 6 (record (searchFrom s)) :=
    pairPass_of_passes (x := searchFrom s) hm hv (by rw [searchFrom, h6]; decide) hr (testTier_of_passes hm hv hp)
  have hdrive : standing (modeKind s.mode) s.mod6.toNat ∧
      driverPass (modeKind s.mode) (searchFrom s) = pairPass (modeKind s.mode) (searchFrom s) := by
    cases hkind : modeKind s.mode with
    | plain => exact absurd hkind hk
    | twin | safe => exact ⟨h6, rfl⟩
  have h5 : (s.mod6.toNat + 6) % 6 = 5 := by rw [h6]
  exact h5 ▸ driveOne_records h hr hdrive.1 (by omega) (hdrive.2.trans hpass)

/-! ### DRIVE resumed (R147) -/

section
variable {k : Kind} {n n' q : Nat} {s : State} {x : Search}

/-- A driver for `n + n'` survivors is the driver for `n`, whose loop then runs for `n'` more. -/
theorem runDriver_add (h : runDriver k n s = .full x) :
    runDriver k (n + n') s = findMany (driverPass k) n' x := by
  unfold runDriver at h ⊢
  cases ha : advance (entryStep k s.mod6) s with
  | none => rw [ha] at h; cases h
  | some t => rw [ha] at h; exact findMany_add h

/-- A loop that ends well keeps its invariant and its frame, whatever the lanes hold. -/
theorem findMany_full {y : Search} (hx : Running k x.st) (h : findMany (driverPass k) n x = .full y) :
    Running k y.st ∧ SearchFrame x y := by
  rcases findMany_ends (n := n) hx with ho | ⟨z, hz, hrun, hframe, -⟩
  · rw [h] at ho
    cases ho
  · rw [h] at hz
    cases hz
    exact ⟨hrun, hframe⟩

/-- The end of DRIVE touches nothing that a driver's course depends on. -/
theorem alike_searchFrom_driveDone (x : Search) : Alike x (searchFrom (driveDone x)) := ⟨rfl, rfl, rfl, rfl, rfl⟩

/-- Where a driver stopped at a candidate in range, the next DRIVE takes the course the long one would have taken, and
its words stand behind the first's. -/
theorem runDriver_resumes {words : List Word64} (hx : runDriver k n s = .full x) (hstands : Stands k q x.st)
    (hfilled : Filled words s x) :
    ∃ y z words', runDriver k n' (driveDone x) = .full y ∧ runDriver k (n + n') s = .full z ∧ Alike z y ∧
      words'.length = n' ∧ Filled words' (driveDone x) y ∧ Filled (words ++ words') s z := by
  have hrun : Running k (driveDone x) :=
    ⟨clearScratch_wf hstands.running.wf, hstands.running.valid, hstands.running.standing⟩
  obtain ⟨z, -, hz, -⟩ := findMany_inRange (n := n') hstands
  obtain ⟨y, words', hy, halike, hlength, hzj, hyj, hzout, hyout, hzlast, hylast⟩ :=
    findMany_alike (alike_searchFrom_driveDone x) hz
  obtain ⟨hzrun, hzframe⟩ := findMany_full hstands.running hz
  obtain ⟨hyrun, hyframe⟩ := findMany_full (x := searchFrom (driveDone x)) hrun hy
  have hfilledY : Filled words' (driveDone x) y :=
    ⟨hyrun.wf, hyframe, by rw [hyj, hlength]; exact Nat.zero_add n', hyout, hylast⟩
  have hfilledZ : Filled (words ++ words') s z := by
    refine ⟨hzrun.wf, hfilled.frame.trans hzframe, by rw [hzj, hfilled.j, List.length_append, hlength], ?_, ?_⟩
    · rw [hzout, hfilled.j, hfilled.out, overlay_append, Nat.zero_add]
    · rw [hzlast, hfilled.last, List.getLast?_append]
      cases words'.getLast? <;> rfl
  exact ⟨y, z, words', (runDriver_of_standing hrun hstands.range).trans hy, (runDriver_add hx).trans hz, halike,
    hlength, hfilledY, hfilledZ⟩

end

/-- Settles O36: the second run stands at a candidate in range, so that it goes on as the long run does. -/
theorem driveResumes : Obligations.DriveResumes := by
  intro n1 n2 s h hpos2 hcap h32 hr
  obtain ⟨hm, h6, hv, hpos1, -⟩ := id h
  have hsum : (n1 + n2).toNat = n1.toNat + n2.toNat := by rw [BitVec.toNat_add, Nat.mod_eq_of_lt h32]
  obtain ⟨x, q, words, hx, hstands, hlength, hfilled⟩ := exists_runDriver_filled h hr
  have hmode : x.st.mode = s.mode := hfilled.frame.mode
  have houtlen : x.st.mem.out.length = s.mem.out.length := hfilled.frame.capacity
  obtain ⟨y, z, words', hy, hz, halike, hlength', hfilledY, hfilledZ⟩ :=
    runDriver_resumes (n' := n2.toNat) hx hstands hfilled
  have h2 : DriveMayStart n2 (driveDone x) :=
    ⟨clearScratch_wf hfilled.wf, standing_lt hstands.running.standing, hstands.running.valid, hpos2, by
      rw [driveDone_mem, clearScratch_out]; omega⟩
  have h12 : DriveMayStart (n1 + n2) s := ⟨hm, h6, hv, by omega, by omega⟩
  have hy' : runDriver (modeKind (driveDone x).mode) n2.toNat (driveDone x) = .full y := by
    rw [driveDone_mode, hmode]
    exact hy
  refine ⟨_, _, _, exec_drive_of_full h hx, exec_drive_of_full h2 hy',
    exec_drive_of_full h12 (by rw [hsum]; exact hz), halike.r, halike.lsb, halike.offset, halike.mod6, halike.mode,
    ?_, ?_⟩
  · have hne : words' ≠ [] := List.ne_nil_of_length_pos (by omega)
    rw [driveDone_result, driveDone_result, hfilledY.last, hfilledZ.last, List.getLast?_append_of_ne_nil _ hne]
  · obtain ⟨-, -, -, -, hcap2⟩ := h2
    rw [← hlength, ← hlength'] at hcap ⊢
    rw [← hlength'] at hcap2
    rw [hfilled.take_out (by omega), hfilledY.take_out hcap2, ← List.length_append,
      hfilledZ.take_out (by rw [List.length_append]; exact hcap)]

end Sys2Proof.Machine
end

section
/-! PROOFS. The tier tests in two tiers (spec/43_drivers.md R151). -/

namespace Sys2Proof.Machine

/-- `NF` after a tier test in a valid mode: every lane of the tier passes (R123, R124). -/
theorem tierTest_nf_iff (k : Kind) {s : State} (hm : s.mem.wf) (hv : modeValid s.mode = true) :
    statusNf (tierTest k s).status = true ↔ ∀ i < tierLanes s.mode, passes k i (residueAt i s.mem) := by
  obtain ⟨⟨nf, ⟨hnf, -⟩, hpasses, -⟩, -⟩ := tierTest_testEffect k hm hv
  rw [hnf, hpasses]
  exact forall_congr' fun i => forall_prop_of_true (Nat.zero_le i)

/-- Settles O24: the lanes of the smaller tier are among those of the larger. -/
theorem largerTierTestsAreStricter : Obligations.LargerTierTestsAreStricter := by
  intro s t t' i large small hi hm hlarge hsmall hle ht ht'
  have hkind : ∀ k, statusNf (tierTest k { s with mode := large }).status = true →
      statusNf (tierTest k { s with mode := small }).status = true := fun k hnf =>
    (tierTest_nf_iff k (s := { s with mode := small }) hm hsmall).mpr fun l hl =>
      (tierTest_nf_iff k (s := { s with mode := large }) hm hlarge).mp hnf l (Nat.lt_of_lt_of_le hl hle)
  rcases hi with rfl | rfl | rfl
  all_goals
    obtain rfl := next_inj ht
    obtain rfl := next_inj ht'
    exact hkind _

end Sys2Proof.Machine
end

section
/-! PROOFS. No step stops (spec/43_drivers.md R152; 60_exceptions.md R170, R177): DRIVE is the only command that could,
and its search ends whatever the lanes hold. -/

namespace Sys2Proof.Machine

/-- DRIVE from any lanes stops at a check, fills its buffer or aborts (R141, R152, R174). -/
theorem exec_drive_goesOn (count : BitVec 32) {s : State} (hm : s.mem.wf) (h6 : s.mod6.toNat < 6) :
    ∃ t, exec (.drive count) s = .next t := by
  by_cases hv : modeValid s.mode = false
  · exact ⟨_, exec_drive_of_invalidMode hv⟩
  by_cases hcap : s.mem.out.length < count.toNat
  · exact ⟨_, exec_drive_of_overCapacity hv hcap⟩
  by_cases hzero : count = 0
  · exact ⟨_, exec_drive_of_zero hv hcap hzero⟩
  rw [exec_drive_of_checks hv hcap hzero]
  rcases runDriver_ends (k := modeKind s.mode) (n := count.toNat) hm (eq_true_of_ne_false hv) h6 with h | ⟨x, h, -⟩
  · exact ⟨_, congrArg (driverAnswer count s) h⟩
  · exact ⟨_, congrArg (driverAnswer count s) h⟩

theorem exec_goesOn (i : Instr) {s : State} (hm : s.mem.wf) (h6 : s.mod6.toNat < 6) : ∃ t, exec i s = .next t := by
  cases i with
  | drive count => exact exec_drive_goesOn count hm h6
  | _ => exact ⟨_, rfl⟩

theorem hostAction_goesOn (a : HostAccess) {s : State} (hm : s.mem.wf) (h6 : s.mod6.toNat < 6) :
    ∃ t, hostAction a s = .next t := by
  rcases hostAction_cases (a := a) (s := s) rfl with ⟨addr, -, ht⟩ | ⟨addr, v, -, -, ht⟩ | ⟨v, i, -, -, -, ht⟩ |
    ⟨v, e, -, -, -, ht⟩ | ⟨addr, v, -, -, -, ht⟩ | ⟨-, ht⟩
  case inr.inr.inl => exact ht ▸ exec_goesOn i hm h6
  all_goals exact ⟨_, ht⟩

/-- Settles O50: an idle step holds the state, and every host action answers, a command because it goes on. -/
theorem noStepStops : Obligations.NoStepStops := by
  intro s h
  cases hh : s.host with
  | nil => exact ⟨s, step_nil hh⟩
  | cons a rest =>
    obtain ⟨t, ht⟩ := hostAction_goesOn a (s := { s with host := rest }) h.mem h.mod6
    exact ⟨t, (step_cons hh).trans ht⟩

end Sys2Proof.Machine
end

section
/-! PROOFS. The exceptions (spec/60_exceptions.md R174, R175): the abort of DRIVE, and an illegal word at `CMD`; and the
step of an engine with nothing to do (70_reset_and_hazards.md R190). -/

namespace Sys2Proof.Machine

open Sys2Proof.Claims

/-! ### The abort of DRIVE (R174) -/

section
variable (count : Nat) (s : State)

/-- The abort of DRIVE leaves every lane outside the tier and the scratch alone. -/
theorem abortDrive_lanesKept :
    LanesKept (fun b i => (b = .r ∧ i < tierLanes s.mode) ∨ scratchLanes b i) s (abortDrive count s) := by
  intro b i hout
  obtain ⟨hlane, hscratch⟩ := not_or.mp hout
  cases b with
  | r =>
    have hi : tierLanes s.mode ≤ i := Nat.not_lt.mp fun hi => hlane ⟨rfl, hi⟩
    exact overlay_getD_outside _ _ _ _ _ (.inr (by simpa [unspecLanes] using hi))
  | tmp => exact absurd (.inl rfl) hscratch
  | tmp2 => exact absurd (.inr rfl) hscratch
  | kv | primes | inv | limit | m2r => rfl

/-- The abort of DRIVE loses the words of its count: it overlays them, so the capacity and all further words stay. -/
theorem abortDrive_out :
    (abortDrive count s).mem.out.length = s.mem.out.length ∧
      ∀ j, count ≤ j → (abortDrive count s).mem.out.getD j 0 = s.mem.out.getD j 0 :=
  ⟨overlay_length _ _ _, fun _ hj => overlay_getD_outside _ _ _ _ _ (.inr (by simpa [unspecWords] using hj))⟩

theorem abortDrive_mod6_lt : (abortDrive count s).mod6.toNat < 6 :=
  loseCounters_mod6_lt (loseLanes 0 (tierLanes s.mode) s)

theorem abortDrive_statusIs : StatusIs s (abortDrive count s) (statusNf s.status) true .internalInvariant := by
  simp [StatusIs]

end

/-- A driver whose entry step carries overflows before its first pass (R142, R144). -/
theorem runDriver_of_entryCarry {k : Kind} {n : Nat} {s : State} (hm : s.mem.wf) (h6 : s.mod6.toNat < 6)
    (hc : SomeCarry 0 (tierLanes s.mode) (fun _ => entryStep k s.mod6) s) : runDriver k n s = .overflow := by
  obtain ⟨i, -, hi, hcarry⟩ := hc
  have hstep : entryStep k s.mod6 < 2 ^ 16 := (entryStep_lt h6).trans (by decide)
  have hnone : advance (entryStep k s.mod6) s = none := (advance_none_iff hm hstep).mpr ⟨i, hi, hcarry⟩
  rw [runDriver, hnone]

/-- Settles O30: the driver overflows at its entry step, and DRIVE answers with its abort. -/
theorem driveEntryCarryHalts : Obligations.DriveEntryCarryHalts := by
  intro count s hstart hc
  have ⟨hm, h6, _⟩ := hstart
  have hoverflow := runDriver_of_entryCarry (n := count.toNat) hm h6 hc
  have hexec : exec (.drive count) s = .next (abortDrive count.toNat s) :=
    (exec_drive_of_start hstart).trans (congrArg (driverAnswer count s) hoverflow)
  obtain ⟨hlength, hwords⟩ := abortDrive_out count.toNat s
  exact ⟨_, hexec, abortDrive_lanesKept _ s, hlength, hwords, abortDrive_wf hm _, abortDrive_mod6_lt _ s,
    rfl, rfl, rfl, rfl, abortDrive_statusIs _ s⟩

/-! ### An illegal word at `CMD` (R65, R175) -/

/-- The decoder rejects a word that no row of the opcode table accepts. -/
theorem decode_error_of_illegal {w : Word64} (h : legalByTable w = false) : ∃ e, decode w = .error e := by
  cases hd : decode w with
  | error e => exact ⟨e, rfl⟩
  | ok i => exact absurd ((decoderAcceptsTableWords w).mp ⟨i, hd⟩) (by simp [h])

/-- An illegal word written to `CMD` while `HALT = 0` raises IllegalCommand (R175). -/
theorem hostAction_illegal {w : Word64} {e : DecodeError} {s : State} (hrun : statusHalt s.status = false)
    (hd : decode w = .error e) : hostAction (.write cmdAddress w) s = .next (raise .illegalCommand s) := by
  simp [hostAction, hrun, issue, hd]

/-- Settles O43: a word outside the table does not decode, and the code is all that IllegalCommand writes. -/
theorem illegalWordOnlySetsCode : Obligations.IllegalWordOnlySetsCode := by
  intro s w rest hhost hrun hillegal
  obtain ⟨e, hd⟩ := decode_error_of_illegal hillegal
  exact ⟨_, (step_cons hhost).trans (hostAction_illegal hrun hd), onlyCc_raise (by decide) _⟩

/-! ### The idle engine (R185, R190) -/

/-- Settles O41: a step acts only through the host's next action. -/
theorem idleStepHoldsState : Obligations.IdleStepHoldsState :=
  fun _ => step_nil

end Sys2Proof.Machine
end

section
/-! PROOFS. The tier tests and the residues (spec/70_reset_and_hazards.md R193): in range a lane passes or fails with
its residue. -/

namespace Sys2Proof.Machine

/-- Two lane values in the exact range of a kind that have one residue pass together (R108): each passes exactly when
the prime divides no number that the kind tests for the second of them. -/
theorem passes_congr_of_mod_eq {k : Kind} {i v w : Nat} (hi : i < 3456) (hv : exactValue k v) (hw : exactValue k w)
    (hmod : v % primeAt i = w % primeAt i) : passes k i v ↔ passes k i w :=
  calc passes k i v
    _ ↔ factorFree k (primeAt i) w = true := passes_iff_factorFree hi hv hmod
    _ ↔ passes k i w := (passes_iff_factorFree hi hw rfl).symm

/-- A tier test of any kind tells no two states in range with the same mode and the same residues apart. -/
theorem tierTest_nf_congr (k : Kind) {s s' : State} (hm : s.mem.wf) (hm' : s'.mem.wf) (hv : modeValid s.mode = true)
    (hmode : s'.mode = s.mode) (hr : InRange (tierLanes s.mode) s.mem) (hr' : InRange (tierLanes s.mode) s'.mem)
    (hmod : ∀ l < tierLanes s.mode, residueAt l s.mem % primeAt l = residueAt l s'.mem % primeAt l) :
    statusNf (tierTest k s).status = statusNf (tierTest k s').status := by
  have hv' : modeValid s'.mode = true := hmode.symm ▸ hv
  rw [Bool.eq_iff_iff, tierTest_nf_iff k hm hv, tierTest_nf_iff k hm' hv', hmode]
  exact forall₂_congr fun l hl => passes_congr_of_mod_eq (Nat.lt_of_lt_of_le hl (tierLanes_le s.mode))
    (exactValue_of_lt (hr l hl)) (exactValue_of_lt (hr' l hl)) (hmod l hl)

/-- Settles O23: each of the three commands is the tier test of its kind. -/
theorem testsDependOnResiduesOnly : Obligations.TestsDependOnResiduesOnly := by
  intro s s' t t' i hi hm hm' hv hmode hr hr' hmod ht ht'
  rcases hi with rfl | rfl | rfl
  all_goals
    obtain rfl := next_inj ht
    obtain rfl := next_inj ht'
    exact tierTest_nf_congr _ hm hm' hv hmode hr hr' hmod

end Sys2Proof.Machine
end

section
/-! PROOFS. Reset (spec/70_reset_and_hazards.md R190, R191): the reset event, and the invariant at its end. -/

namespace Sys2Proof.Machine

/-- Settles O47: halted or not, the event ends in `State.afterReset`, with `OUT` as long as before. -/
theorem resetEventClearsState : Obligations.ResetEventClearsState := by
  intro s rest ⟨_, _, _, _, hcap⟩ hhost
  exact ⟨_, step_cons hhost, afterReset_wf _ _ _ _ hcap, resetMemory_out_length _ _, resetMemory_scratch _ _,
    rfl, rfl, rfl, rfl, rfl, rfl, rfl, rfl⟩

/-- `STATUS` at reset: code 0 and no halt. -/
theorem statusInv_zero : StatusInv 0 :=
  ⟨by decide, by decide, by decide, by decide⟩

/-- A reset state has the invariant of a run whatever its draw of the unspecified contents, its capacity being legal. -/
theorem afterReset_runInv (draw : Nat) {cap : Nat} (hcap : 1 ≤ cap) (host : List HostAccess) (v : Word64) :
    RunInv (State.afterReset draw cap host v) :=
  runInv_of_status (afterReset_wf draw cap host v hcap) (show 0 < 6 by decide) (.inl rfl) statusInv_zero
    fun _ => Nat.zero_le _

/-- Settles O49: `OUT_CAP` is a successor, so it is at least 1 (R4). -/
theorem resetHasInvariant : Obligations.ResetHasInvariant :=
  afterReset_runInv 0 (Nat.succ_pos Config.outCapPred) [] 0

end Sys2Proof.Machine
end
